-- ==== Sys2Proof/Word.lean ====
section
/-! DEFINITION. The widths of the block's values: bytes, 32-bit addresses, tags and sequence fields, 64-bit counters (spec/00_scope.md R12). -/

namespace Sys2Proof

/-- One byte of memory or of a slot's data row (20_memory.md R60, R71). -/
abbrev Byte := BitVec 8

/-- A request address, a `u32` (10_state.md R44). -/
abbrev Address := BitVec 32

/-- A tag, held in a `u32` field (10_state.md R27). -/
abbrev Tag := BitVec 32

/-- `loadSeq` or `accessSeq`, a `u32` (10_state.md R27). -/
abbrev Seq := BitVec 32

/-- `opCounter` or a statistics counter, a `u64` (10_state.md R36, R39). -/
abbrev Count := BitVec 64

/-- A request word REQ (30_encoding.md R93). -/
abbrev ReqWord := BitVec 33

end Sys2Proof
end

