-- ==== Sys2Proof/Config.lean ====
section
/-! DEFINITION. The configuration register CFG, the spec's three named parameters with their defaults, and the CFG that State.reset holds. -/

namespace Sys2Proof

/-- `evictionPolicy` (00_scope.md R8, 10_state.md R25). `invalid` is a token of the abstract CFG that is none of the three
(60_exceptions.md R262, "missing/invalid eviction token"); `reserved` is the code 3 of the packed CFG (30_encoding.md
R100), which nothing else gives. -/
inductive Policy where
  | none
  | lru
  | fifo
  | invalid
  | reserved
  deriving DecidableEq, Repr

/-- The abstract CFG (10_state.md R24). The dimensions are integers because the environment may present any number,
"0 and negatives included" (60_exceptions.md R262). -/
structure Cfg where
  numSets         : Int
  numBlocksPerSet : Int
  blockSize       : Int
  writeAllocate   : Bool
  writeThrough    : Bool
  evictionPolicy  : Policy
  deriving DecidableEq, Repr

/-- COST: the three literals of the cost table (43_cycle_accountant.md R212). DEDUCED, log 7: the "seven cost
constants" of 00_scope.md R11 are the table's seven rows, which these three numbers fix. -/
structure Cost where
  /-- any access to the cache array -/
  access   : Nat
  /-- per byte of a block moved between cache and memory -/
  perByte  : Nat
  /-- per store sent to memory on its own -/
  memWrite : Nat
  deriving DecidableEq, Repr

/-- The default of COST: 1, 25 and 100 (43_cycle_accountant.md R212). -/
def Cost.table : Cost := { access := 1, perByte := 25, memWrite := 100 }

/-- ON_OVERFLOW: what an operation does when a 64-bit counter would pass `2^64 - 1` (00_scope.md R11, 92 D13). -/
inductive OnOverflow where
  | refuse
  | wrap
  | saturate
  deriving DecidableEq, Repr

/-- The three named parameters of 00_scope.md R11: fixed for the machine, changed by no step (log 6). -/
structure Params where
  dataArray  : Bool
  cost       : Cost
  onOverflow : OnOverflow
  deriving DecidableEq, Repr

/-- The defaults of 00_scope.md R11. -/
def Params.default : Params := { dataArray := false, cost := Cost.table, onOverflow := .refuse }

/-- DESIGN CHOICE, log 1: the CFG of State.reset. CFG's reset value "is whatever the environment drives" (10_state.md
R23), so one legal CFG must be named: that of the source's only numeric scenario (95_test_vectors.md S1, G1). -/
def Config.resetCfg : Cfg :=
  { numSets := 1, numBlocksPerSet := 2, blockSize := 4, writeAllocate := true, writeThrough := false,
    evictionPolicy := .lru }

end Sys2Proof
end

