-- ==== Sys2Proof/Syntax.lean ====
section
/-! DEFINITION. The operations: one constructor for each row of spec/opcode_table.json (30_encoding.md R90, R105). -/

namespace Sys2Proof

/-- The kind of a request (30_encoding.md R91). -/
inductive Kind where
  | load
  | store
  deriving DecidableEq, Repr

/-- A request as the block decodes it: `{ kind, address }` (30_encoding.md R90, R91). -/
inductive Instr where
  /-- LOAD, 44_operations.md R227 -/
  | load (address : Address)
  /-- STORE, 44_operations.md R228 -/
  | store (address : Address)
  deriving DecidableEq, Repr

def Instr.kind : Instr → Kind
  | .load _ => .load
  | .store _ => .store

def Instr.address : Instr → Address
  | .load a => a
  | .store a => a

/-- What accompanies the request word outside its 33 bits with DATA_ARRAY = true (20_memory.md R75, 30_encoding.md
R93): `size`, and for a STORE `wdata`, with `wdata[k]` the byte for address `a + k`. -/
structure Sideband where
  size  : Nat
  wdata : List Byte
  deriving DecidableEq, Repr

/-- No side-band at all: what a request carries at the source's own level, and what State.reset's port shows. -/
def Sideband.empty : Sideband := { size := 0, wdata := [] }

end Sys2Proof
end

