-- ==== Sys2Proof/Machine/Operands.lean ====
section
/-! DEFINITION. Operands: the parameters derived from CFG (00_scope.md R10) and the address decoder DECODE
(40_address_decoder.md), with the block base (20_memory.md R61) and its recomposition (40_address_decoder.md R124). -/

namespace Sys2Proof

/-- `numSets` as the natural number it is in a legal CFG (00_scope.md R8). -/
def Cfg.sets (c : Cfg) : Nat := c.numSets.toNat

/-- `numBlocksPerSet` as a natural number: the ways of a set (00_scope.md R8). -/
def Cfg.ways (c : Cfg) : Nat := c.numBlocksPerSet.toNat

/-- `blockSize` as a natural number: the bytes of a block (00_scope.md R8). -/
def Cfg.bytes (c : Cfg) : Nat := c.blockSize.toNat

/-- `offsetBits = log2(blockSize)` (00_scope.md R10). DESIGN CHOICE, log 23: R12 defines `log2` of powers of two only; of
another number this and the two logarithms below take the floor, and 0 of 0 and of a negative one. -/
def Cfg.offsetBits (c : Cfg) : Nat := Nat.log2 c.bytes

/-- `indexBits = log2(numSets)` (00_scope.md R10; DESIGN CHOICE, log 23, where that is no power of two). -/
def Cfg.indexBits (c : Cfg) : Nat := Nat.log2 c.sets

/-- `wayBits = log2(numBlocksPerSet)` (00_scope.md R10; DESIGN CHOICE, log 23, where that is no power of two). -/
def Cfg.wayBits (c : Cfg) : Nat := Nat.log2 c.ways

/-- `tagBits = 32 - offsetBits - indexBits` (00_scope.md R10). -/
def Cfg.tagBits (c : Cfg) : Nat := 32 - c.offsetBits - c.indexBits

/-- Total slots, `numSets * numBlocksPerSet` (00_scope.md R10). -/
def Cfg.totalSlots (c : Cfg) : Nat := c.sets * c.ways

/-- Data capacity in bytes, `numSets * numBlocksPerSet * blockSize` (00_scope.md R10). -/
def Cfg.dataCapacity (c : Cfg) : Nat := c.totalSlots * c.bytes

namespace Machine

/-- What DECODE returns (40_address_decoder.md R120). -/
structure Decoded where
  tag    : Tag
  index  : Nat
  offset : Nat
  deriving DecidableEq, Repr

/-- `DECODE(a)` (40_address_decoder.md R120): a pure function of CFG and the address, shifts and masks of naturals
(00_scope.md R12). With one set it is R121's special case, no case of its own. DESIGN CHOICE, log 22: a CFG with
`offsetBits + indexBits` above 31 has no DECODE in the spec (R127) and no reachable state serves a request under it; the
definition, being total, gives the tag 0 there, and no statement says so. The same holds of a CFG with a dimension that is
no power of two (DESIGN CHOICE, log 23). -/
def decodeAddress (c : Cfg) (a : Address) : Decoded :=
  { tag    := BitVec.ofNat 32 (a.toNat >>> (c.offsetBits + c.indexBits))
    index  := (a.toNat >>> c.offsetBits) &&& ((1 <<< c.indexBits) - 1)
    offset := a.toNat &&& (c.bytes - 1) }

/-- `base(a) = (a >> offsetBits) << offsetBits` (20_memory.md R61). -/
def blockBase (c : Cfg) (a : Address) : Address :=
  BitVec.ofNat 32 ((a.toNat >>> c.offsetBits) <<< c.offsetBits)

/-- The block base rebuilt from a tag and a set index (40_address_decoder.md R124, 20_memory.md R68). -/
def recompose (c : Cfg) (t : Tag) (index : Nat) : Address :=
  BitVec.ofNat 32 ((t.toNat <<< (c.offsetBits + c.indexBits)) ||| (index <<< c.offsetBits))

/-- The access of an extended request lies inside one block (20_memory.md R76). -/
def insideBlock (c : Cfg) (a : Address) (size : Nat) : Bool :=
  decide (a.toNat % c.bytes + size ≤ c.bytes)

end Machine

end Sys2Proof
end

