-- ==== Sys2Proof/Machine/Accountant.lean ====
section
/-! DEFINITION. The cost table, one definition for each row (43_cycle_accountant.md R201 to R207). With COST at its default
the literals are 1, 25 and 100. -/

namespace Sys2Proof.Machine

/-- "Load, hit | +1" (R201). -/
def loadHitCost (p : Cost) : Nat := p.access

/-- Bringing a block in: "+25·blockSize (memory fetch) +1 (cache install)" (R202, R205), the charge of ALLOCATE
(44_operations.md R226). -/
def installCost (p : Cost) (c : Cfg) : Nat := p.perByte * c.bytes + p.access

/-- "Store, hit, write-through | +100 (write to memory) +1 (cache update)" (R203). -/
def storeHitThroughCost (p : Cost) : Nat := p.memWrite + p.access

/-- "Store, hit, write-back | +1 (cache update)" (R204). -/
def storeHitBackCost (p : Cost) : Nat := p.access

/-- "Store, miss, no-write-allocate | +100" (R206). -/
def storeDirectCost (p : Cost) : Nat := p.memWrite

/-- "Eviction of a dirty block under write-back | +25·blockSize" (R207). -/
def evictionCost (p : Cost) (c : Cfg) : Nat := p.perByte * c.bytes

end Sys2Proof.Machine
end

