-- ==== Sys2Proof/Machine/State.lean ====
section
/-! DEFINITION. The whole state, the reasons a step can stop, and the machine right after reset. -/

namespace Sys2Proof.Machine

/-- One slot `SLOT[s][w]` (10_state.md R27, R28). `data` is the data row, used only with DATA_ARRAY = true; without it
the field "does not exist" and stays the empty sequence. -/
structure Slot where
  valid     : Bool
  dirty     : Bool
  tag       : Tag
  loadSeq   : Seq
  accessSeq : Seq
  data      : List Byte
  deriving DecidableEq, Repr

/-- A free slot after reset: `valid = 0` (10_state.md R45). DESIGN CHOICE, log 2: the other fields are unspecified and
never read (10_state.md R46); the model holds zeros and no data. -/
def Slot.free : Slot :=
  { valid := false, dirty := false, tag := 0#32, loadSeq := 0#32, accessSeq := 0#32, data := [] }

/-- The five statistics counters (10_state.md R39). -/
structure Stat where
  loadHits    : Count
  loadMisses  : Count
  storeHits   : Count
  storeMisses : Count
  totalCycles : Count
  deriving DecidableEq, Repr

/-- "Statistics is created zeroed" (10_state.md R39, R45). -/
def Stat.zero : Stat :=
  { loadHits := 0#64, loadMisses := 0#64, storeHits := 0#64, storeMisses := 0#64, totalCycles := 0#64 }

/-- A memory-side event (20_memory.md R65). -/
inductive MemEvent where
  /-- read a block from memory into the slot being installed; the argument is the block base -/
  | fill (base : Address)
  /-- write the victim's block to memory; the argument is the victim's block base -/
  | writeback (base : Address)
  /-- write the stored datum to memory at the request address -/
  | write (address : Address)
  deriving DecidableEq, Repr

/-- The sub-codes of ConfigurationError (60_exceptions.md R262), in the order of their numbers. -/
inductive ConfigError where
  /-- `numSets` is not a positive power of two -/
  | ce1
  /-- `numBlocksPerSet` is not a positive power of two -/
  | ce2
  /-- `blockSize` is not a positive power of two -/
  | ce3
  /-- `blockSize` is 1 or 2 -/
  | ce4
  /-- no-write-allocate with write-back -/
  | ce5
  /-- more than one way and neither LRU nor FIFO, or the reserved packed policy code -/
  | ce6
  deriving DecidableEq, Repr

/-- The sub-codes of TraceFormatError (60_exceptions.md R265). -/
inductive TraceError where
  /-- "unknown op token" -/
  | te1
  /-- "malformed hex address" -/
  | te2
  /-- "malformed line" -/
  | te3
  deriving DecidableEq, Repr

/-- The response to a request (30_encoding.md R102): `hit`, and `rdata` for a LOAD in the data extension. -/
structure Response where
  hit   : Bool
  rdata : Option (List Byte)
  deriving DecidableEq, Repr

/-- The outcome record of an operation (30_encoding.md R103). -/
structure OutcomeRecord where
  set       : Nat
  tag       : Tag
  hit       : Bool
  slot      : Option Nat
  victimTag : Option Tag
  wroteBack : Bool
  cost      : Nat
  events    : List MemEvent
  deriving DecidableEq, Repr

/-- What the environment may present to the block (30_encoding.md R109, 70_reset_and_hazards.md R308), and the one thing
it must not do, which the model refuses (R298). -/
inductive EnvEvent where
  /-- apply reset while presenting the abstract CFG (70_reset_and_hazards.md R290, R291) -/
  | reset (cfg : Cfg)
  /-- the same with CFG as the packed 19-bit word (30_encoding.md R100) -/
  | resetPacked (word : BitVec 19)
  /-- a request word and what accompanies it (30_encoding.md R93, 20_memory.md R75) -/
  | request (word : ReqWord) (side : Sideband)
  /-- drive the CFG port without reset (70_reset_and_hazards.md R298) -/
  | changeCfg (cfg : Cfg)
  /-- a whole textual trace, one line each, for the tokenizer at the block's boundary (30_encoding.md R97, log 15) -/
  | trace (lines : List (List Char))
  deriving DecidableEq, Repr

/-- The whole state. `rows` is the slot array by set index and `mem` the backing memory by byte address, both in one
canonical form (Machine/Ops.lean, log 3); `req`, `resp`, `outcome` and `cfgError` are the block's ports; `pending` is what
the environment presents next, first element first (log 4). -/
structure State where
  params    : Params
  cfg       : Cfg
  cfgError  : Option ConfigError
  rows      : List (Nat × List Slot)
  opCounter : Count
  stat      : Stat
  mem       : List Host.Cell
  req       : Sideband
  resp      : Option Response
  outcome   : Option OutcomeRecord
  pending   : List EnvEvent
  deriving DecidableEq, Repr

/-- The faults. The block itself has none while it runs (60_exceptions.md R261). -/
inductive Fault where
  /-- TraceFormatError (60_exceptions.md R260, R265, R270). Raised by the tokenizer at the block's boundary, which a
  `trace` event calls; LOAD and STORE never raise it. Unsafe: which of two codes is named for a line that earns both is a
  choice (log 15), and so is that the run ends there (log 21). It is raised before the first operation only (00_scope.md R13). -/
  | traceFormat (code : TraceError)
  deriving DecidableEq, Repr

/-- The refusals: the ones 60_exceptions.md R274 asks for, each under its own name, and what a request without the
extension's side-band gets. -/
inductive Refusal where
  /-- An instruction that has no meaning yet; raised by Machine/Dispatch.lean only. Safe. -/
  | notModelled (mnemonic : String)
  /-- A CFG outside the bounds of 00_scope.md R9, raised by reset (60_exceptions.md R274). Safe: a removed behaviour. -/
  | cfgOutOfBounds
  /-- A 64-bit counter would pass `2^64 - 1` under ON_OVERFLOW = refuse, raised by LOAD and STORE (10_state.md R42). Safe. -/
  | counterOverflow
  /-- An access that crosses a block boundary, raised by LOAD and STORE with DATA_ARRAY = true (20_memory.md R76). Safe. -/
  | crossesBlock
  /-- With DATA_ARRAY = true, a request whose `size` is 0 or whose `wdata` is not `size` bytes: no request of 20_memory.md
  R75. Raised by LOAD and STORE. Safe. -/
  | sidebandMalformed
  /-- A request, or a trace of them, while `cfg_error` is asserted (60_exceptions.md R274). Raised by LOAD, STORE and a
  `trace` event. Safe. -/
  | requestWhileCfgError
  /-- A change of CFG without reset, raised by a `changeCfg` event (70_reset_and_hazards.md R298). Safe. -/
  | cfgChangedWithoutReset
  /-- A trace with a TraceFormatError handed over after an operation has been performed since reset, where no error may be
  raised any more (00_scope.md R13). Raised by a `trace` event. Safe: no request of it is served (log 20). -/
  | traceErrorAfterFirstOperation
  /-- A text line outside the narrow grammar whose treatment the source does not give, raised by a `trace` event
  (30_encoding.md R99). Safe. -/
  | traceLineUnspecified
  deriving DecidableEq, Repr

/-- The machine right after reset (10_state.md R45, R47, 70_reset_and_hazards.md R291): no slot occupied, every counter 0,
CFG as the environment presented it (DESIGN CHOICE, log 1), the parameters at their defaults (log 6), no memory listed
(log 3), nothing on the ports (log 5, log 16), nothing presented yet (log 4). -/
def State.reset : State :=
  { params := Params.default, cfg := Config.resetCfg, cfgError := none, rows := [], opCounter := 0#64,
    stat := Stat.zero, mem := [], req := Sideband.empty, resp := none, outcome := none, pending := [] }

end Sys2Proof.Machine
end

