-- ==== Sys2Proof/Machine/ConfigCheck.lean ====
section
/-! DEFINITION. The check of CFG at the end of reset (60_exceptions.md R262, R267; 00_scope.md R8, R9) and the packed form
of CFG (30_encoding.md R100). -/

namespace Sys2Proof

/-- A positive power of two. -/
def isPowerOfTwo (n : Int) : Bool := decide ((2 : Int) ^ Nat.log2 n.toNat = n)

namespace Machine

/-- `evictionPolicy` breaks the token rule: the packed code 3 whatever the ways (30_encoding.md R101,
93_implementation_defined.md U14; DEDUCED, log 9), and with more than one way what is neither LRU nor FIFO (60_exceptions.md
R262). -/
def policyIllegal (c : Cfg) : Bool :=
  decide (c.evictionPolicy = .reserved) ||
    decide (1 < c.numBlocksPerSet ∧ c.evictionPolicy ≠ .lru ∧ c.evictionPolicy ≠ .fifo)

/-- Every cause of ConfigurationError that applies, lowest code first (60_exceptions.md R262). -/
def configErrors (c : Cfg) : List ConfigError :=
  (if isPowerOfTwo c.numSets then [] else [.ce1]) ++
  (if isPowerOfTwo c.numBlocksPerSet then [] else [.ce2]) ++
  (if isPowerOfTwo c.blockSize then [] else [.ce3]) ++
  (if c.blockSize = 1 ∨ c.blockSize = 2 then [.ce4] else []) ++
  (if c.writeAllocate = false ∧ c.writeThrough = false then [.ce5] else []) ++
  (if policyIllegal c then [.ce6] else [])

/-- The ConfigurationError reported: "the lowest-numbered code that applies" (60_exceptions.md R267). -/
def configError (c : Cfg) : Option ConfigError := (configErrors c).head?

/-- The bounds of 00_scope.md R9 beyond R8; its third needs no check, `25 * blockSize` being a natural number. -/
def inBounds (c : Cfg) : Bool :=
  decide (c.offsetBits + c.indexBits ≤ 31) && decide (c.ways ≤ 2 ^ 31)

/-- A legal CFG: it raises no ConfigurationError and lies within the bounds (00_scope.md R8, R9). -/
def legalCfg (c : Cfg) : Bool := (configError c).isNone && inBounds c

/-- The policy field of the packed CFG: 0 None, 1 LRU, 2 FIFO, 3 reserved (30_encoding.md R100). -/
def unpackPolicy (n : Nat) : Policy :=
  match n with
  | 0 => .none
  | 1 => .lru
  | 2 => .fifo
  | _ => .reserved

/-- The policy field's code (30_encoding.md R100); an invalid token of the abstract CFG has none. -/
def packPolicy : Policy → Option (BitVec 2)
  | .none => some 0#2
  | .lru => some 1#2
  | .fifo => some 2#2
  | .invalid => none
  | .reserved => some 3#2

/-- CFG from the packed 19-bit word (30_encoding.md R100). The three dimensions are stored as exponents. -/
def unpackCfg (w : BitVec 19) : Cfg :=
  { numSets         := 2 ^ (w.extractLsb' 5 5).toNat
    numBlocksPerSet := 2 ^ (w.extractLsb' 10 5).toNat
    blockSize       := 2 ^ (w.extractLsb' 0 5).toNat
    writeAllocate   := w.getLsbD 15
    writeThrough    := w.getLsbD 16
    evictionPolicy  := unpackPolicy (w.extractLsb' 17 2).toNat }

/-- CFG can be written as a packed word: each dimension is `2 ^ e` with `e` at most 31 (30_encoding.md R100). -/
def packable (c : Cfg) : Bool :=
  isPowerOfTwo c.numSets && isPowerOfTwo c.numBlocksPerSet && isPowerOfTwo c.blockSize &&
  decide (c.indexBits < 32) && decide (c.wayBits < 32) && decide (c.offsetBits < 32)

/-- The packed word of CFG; nothing for a CFG the packed form cannot express (30_encoding.md R100). -/
def packCfg (c : Cfg) : Option (BitVec 19) :=
  if packable c then
    (packPolicy c.evictionPolicy).map fun p =>
      p ++ BitVec.ofBool c.writeThrough ++ BitVec.ofBool c.writeAllocate ++
        BitVec.ofNat 5 c.wayBits ++ BitVec.ofNat 5 c.indexBits ++ BitVec.ofNat 5 c.offsetBits
  else none

end Machine

end Sys2Proof
end

