-- ==== Sys2Proof/Machine/Flags.lean ====
section
/-! DEFINITION. The one-bit values: the dirty rule, the write-back guard, and which replacement path is active
(10_state.md R29, R43; 41_cache_store.md R148; 42_eviction_policy.md R169). -/

namespace Sys2Proof.Machine

/-- The LRU path is active: `evictionPolicy = LRU` and more than one way (42_eviction_policy.md R169, 44_operations.md
R225). -/
def lruActive (c : Cfg) : Bool := decide (c.evictionPolicy = .lru) && decide (1 < c.ways)

/-- The dirty bit of a block at its install, fresh or replacing (10_state.md R29, 41_cache_store.md R149):
`(kind = Store) and (not writeThrough)`. -/
def installDirty (c : Cfg) (k : Kind) : Bool := decide (k = .store) && !c.writeThrough

/-- The write-back guard of REPLACE_SLOT: `valid and dirty and not writeThrough` (41_cache_store.md R148). -/
def writeBackNeeded (c : Cfg) (v : Slot) : Bool := v.valid && v.dirty && !c.writeThrough

end Sys2Proof.Machine
end

