-- ==== Sys2Proof/Machine/Ops.lean ====
section
/-! DEFINITION. The named operations over the state: the sparse store in its canonical form, the backing memory, the slot
array, the 64-bit counters, entering and leaving ConfigurationError (reset), and the end of an operation. -/

namespace Sys2Proof.Machine

/-! ### The sparse store: addresses strictly rising, no entry equal to what an unlisted address reads as -/

/-- What address `a` holds: its entry, or `dflt` where none is listed. -/
def Sparse.read {α : Type} (dflt : α) : List (Nat × α) → Nat → α
  | [], _ => dflt
  | (k, v) :: m, a => if k = a then v else Sparse.read dflt m a

/-- Writing `v` at `a`; writing `dflt` removes the entry. -/
def Sparse.write {α : Type} [DecidableEq α] (dflt : α) : List (Nat × α) → Nat → α → List (Nat × α)
  | [], a, v => if v = dflt then [] else [(a, v)]
  | (k, x) :: m, a, v =>
    if a < k then (if v = dflt then (k, x) :: m else (a, v) :: (k, x) :: m)
    else if a = k then (if v = dflt then m else (a, v) :: m)
    else (k, x) :: Sparse.write dflt m a v

/-- The canonical form. -/
def Sparse.wf {α : Type} [DecidableEq α] (dflt : α) : List (Nat × α) → Bool
  | [] => true
  | (k, v) :: m => decide (v ≠ dflt) && m.all (fun e => decide (k < e.1)) && Sparse.wf dflt m

/-! ### The backing memory (20_memory.md R60, R62, R64) -/

/-- DESIGN CHOICE, log 3: a byte of memory that nothing has written reads 00H; the spec gives memory no contents
(70_reset_and_hazards.md R297). -/
def Memory.unlisted : Byte := 0#8

/-- The byte at an address. -/
def Memory.read (m : List Host.Cell) (a : Address) : Byte := Sparse.read Memory.unlisted m a.toNat

/-- One byte written. -/
def Memory.write (m : List Host.Cell) (a : Address) (b : Byte) : List Host.Cell :=
  Sparse.write Memory.unlisted m a.toNat b

/-- `MemRead(addr, n)` (00_scope.md R13): `n` bytes in ascending address order (20_memory.md R71). -/
def Memory.readBytes (m : List Host.Cell) : Address → Nat → List Byte
  | _, 0 => []
  | a, n + 1 => Memory.read m a :: Memory.readBytes m (a + 1#32) n

/-- `MemWrite(addr, n, v)` (00_scope.md R13), the bytes in ascending address order (20_memory.md R71). -/
def Memory.writeBytes (m : List Host.Cell) : Address → List Byte → List Host.Cell
  | _, [] => m
  | a, b :: bs => Memory.writeBytes (Memory.write m a b) (a + 1#32) bs

/-- The canonical form of memory: that of the sparse store, every address below `2^32` (20_memory.md R60). -/
def Memory.wf (m : List Host.Cell) : Bool :=
  Sparse.wf Memory.unlisted m && m.all (fun e => decide (e.1 < 2 ^ 32))

/-! ### The slot array (10_state.md R26) -/

/-- The row of a set nothing has been installed in: `numBlocksPerSet` free slots (10_state.md R26, R45). -/
def freeRow (c : Cfg) : List Slot := List.replicate c.ways Slot.free

/-- The row of set `i`: slot `w` of the set is its element `w`. -/
def State.row (s : State) (i : Nat) : List Slot := Sparse.read (freeRow s.cfg) s.rows i

/-- `SLOT[·][w]` of a row. -/
def slotAt (row : List Slot) (w : Nat) : Slot := row.getD w Slot.free

/-- `SLOT[i][w]` (00_scope.md R13). -/
def State.slot (s : State) (i w : Nat) : Slot := slotAt (s.row i) w

/-- `n_s`: how many slots of a row are occupied (10_state.md R32). -/
def occupied (row : List Slot) : Nat := row.countP (fun sl => sl.valid)

/-- The row of set `i` replaced. -/
def State.setRow (s : State) (i : Nat) (row : List Slot) : State :=
  { s with rows := Sparse.write (freeRow s.cfg) s.rows i row }

/-- One slot of set `i` changed. -/
def State.updateSlot (s : State) (i w : Nat) (f : Slot → Slot) : State :=
  s.setRow i ((s.row i).set w (f (s.slot i w)))

/-- The backing memory replaced. -/
def State.setMem (s : State) (m : List Host.Cell) : State := { s with mem := m }

/-! ### The 64-bit counters -/

/-- A counter plus `n`; past `2^64 - 1` what ON_OVERFLOW says (10_state.md R42): no value, the sum modulo `2^64`, or the
largest value (the two that are not the default: log 14). -/
def addCount (m : OnOverflow) (c : Count) (n : Nat) : Option Count :=
  if c.toNat + n < 2 ^ 64 then some (BitVec.ofNat 64 (c.toNat + n))
  else
    match m with
    | .refuse => none
    | .wrap => some (BitVec.ofNat 64 (c.toNat + n))
    | .saturate => some (BitVec.allOnes 64)

/-- Step (4) of an operation: exactly one hit or miss counter grows by 1 (44_operations.md R221, 10_state.md R40). -/
def countOutcome (m : OnOverflow) (k : Kind) (hit : Bool) (st : Stat) : Option Stat :=
  match k, hit with
  | .load, true => (addCount m st.loadHits 1).map fun n => { st with loadHits := n }
  | .load, false => (addCount m st.loadMisses 1).map fun n => { st with loadMisses := n }
  | .store, true => (addCount m st.storeHits 1).map fun n => { st with storeHits := n }
  | .store, false => (addCount m st.storeMisses 1).map fun n => { st with storeMisses := n }

/-- `charge(c)` (43_cycle_accountant.md R200): the only writer of `totalCycles`. -/
def charge (m : OnOverflow) (cost : Nat) (st : Stat) : Option Stat :=
  (addCount m st.totalCycles cost).map fun n => { st with totalCycles := n }

/-! ### Reset, and ConfigurationError: its entry and the way out -/

/-- The state after a reset that presents CFG `c` and whose check reports `e` (70_reset_and_hazards.md R291, R293,
R295; 60_exceptions.md R269): every slot free, `opCounter` and STAT 0, CFG as presented, `cfg_error` as reported. With an
error this is the entry of ConfigurationError, which saves nothing and goes nowhere; with none it is the only way out of
one (60_exceptions.md R272). The parameters, the memory and what the environment has presented are not the block's to
change; the request and response ports are cleared (log 16). -/
def State.afterReset (s : State) (c : Cfg) (e : Option ConfigError) : State :=
  { s with cfg := c, cfgError := e, rows := [], opCounter := 0#64, stat := Stat.zero, req := Sideband.empty,
           resp := none, outcome := none }

/-- Reset presenting CFG `c` (70_reset_and_hazards.md R290, R295): an illegal CFG is reported (60_exceptions.md R262), a
legal one outside the bounds of 00_scope.md R9 is refused (log 10 for one that is both). -/
def applyReset (c : Cfg) (s : State) : Host.Outcome State Fault Refusal :=
  match configError c with
  | some e => .next (s.afterReset c (some e))
  | none => if inBounds c then .next (s.afterReset c none) else .refused .cfgOutOfBounds

/-! ### The end of an operation -/

/-- What the hit or miss path of an operation has done, before the counters advance: the state, and the parts of the
outcome record (30_encoding.md R103). `cost` is the sum of the operation's charges (43_cycle_accountant.md R200), also where
`totalCycles` then wraps or stops at its largest value (DESIGN CHOICE, log 14). -/
structure Effect where
  st        : State
  slot      : Option Nat
  victimTag : Option Tag
  wroteBack : Bool
  cost      : Nat
  events    : List MemEvent
  deriving DecidableEq, Repr

/-- The outcome record of an operation (30_encoding.md R103). -/
def Effect.record (e : Effect) (d : Decoded) (hit : Bool) : OutcomeRecord :=
  { set := d.index, tag := d.tag, hit := hit, slot := e.slot, victimTag := e.victimTag, wroteBack := e.wroteBack,
    cost := e.cost, events := e.events }

/-- The counters, the response and the outcome record of a completed operation put in place. -/
def State.completed (s : State) (st : Stat) (n : Count) (r : Response) (o : OutcomeRecord) : State :=
  { s with stat := st, opCounter := n, resp := some r, outcome := some o }

/-- Steps (4) and (5) of an operation, and its response (44_operations.md R220, R221; 30_encoding.md R102, R103): the
charge, exactly one hit or miss counter, `opCounter` last. An operation that would overflow a counter under ON_OVERFLOW =
refuse has no meaning and changes nothing (10_state.md R42). -/
def complete (k : Kind) (d : Decoded) (hit : Bool) (rdata : Option (List Byte)) (e : Effect) :
    Host.Outcome State Fault Refusal :=
  let m := e.st.params.onOverflow
  match (charge m e.cost e.st.stat).bind (countOutcome m k hit), addCount m e.st.opCounter 1 with
  | some st, some n => .next (e.st.completed st n { hit := hit, rdata := rdata } (e.record d hit))
  | _, _ => .refused .counterOverflow

end Sys2Proof.Machine
end

