-- ==== Sys2Proof/Machine/Eviction.lean ====
section
/-! DEFINITION. The replacement logic: TOUCH, VICTIM_LRU, VICTIM_FIFO (42_eviction_policy.md). All comparisons of ranks and
`loadSeq` are the plain unsigned ones (R176, R183). -/

namespace Sys2Proof.Machine

/-- A slot one rank older. The sum cannot pass the `u32` in a reachable state (42_eviction_policy.md R183; log 8). -/
def Slot.aged (sl : Slot) : Slot := { sl with accessSeq := sl.accessSeq + 1#32 }

/-- `TOUCH(s, w)` on the row of the set (42_eviction_policy.md R170): the touched block gets rank 0, every other occupied
block with a smaller rank ages by one; all ranks are those before the update. -/
def touchRow (row : List Slot) (w : Nat) : List Slot :=
  row.mapIdx fun j sl =>
    if j = w then { sl with accessSeq := 0#32 }
    else if sl.valid && decide (sl.accessSeq < (slotAt row w).accessSeq) then sl.aged else sl

/-- TOUCH of slot `w` of set `i` where the LRU path is active; under FIFO and direct-mapped a hit changes no replacement
state (44_operations.md R225, 42_eviction_policy.md R171). -/
def State.touch (s : State) (i w : Nat) : State :=
  if lruActive s.cfg then s.setRow i (touchRow (s.row i) w) else s

/-- A forward scan keeping the first best: `best` is the slot number, `b` the slot, `i` the number of the next one. -/
def scanBest (better : Slot → Slot → Bool) : List Slot → Nat → Nat → Slot → Nat
  | [], _, best, _ => best
  | x :: row, i, best, b =>
    if better x b then scanBest better row (i + 1) i x else scanBest better row (i + 1) best b

/-- The scan over a whole row, from slot 0. -/
def firstBest (better : Slot → Slot → Bool) : List Slot → Nat
  | [] => 0
  | x :: row => scanBest better row 1 0 x

/-- `VICTIM_LRU(s)` (42_eviction_policy.md R173): the maximum `accessSeq`, the first maximum wins. -/
def victimLru (row : List Slot) : Nat := firstBest (fun x b => decide (b.accessSeq < x.accessSeq)) row

/-- `VICTIM_FIFO(s)` (42_eviction_policy.md R176): the minimum `loadSeq`, the first minimum wins. -/
def victimFifo (row : List Slot) : Nat := firstBest (fun x b => decide (x.loadSeq < b.loadSeq)) row

end Sys2Proof.Machine
end

