-- ==== Sys2Proof/Machine/CacheStore.lean ====
section
/-! DEFINITION. The cache store: LOOKUP, INSTALL_FRESH, REPLACE_SLOT (41_cache_store.md). -/

namespace Sys2Proof.Machine

/-- `LOOKUP(s, t)` on the row of the set (41_cache_store.md R141): the occupied slot with the tag, `valid` tested first. -/
def lookup (row : List Slot) (t : Tag) : Option Nat := row.findIdx? fun sl => sl.valid && decide (sl.tag = t)

/-- The bytes FILL brings in: `MemRead(base, blockSize)` with DATA_ARRAY = true (20_memory.md R77), none without it. -/
def State.fillData (s : State) (base : Address) : List Byte :=
  if s.params.dataArray then Memory.readBytes s.mem base s.cfg.bytes else []

/-- The slot after an install, fresh or replacing (41_cache_store.md R144, R147): valid, the new tag, the dirty rule,
`loadSeq` the counter's low 32 bits before this operation's advance (10_state.md R36), rank 0, the data filled. -/
def State.installedSlot (s : State) (i : Nat) (t : Tag) (k : Kind) : Slot :=
  { valid := true, dirty := installDirty s.cfg k, tag := t, loadSeq := s.opCounter.setWidth 32, accessSeq := 0#32,
    data := s.fillData (recompose s.cfg t i) }

/-- The aging of INSTALL_FRESH: slots `0 .. n-1` one rank older (41_cache_store.md R144). -/
def ageFirst (n : Nat) (row : List Slot) : List Slot :=
  row.mapIdx fun j sl => if j < n then sl.aged else sl

/-- The aging of REPLACE_SLOT: every slot but `w` with a rank below the victim's one rank older (41_cache_store.md R147,
R150). -/
def ageYounger (w : Nat) (row : List Slot) : List Slot :=
  row.mapIdx fun j sl =>
    if j ≠ w ∧ sl.accessSeq < (slotAt row w).accessSeq then sl.aged else sl

/-- `INSTALL_FRESH(s, t, kind)` (41_cache_store.md R144): the block goes to slot `n_s`, under LRU the `n_s` others age.
Nothing is charged here and no block leaves the cache. -/
def installFresh (s : State) (i : Nat) (t : Tag) (k : Kind) : Effect :=
  let row := s.row i
  let w := occupied row
  let aged := if s.cfg.evictionPolicy = .lru then ageFirst w row else row
  { st := s.setRow i (aged.set w (s.installedSlot i t k)), slot := some w, victimTag := none, wroteBack := false,
    cost := 0, events := [.fill (recompose s.cfg t i)] }

/-- The victim's write-back (41_cache_store.md R147; 20_memory.md R78): its block goes to memory where the data array is
modelled. -/
def State.writeBack (s : State) (i : Nat) (v : Slot) : State :=
  if s.params.dataArray then s.setMem (Memory.writeBytes s.mem (recompose s.cfg v.tag i) v.data) else s

/-- `REPLACE_SLOT(s, w, t, kind)` (41_cache_store.md R147): a dirty victim is written back and charged first, under LRU the
younger blocks age, then the slot is overwritten. The victim is read before any write. -/
def replaceSlot (s : State) (i w : Nat) (t : Tag) (k : Kind) : Effect :=
  let row := s.row i
  let v := slotAt row w
  let wb := writeBackNeeded s.cfg v
  let s1 := if wb then s.writeBack i v else s
  let aged := if lruActive s.cfg then ageYounger w row else row
  { st := s1.setRow i (aged.set w (s1.installedSlot i t k))
    slot := some w
    victimTag := if v.valid then some v.tag else none
    wroteBack := wb
    cost := if wb then evictionCost s.params.cost s.cfg else 0
    events := (if wb then [.writeback (recompose s.cfg v.tag i)] else []) ++ [.fill (recompose s.cfg t i)] }

end Sys2Proof.Machine
end

