-- ==== Sys2Proof/WellFormed.lean ====
section
/-! DEFINITION. Which terms are requests the spec describes. -/

namespace Sys2Proof

/-- Every address is an operand of both operations and no encoding is reserved (30_encoding.md R95, 20_memory.md R60):
there is nothing to refuse in an instruction itself. -/
def Instr.wf : Instr → Bool
  | .load _ => true
  | .store _ => true

/-- The side-band of an extended request (20_memory.md R75): `size` is a positive integer, and the `wdata` of a STORE is a
sequence of `size` bytes. A LOAD has no `wdata`; what stands on those lines then is not looked at. -/
def Sideband.wf (k : Kind) (sb : Sideband) : Bool :=
  match k with
  | .load => decide (0 < sb.size)
  | .store => decide (0 < sb.size) && decide (sb.wdata.length = sb.size)

end Sys2Proof
end

