-- ==== Sys2Proof/Machine/Requests.lean ====
section
/-! DEFINITION. The operations LOAD and STORE (44_operations.md): ALLOCATE, the hit and miss paths, and the two meanings. -/

namespace Sys2Proof.Machine

/-- `ALLOCATE(s, t, kind)` without its charge: which install runs, and where (44_operations.md R226). -/
def place (s : State) (i : Nat) (t : Tag) (k : Kind) : Effect :=
  if s.cfg.ways = 1 then replaceSlot s i 0 t k
  else if occupied (s.row i) < s.cfg.ways then installFresh s i t k
  else if s.cfg.evictionPolicy = .lru then replaceSlot s i (victimLru (s.row i)) t k
  else replaceSlot s i (victimFifo (s.row i)) t k

/-- `ALLOCATE(s, t, kind)` (44_operations.md R226): the install, then the charge of `25·blockSize + 1`. -/
def allocate (s : State) (i : Nat) (t : Tag) (k : Kind) : Effect :=
  let e := place s i t k
  { e with cost := e.cost + installCost s.params.cost s.cfg }

/-- Bytes put over a data row from offset `o` on. -/
def putBytes (row : List Byte) (o : Nat) (bs : List Byte) : List Byte :=
  row.take o ++ bs ++ row.drop (o + bs.length)

/-- STORE data into the cache (20_memory.md R80). -/
def State.storeDatum (s : State) (i w o : Nat) : State :=
  if s.params.dataArray then s.updateSlot i w fun sl => { sl with data := putBytes sl.data o s.req.wdata } else s

/-- STORE data to memory, where `WRITE(a)` is emitted (20_memory.md R81). -/
def State.storeThrough (s : State) (a : Address) : State :=
  if s.params.dataArray then s.setMem (Memory.writeBytes s.mem a s.req.wdata) else s

/-- `SLOT[i][w].dirty <- 1` (44_operations.md R228). -/
def State.markDirty (s : State) (i w : Nat) : State := s.updateSlot i w fun sl => { sl with dirty := true }

/-- The hit path of LOAD (44_operations.md R225, R227). -/
def loadHit (s : State) (d : Decoded) (w : Nat) : Effect :=
  { st := s.touch d.index w, slot := some w, victimTag := none, wroteBack := false, cost := loadHitCost s.params.cost,
    events := [] }

/-- The miss path of LOAD (44_operations.md R227). -/
def loadMiss (s : State) (d : Decoded) : Effect := allocate s d.index d.tag .load

/-- The hit path of STORE (44_operations.md R228, R231, R232). -/
def storeHit (s : State) (a : Address) (d : Decoded) (w : Nat) : Effect :=
  let s1 := (s.touch d.index w).storeDatum d.index w d.offset
  if s.cfg.writeThrough then
    { st := s1.storeThrough a, slot := some w, victimTag := none, wroteBack := false,
      cost := storeHitThroughCost s.params.cost, events := [.write a] }
  else
    { st := s1.markDirty d.index w, slot := some w, victimTag := none, wroteBack := false,
      cost := storeHitBackCost s.params.cost, events := [] }

/-- The miss path of STORE with write-allocate (44_operations.md R228, R230). -/
def storeMissAllocate (s : State) (a : Address) (d : Decoded) : Effect :=
  let e := allocate s d.index d.tag .store
  let s1 := e.st.storeDatum d.index (e.slot.getD 0) d.offset
  if s.cfg.writeThrough then { e with st := s1.storeThrough a, events := e.events ++ [.write a] }
  else { e with st := s1 }

/-- The miss path of STORE without write-allocate: "direct write to memory, cache untouched" (44_operations.md R228,
R229). -/
def storeMissDirect (s : State) (a : Address) : Effect :=
  { st := s.storeThrough a, slot := none, victimTag := none, wroteBack := false, cost := storeDirectCost s.params.cost,
    events := [.write a] }

/-- The miss path of STORE (44_operations.md R228). -/
def storeMiss (s : State) (a : Address) (d : Decoded) : Effect :=
  if s.cfg.writeAllocate then storeMissAllocate s a d else storeMissDirect s a

/-- `rdata` of a LOAD (20_memory.md R79): `size` bytes of the row holding the block, from the offset on; nothing without the
data array. -/
def State.readData (s : State) (d : Decoded) (w : Nat) : Option (List Byte) :=
  if s.params.dataArray then some (((s.slot d.index w).data.drop d.offset).take s.req.size) else none

/-- The requests the model gives no meaning to (60_exceptions.md R274): while `cfg_error` is asserted, and in the data
extension one that is no request of 20_memory.md R75 or crosses a block boundary (R76). -/
def requestRefusal (k : Kind) (a : Address) (s : State) : Option Refusal :=
  if s.cfgError.isSome then some .requestWhileCfgError
  else if s.params.dataArray && !s.req.wf k then some .sidebandMalformed
  else if s.params.dataArray && !insideBlock s.cfg a s.req.size then some .crossesBlock
  else none

/-- The effect and the outcome of a LOAD that is not refused (44_operations.md R227). -/
def loadOutcome (a : Address) (s : State) : Host.Outcome State Fault Refusal :=
  let d := decodeAddress s.cfg a
  match lookup (s.row d.index) d.tag with
  | some w =>
    let e := loadHit s d w
    complete .load d true (e.st.readData d w) e
  | none =>
    let e := loadMiss s d
    complete .load d false (e.st.readData d (e.slot.getD 0)) e

/-- The effect and the outcome of a STORE that is not refused (44_operations.md R228). -/
def storeOutcome (a : Address) (s : State) : Host.Outcome State Fault Refusal :=
  let d := decodeAddress s.cfg a
  match lookup (s.row d.index) d.tag with
  | some w => complete .store d true none (storeHit s a d w)
  | none => complete .store d false none (storeMiss s a d)

/-- LOAD (44_operations.md R227). -/
def execLoad (a : Address) (s : State) : Host.Outcome State Fault Refusal :=
  match requestRefusal .load a s with
  | some r => .refused r
  | none => loadOutcome a s

/-- STORE (44_operations.md R228). -/
def execStore (a : Address) (s : State) : Host.Outcome State Fault Refusal :=
  match requestRefusal .store a s with
  | some r => .refused r
  | none => storeOutcome a s

end Sys2Proof.Machine
end

