-- ==== Sys2Proof/Machine/Dispatch.lean ====
section
/-! DEFINITION. One arm for each operation. -/

namespace Sys2Proof.Machine

def exec (i : Instr) (s : State) : Host.Outcome State Fault Refusal :=
  match i with
  | .load address => Sys2Proof.Machine.execLoad address s
  | .store address => Sys2Proof.Machine.execStore address s

end Sys2Proof.Machine
end

