-- ==== Sys2Proof/Machine/Ports.lean ====
section
/-! DEFINITION. What the environment reads: the statistics snapshot (30_encoding.md R108) and the binary form of memory
events (30_encoding.md R104). -/

namespace Sys2Proof.Machine

/-- `totalLoads = loadHits + loadMisses` (10_state.md R41). -/
def Stat.totalLoads (st : Stat) : Count := st.loadHits + st.loadMisses

/-- `totalStores = storeHits + storeMisses` (10_state.md R41). -/
def Stat.totalStores (st : Stat) : Count := st.storeHits + st.storeMisses

/-- The seven values "in this order: total loads, total stores, load hits, load misses, store hits, store misses, total
cycles" (30_encoding.md R108). With `cfg_error` asserted there is no snapshot to present (60_exceptions.md R269). -/
def State.snapshot (s : State) : Option (List Count) :=
  if s.cfgError.isSome then none
  else some [s.stat.totalLoads, s.stat.totalStores, s.stat.loadHits, s.stat.loadMisses, s.stat.storeHits,
    s.stat.storeMisses, s.stat.totalCycles]

/-- The 34-bit word of a memory event: bits 33:32 the kind, bits 31:0 the address (30_encoding.md R104). -/
def MemEvent.toWord : MemEvent → BitVec 34
  | .fill b => 0#2 ++ b
  | .writeback b => 1#2 ++ b
  | .write a => 2#2 ++ a

/-- The event a 34-bit word stands for; kind 3 is "never produced" and stands for none (30_encoding.md R104). -/
def eventOfWord (w : BitVec 34) : Option MemEvent :=
  match (w.extractLsb' 32 2).toNat with
  | 0 => some (.fill (w.extractLsb' 0 32))
  | 1 => some (.writeback (w.extractLsb' 0 32))
  | 2 => some (.write (w.extractLsb' 0 32))
  | _ => none

end Sys2Proof.Machine
end

