-- ==== Sys2Proof/Decode.lean ====
section
/-! DEFINITION. The decoder of the request word REQ, and the encoder (30_encoding.md R93, R94). -/

namespace Sys2Proof

/-- Why a number is not a request word. -/
inductive DecodeError where
  /-- The number does not fit the 33 bits of REQ (30_encoding.md R93). Safe: no 33-bit word is refused. -/
  | notARequestWord
  deriving DecidableEq, Repr

/-- Bits 31:0 of REQ, the address as given: not scaled, extended or relocated (30_encoding.md R92, R93). -/
def reqAddress (w : ReqWord) : Address := w.extractLsb' 0 32

/-- The decoder of REQ. Bit 32 is the opcode: 0 LOAD, 1 STORE. Total, no reserved word (30_encoding.md R94, R95). -/
def decodeReq (w : ReqWord) : Instr :=
  if w.getLsbD 32 then .store (reqAddress w) else .load (reqAddress w)

/-- The decoder on any number: one that is no 33-bit word is rejected by name (log 18). -/
def decodeNat (n : Nat) : Except DecodeError Instr :=
  if n < 2 ^ 33 then .ok (decodeReq (BitVec.ofNat 33 n)) else .error .notARequestWord

/-- The instruction read from a word numbered as spec/opcode_table.json numbers it (bit 32 the kind, bits 31:0 the
address). The bits of `w` from `nbits` on are 0. -/
def decodeTableWord (nbits w : Nat) : Option Instr :=
  match decodeNat (w % 2 ^ nbits) with
  | .ok i => some i
  | .error _ => none

/-- `REQ = {kind, address}` (30_encoding.md R93). -/
def encode : Instr → ReqWord
  | .load a => 0#1 ++ a
  | .store a => 1#1 ++ a

end Sys2Proof
end

