-- ==== Sys2Proof/Machine/TraceText.lean ====
section
/-! DEFINITION. The text form of a request (30_encoding.md R97 to R99) and the tokenizer's errors (60_exceptions.md R265),
at the block's boundary: the block itself never sees a line (R98). Log 15 lists what the model fixes here. -/

namespace Sys2Proof.Machine

/-- What reading text gives: a value, a TraceFormatError, or no meaning (a line whose treatment the source does not give,
30_encoding.md R99). -/
inductive Parsed (α : Type) where
  | ok (value : α)
  | error (code : TraceError)
  | unspecified
  deriving DecidableEq, Repr

/-- The pieces of a line between single spaces; a run of spaces gives empty pieces. -/
def splitSpaces : List Char → List (List Char)
  | [] => [[]]
  | c :: cs =>
    match splitSpaces cs with
    | [] => [[c]]
    | f :: fs => if c = ' ' then [] :: f :: fs else (c :: f) :: fs

/-- The value of a hex digit `0-9`, `a-f`, `A-F` (30_encoding.md R99). -/
def hexDigit (c : Char) : Option Nat :=
  if 48 ≤ c.toNat ∧ c.toNat ≤ 57 then some (c.toNat - 48)
  else if 97 ≤ c.toNat ∧ c.toNat ≤ 102 then some (c.toNat - 87)
  else if 65 ≤ c.toNat ∧ c.toNat ≤ 70 then some (c.toNat - 55)
  else none

/-- The value of hex digits, most significant first, added to the value `acc` of those before them. -/
def hexValue (acc : Nat) : List Char → Option Nat
  | [] => some acc
  | c :: cs =>
    match hexDigit c with
    | some d => hexValue (16 * acc + d) cs
    | none => none

/-- The address field: exactly `0x`, then one to eight hex digits (30_encoding.md R99). TE2 for what is malformed
(60_exceptions.md R265: no `0x`, no digit, another character, a value above `0xFFFFFFFF`); no meaning for `0X` and for more
than eight digits with a value that fits (30_encoding.md R99). -/
def parseHex : List Char → Parsed Address
  | '0' :: 'x' :: ds =>
    match ds, hexValue 0 ds with
    | [], _ => .error .te2
    | _, none => .error .te2
    | _, some v =>
      if 2 ^ 32 ≤ v then .error .te2
      else if 8 < ds.length then .unspecified
      else .ok (BitVec.ofNat 32 v)
  | '0' :: 'X' :: _ => .unspecified
  | _ => .error .te2

/-- The op token: exactly `l` or `s` (30_encoding.md R97, R99). -/
def opKind (op : List Char) : Option Kind :=
  if op = ['l'] then some .load else if op = ['s'] then some .store else none

/-- The operation of a kind on an address (30_encoding.md R91). -/
def instrOf (k : Kind) (a : Address) : Instr :=
  match k with
  | .load => .load a
  | .store => .store a

/-- One line `<op> <hexaddress> [ignored]` (30_encoding.md R97, R99; 60_exceptions.md R265). -/
def parseLine (line : List Char) : Parsed Instr :=
  let pieces := splitSpaces line
  if line.contains '\t' || (pieces.head?.getD []).isEmpty || (pieces.getLast?.getD []).isEmpty then .unspecified
  else
    match pieces.filter (fun f => !f.isEmpty) with
    | [] => .unspecified
    | [op] => match opKind op with
      | none => .error .te1
      | some _ => .error .te3
    | op :: hex :: rest =>
      match opKind op, parseHex hex with
      | none, _ => .error .te1
      | some _, .error e => .error e
      | some _, .unspecified => .unspecified
      | some k, .ok a => if rest.length ≤ 1 then .ok (instrOf k a) else .unspecified

/-- A whole trace, read before anything runs (60_exceptions.md R270): its first line that is no request decides. -/
def parseTrace : List (List Char) → Parsed (List Instr)
  | [] => .ok []
  | line :: lines =>
    match parseLine line with
    | .error e => .error e
    | .unspecified => .unspecified
    | .ok i =>
      match parseTrace lines with
      | .ok is => .ok (i :: is)
      | .error e => .error e
      | .unspecified => .unspecified

/-- The character of a hex digit below 16. -/
def hexChar (d : Nat) : Char := if d < 10 then Char.ofNat (48 + d) else Char.ofNat (87 + d)

/-- The last `n` hex digits of a number, most significant first. -/
def hexChars : Nat → Nat → List Char
  | 0, _ => []
  | n + 1, v => hexChars n (v / 16) ++ [hexChar (v % 16)]

/-- The line of an operation in the text form, all eight digits written (30_encoding.md R97, R105). -/
def lineOf (i : Instr) : List Char :=
  (match i.kind with
    | .load => 'l'
    | .store => 's') :: ' ' :: '0' :: 'x' :: hexChars 8 i.address.toNat

end Sys2Proof.Machine
end

