-- ==== Sys2Proof/Machine/Environment.lean ====
section
/-! DEFINITION. What the environment does other than a request: changing CFG without reset, handing over a textual trace,
presenting a request word. Reset is `applyReset` of Machine/Ops.lean. -/

namespace Sys2Proof.Machine

/-- What the environment presents taken off the list: it is what this step serves. -/
def State.popped (s : State) (rest : List EnvEvent) : State := { s with pending := rest }

/-- The request port driven with what accompanies the request word (20_memory.md R75). -/
def State.latch (s : State) (sb : Sideband) : State := { s with req := sb }

/-- Driving the CFG port without reset: a change is refused (70_reset_and_hazards.md R298); the value CFG already holds is no
change (log 17). -/
def changeCfg (c : Cfg) (s : State) : Host.Outcome State Fault Refusal :=
  if c = s.cfg then .next s else .refused .cfgChangedWithoutReset

/-- A request as the environment presents it from a text line, which names no size and no data (30_encoding.md R97). -/
def textRequest (i : Instr) : EnvEvent := .request (encode i) Sideband.empty

/-- A textual trace handed over: read and checked completely first (60_exceptions.md R270), then its requests stand next in
line. A malformed trace prevents the whole run. With `cfg_error` asserted the trace is not looked at: the
ConfigurationError precedes (60_exceptions.md R268). An error is raised only before the first operation (00_scope.md R13):
while `opCounter` is 0. DESIGN CHOICE, log 20: a trace handed over later is lined up where it is well formed and refused
where it is not. DESIGN CHOICE, log 21: the error ends the run in a fault with no next state, so what stands behind the
trace is not served. -/
def loadTrace (lines : List (List Char)) (s : State) : Host.Outcome State Fault Refusal :=
  if s.cfgError.isSome then .refused .requestWhileCfgError
  else
    match parseTrace lines with
    | .ok is => .next { s with pending := is.map textRequest ++ s.pending }
    | .error e => if s.opCounter = 0#64 then .fault (.traceFormat e) else .refused .traceErrorAfterFirstOperation
    | .unspecified => .refused .traceLineUnspecified

/-- The side-band withFetchWord presents with a word: one byte of zero, which the source's own level ignores (log 5). -/
def Sideband.oneByte : Sideband := { size := 1, wdata := [0#8] }

/-- A request word presented next; a number that is no 33-bit word cannot be presented (log 18). -/
def State.present (s : State) (n : Nat) : State :=
  if n < 2 ^ 33 then { s with pending := .request (BitVec.ofNat 33 n) Sideband.oneByte :: s.pending } else s

end Sys2Proof.Machine
end

