-- ==== Sys2Proof/Machine/Step.lean ====
section
/-! DEFINITION. One step: what the environment presents next is served as one atomic transition (00_scope.md R6, R7;
30_encoding.md R110). -/

namespace Sys2Proof.Machine

/-- One step. With nothing presented the block "holds its state unchanged for any length of time" (60_exceptions.md R281)
and takes no action at the end of a run (44_operations.md R235). -/
def step (s : State) : Host.Outcome State Fault Refusal :=
  match s.pending with
  | [] => .next s
  | .reset c :: rest => applyReset c (s.popped rest)
  | .resetPacked w :: rest => applyReset (unpackCfg w) (s.popped rest)
  | .request w sb :: rest => exec (decodeReq w) ((s.popped rest).latch sb)
  | .changeCfg c :: rest => changeCfg c (s.popped rest)
  | .trace lines :: rest => loadTrace lines (s.popped rest)

/-- The request word `w` (bits from `nbits` on are 0) presented next: the block fetches nothing, it is handed its requests
(20_memory.md R87; log 4). -/
def State.withFetchWord (s : State) (nbits w : Nat) : State := s.present (w % 2 ^ nbits)

end Sys2Proof.Machine
end

