-- ==== Sys2Proof/Safety.lean ====
section
/-! DEFINITION. The terms claims use: when a request is served, the invariant of reachable states, the memory a requester
sees, the textbook orders that LRU and FIFO are held to, and the lines of the text form. -/

namespace Sys2Proof.Machine

/-! ### When a request is served -/

/-- A request the model does not refuse before it runs (60_exceptions.md R274): no ConfigurationError asserted, and in the
data extension a proper side-band inside one block (20_memory.md R75, R76). -/
abbrev Ready (k : Kind) (a : Address) (s : State) : Prop :=
  s.cfgError = none ∧ (s.params.dataArray = true → s.req.wf k = true ∧ a.toNat % s.cfg.bytes + s.req.size ≤ s.cfg.bytes)

/-- The counter an operation increments (44_operations.md R221). -/
def Stat.counter (k : Kind) (hit : Bool) (st : Stat) : Count :=
  match k, hit with
  | .load, true => st.loadHits
  | .load, false => st.loadMisses
  | .store, true => st.storeHits
  | .store, false => st.storeMisses

/-- The statistics after an operation of a given kind, outcome and cost (10_state.md R39, R40). -/
def Stat.after (k : Kind) (hit : Bool) (cost : Nat) (st : Stat) : Stat :=
  match k, hit with
  | .load, true => { st with loadHits := st.loadHits + 1#64, totalCycles := st.totalCycles + BitVec.ofNat 64 cost }
  | .load, false => { st with loadMisses := st.loadMisses + 1#64, totalCycles := st.totalCycles + BitVec.ofNat 64 cost }
  | .store, true => { st with storeHits := st.storeHits + 1#64, totalCycles := st.totalCycles + BitVec.ofNat 64 cost }
  | .store, false => { st with storeMisses := st.storeMisses + 1#64, totalCycles := st.totalCycles + BitVec.ofNat 64 cost }

/-- No counter passes `2^64 - 1` in an operation of that kind, outcome and cost (70_reset_and_hazards.md R309, premise P5). -/
abbrev CountersFit (k : Kind) (hit : Bool) (cost : Nat) (s : State) : Prop :=
  s.opCounter.toNat + 1 < 2 ^ 64 ∧ (s.stat.counter k hit).toNat + 1 < 2 ^ 64 ∧ s.stat.totalCycles.toNat + cost < 2 ^ 64

/-! ### Rows -/

/-- The occupied slots of a row, in slot order. -/
def occupiedSlots (row : List Slot) : List Slot := row.filter fun sl => sl.valid

/-- No occupied slot stands after a free one (10_state.md R32). -/
def occupiedFirst (row : List Slot) : Bool := (row.dropWhile fun sl => sl.valid).all fun sl => !sl.valid

/-- The tags a set holds, in slot order. -/
def heldTags (row : List Slot) : List Tag := (occupiedSlots row).map fun sl => sl.tag

/-- The ranks of a set's occupied slots, in slot order. -/
def ranks (row : List Slot) : List Nat := (occupiedSlots row).map fun sl => sl.accessSeq.toNat

/-- The slot an install takes in set `i` (44_operations.md R226, 41_cache_store.md R143). -/
def installSlot (s : State) (i : Nat) : Nat :=
  if s.cfg.ways = 1 then 0
  else if occupied (s.row i) < s.cfg.ways then occupied (s.row i)
  else if s.cfg.evictionPolicy = .lru then victimLru (s.row i)
  else victimFifo (s.row i)

/-- The slot an install in set `i` overwrites, as it stands before. -/
def State.victim (s : State) (i : Nat) : Slot := s.slot i (installSlot s i)

/-- "Dirty victim": the slot overwritten is occupied and dirty, and the policy is write-back (20_memory.md R68, R70). -/
def State.victimDirty (s : State) (i : Nat) : Bool := (s.victim i).valid && (s.victim i).dirty && !s.cfg.writeThrough

/-- Memory once a dirty victim has been written back (20_memory.md R78). -/
def State.memAfterEviction (s : State) (i : Nat) : List Host.Cell :=
  if s.params.dataArray && s.victimDirty i then
    Memory.writeBytes s.mem (recompose s.cfg (s.victim i).tag i) (s.victim i).data
  else s.mem

/-- The WRITEBACK event of a miss that installs, if any (20_memory.md R68). -/
def State.writebackEvents (s : State) (i : Nat) : List MemEvent :=
  if s.victimDirty i then [.writeback (recompose s.cfg (s.victim i).tag i)] else []

/-- The cost of a miss that installs: the fetch and the install, and the write-back of a dirty victim
(43_cycle_accountant.md R202, R205, R207). -/
def State.missCost (s : State) (i : Nat) : Nat :=
  (if s.victimDirty i then s.params.cost.perByte * s.cfg.bytes else 0) +
    (s.params.cost.perByte * s.cfg.bytes + s.params.cost.access)

/-- The slots of set `i` other than the one an install takes, after the install: on the LRU path every other block is one
rank older, and nothing else changes (42_eviction_policy.md R172, 41_cache_store.md R152). -/
abbrev OthersAged (s t : State) (i w : Nat) : Prop :=
  (∀ j < s.cfg.ways, j ≠ w → t.slot i j =
      (if lruActive s.cfg && (s.slot i j).valid then (s.slot i j).aged else s.slot i j)) ∧
    ∀ j, j ≠ i → t.row j = s.row j

/-! ### The invariant of reachable states -/

/-- What holds of each occupied slot of set `i`: the tag fits `tagBits` (40_address_decoder.md R123), nothing is dirty under
write-through (10_state.md R30), outside the LRU path the rank stays 0 (R31), the data row has its length (R28), and a clean
row equals memory at its block (20_memory.md R83). -/
abbrev SlotOk (s : State) (i : Nat) (sl : Slot) : Prop :=
  sl.valid = true →
    sl.tag.toNat < 2 ^ s.cfg.tagBits ∧
    (s.cfg.writeThrough = true → sl.dirty = false) ∧
    (lruActive s.cfg = false → sl.accessSeq = 0#32) ∧
    sl.data.length = (if s.params.dataArray then s.cfg.bytes else 0) ∧
    (s.params.dataArray = true → sl.dirty = false →
      sl.data = Memory.readBytes s.mem (recompose s.cfg sl.tag i) s.cfg.bytes)

/-- What holds of the row of set `i`: one slot for each way (10_state.md R26), the occupied ones first (R32), no tag twice
(R33), and on the LRU path the ranks are `0 .. n_s - 1`, each once (R34). -/
abbrev RowOk (s : State) (i : Nat) (row : List Slot) : Prop :=
  i < s.cfg.sets ∧
  row.length = s.cfg.ways ∧
  occupiedFirst row = true ∧
  (heldTags row).Nodup ∧
  (lruActive s.cfg = true → (ranks row).Perm (List.range (occupied row))) ∧
  ∀ sl ∈ row, SlotOk s i sl

/-- The invariant of reachable states. -/
structure Inv (s : State) : Prop where
  /-- `cfg_error` shows what the check of CFG reports (70_reset_and_hazards.md R295) -/
  checked : s.cfgError = configError s.cfg
  /-- a CFG in use lies within the bounds (00_scope.md R9) -/
  bounded : s.cfgError = none → inBounds s.cfg = true
  /-- while an error is asserted the slot array stays as reset left it (60_exceptions.md R269) -/
  idleOnError : s.cfgError ≠ none → s.rows = [] ∧ s.opCounter = 0#64 ∧ s.stat = Stat.zero
  /-- the slot array is in its canonical form -/
  rowsCanonical : Sparse.wf (freeRow s.cfg) s.rows = true
  /-- each listed row is as the rules of 10_state.md say; a row not listed is all free -/
  rowsOk : ∀ e ∈ s.rows, RowOk s e.1 e.2
  /-- the memory is in its canonical form -/
  memCanonical : Memory.wf s.mem = true
  /-- `opCounter` is the sum of the four hit and miss counters (10_state.md R37), where no counter may wrap or saturate -/
  counted : s.params.onOverflow = .refuse →
    s.opCounter.toNat =
      s.stat.loadHits.toNat + s.stat.loadMisses.toNat + s.stat.storeHits.toNat + s.stat.storeMisses.toNat

/-- While fewer than `2^32` operations have run, the `loadSeq` of a set's blocks are distinct and below `opCounter`
(42_eviction_policy.md R177). -/
abbrev LoadSeqFresh (s : State) : Prop :=
  s.opCounter.toNat ≤ 2 ^ 32 → ∀ e ∈ s.rows,
    ((occupiedSlots e.2).map fun sl => sl.loadSeq).Nodup ∧
    ∀ sl ∈ occupiedSlots e.2, sl.loadSeq.toNat < s.opCounter.toNat

/-! ### The memory a requester sees -/

/-- The byte a requester sees at an address: that of the cached block, or memory's where the block is not cached
(20_memory.md R83). -/
def State.byteAt (s : State) (x : Address) : Byte :=
  let d := decodeAddress s.cfg x
  match lookup (s.row d.index) d.tag with
  | some w => (s.slot d.index w).data.getD d.offset 0#8
  | none => Memory.read s.mem x

/-- What the requests served so far, oldest first, have stored at an address: the byte of the latest STORE that covers it, or
`m0`'s byte if there is none (20_memory.md R83). -/
def latestStored (m0 : Address → Byte) (earlier : List (Instr × Sideband)) (x : Address) : Byte :=
  earlier.foldl (fun b r =>
    match r.1 with
    | .load _ => b
    | .store a => if (x - a).toNat < r.2.size then r.2.wdata.getD (x - a).toNat 0#8 else b) (m0 x)

/-- Requests as the environment presents them. -/
def requestsOf (rs : List (Instr × Sideband)) : List EnvEvent := rs.map fun r => .request (encode r.1) r.2

/-! ### The textbook replacement orders -/

/-- `order` lists the tags of a row's blocks by ascending `key`. -/
def OrderedBy (key : Slot → Seq) (row : List Slot) (order : List Tag) : Prop :=
  ∃ l : List Slot, l.Perm (occupiedSlots row) ∧ (l.map fun sl => sl.tag) = order ∧
    l.Pairwise fun x y => key x < key y

/-- Least recently used on tags, most recent first: the accessed tag comes to the front, and where the set holds more than
`ways` the last one leaves. -/
def textbookLru (ways : Nat) (order : List Tag) (t : Tag) : List Tag := (t :: order.erase t).take ways

/-- First in first out on tags, oldest first: a tag not held joins at the end, and where the set holds more than `ways` the
first one leaves; a tag held changes nothing. -/
def textbookFifo (ways : Nat) (order : List Tag) (t : Tag) : List Tag :=
  if t ∈ order then order else (order ++ [t]).drop (order.length + 1 - ways)

/-! ### Lines of text -/

/-- A field of a text line: characters other than a space and a tab, at least one (30_encoding.md R99). -/
abbrev IsField (f : List Char) : Prop := f ≠ [] ∧ ' ' ∉ f ∧ '\t' ∉ f

/-- The line of a first field and further ones, "separated by one or more spaces" (30_encoding.md R99): each further field
with how many spaces beyond one stand before it. -/
def fieldsLine (first : List Char) (rest : List (Nat × List Char)) : List Char :=
  first ++ rest.flatMap fun g => List.replicate (g.1 + 1) ' ' ++ g.2

/-! ### Free slots -/

/-- Two slots that agree in `valid`, and in everything where occupied (10_state.md R46). -/
def sameWhereOccupied (a b : Slot) : Prop := a.valid = b.valid ∧ (a.valid = true → a = b)

/-- Two states that differ at most in the unspecified fields of free slots (10_state.md R46). -/
def AgreeOnOccupied (s s' : State) : Prop :=
  s' = { s with rows := s'.rows } ∧ ∀ i, List.Forall₂ sameWhereOccupied (s.row i) (s'.row i)

end Sys2Proof.Machine
end

