-- ==== Sys2Proof/Certificates/Slice0/Obligations.lean ====
section
/-! DEFINITION. The statements about the cache array. Each docstring names the rule of spec/ it formalises. -/

open Sys2Proof Sys2Proof.Machine

/-! ### Encodings (spec/30_encoding.md) -/

/-- The request words of 95_test_vectors.md section 7.1 and of R93 decode to the operations they are written for. -/
def Obligations.RequestWordsDecodeAsWritten : Prop :=
  decodeReq 0x000000008#33 = .load 0x00000008#32 ∧
  decodeReq 0x000000104#33 = .load 0x00000104#32 ∧
  decodeReq 0x0FFFFFFFF#33 = .load 0xFFFFFFFF#32 ∧
  decodeReq 0x1DEADBEEF#33 = .store 0xDEADBEEF#32 ∧
  decodeReq 0x1FFFFFFFF#33 = .store 0xFFFFFFFF#32 ∧
  decodeReq 0x100000000#33 = .store 0x00000000#32

/-- Encoding and decoding of REQ are inverse to each other, for every operation and for every 33-bit word (R93, R95). -/
def Obligations.RequestEncodingRoundTrip : Prop :=
  (∀ i : Instr, decodeReq (encode i) = i) ∧ ∀ w : ReqWord, encode (decodeReq w) = w

/-- R94: the opcode is bit 32; the two match and mask patterns are disjoint and together cover all words. -/
def Obligations.OpcodePatternsSplitAllWords : Prop :=
  ∀ w : ReqWord,
    (w &&& 0x100000000#33 = 0x000000000#33 ↔ ∃ a, decodeReq w = .load a) ∧
    (w &&& 0x100000000#33 = 0x100000000#33 ↔ ∃ a, decodeReq w = .store a) ∧
    (w &&& 0x100000000#33 = 0x000000000#33 ∨ w &&& 0x100000000#33 = 0x100000000#33) ∧
    ¬(w &&& 0x100000000#33 = 0x000000000#33 ∧ w &&& 0x100000000#33 = 0x100000000#33)

/-- The packed CFG (R100): every word unpacks to a CFG that packs to it again; every CFG whose dimensions are powers of two
with exponents below 32 packs to a word that unpacks to it, but for one with an invalid token, for which R100 has no code. -/
def Obligations.PackedConfigRoundTrip : Prop :=
  (∀ w : BitVec 19, packCfg (unpackCfg w) = some w) ∧
  ∀ c : Cfg, (∃ e < 32, c.numSets = 2 ^ e) → (∃ e < 32, c.numBlocksPerSet = 2 ^ e) → (∃ e < 32, c.blockSize = 2 ^ e) →
    (c.evictionPolicy ≠ .invalid → ∃ w, packCfg c = some w ∧ unpackCfg w = c) ∧
    (c.evictionPolicy = .invalid → packCfg c = none)

/-- The 34-bit word of a memory event (R104): kind in bits 33:32, address in bits 31:0, read back as it was, and kind 3
stands for no event. -/
def Obligations.MemoryEventWords : Prop :=
  (∀ b : Address, (MemEvent.fill b).toWord.extractLsb' 32 2 = 0#2 ∧ (MemEvent.fill b).toWord.extractLsb' 0 32 = b) ∧
  (∀ b : Address,
    (MemEvent.writeback b).toWord.extractLsb' 32 2 = 1#2 ∧ (MemEvent.writeback b).toWord.extractLsb' 0 32 = b) ∧
  (∀ a : Address, (MemEvent.write a).toWord.extractLsb' 32 2 = 2#2 ∧ (MemEvent.write a).toWord.extractLsb' 0 32 = a) ∧
  (∀ e : MemEvent, eventOfWord e.toWord = some e) ∧
  ∀ w : BitVec 34, w.extractLsb' 32 2 = 3#2 → eventOfWord w = none

/-- The text form (R97): the line written for an operation reads back as it, and a third field, when present, is ignored. -/
def Obligations.TextLineRoundTrip : Prop :=
  ∀ i : Instr, parseLine (lineOf i) = .ok i ∧
    ∀ field : List Char, field ≠ [] → ' ' ∉ field → '\t' ∉ field → parseLine (lineOf i ++ ' ' :: field) = .ok i

/-! ### The address decoder (spec/40_address_decoder.md) -/

/-- R120 in plain arithmetic, for every legal CFG: the offset is the address modulo the block size, the index the block
number modulo the sets, the tag the rest. -/
def Obligations.DecodeAddressFields : Prop :=
  ∀ (c : Cfg) (a : Address), legalCfg c = true →
    (decodeAddress c a).offset = a.toNat % c.bytes ∧
    (decodeAddress c a).index = a.toNat / c.bytes % c.sets ∧
    (decodeAddress c a).tag.toNat = a.toNat / (c.bytes * c.sets)

/-- R123: the ranges of offset, index and tag. -/
def Obligations.DecodeAddressRanges : Prop :=
  ∀ (c : Cfg) (a : Address), legalCfg c = true →
    (decodeAddress c a).offset < c.bytes ∧ (decodeAddress c a).index < c.sets ∧
    (decodeAddress c a).tag.toNat < 2 ^ c.tagBits ∧ c.tagBits = 32 - c.offsetBits - c.indexBits ∧
    ∀ k, c.tagBits ≤ k → (decodeAddress c a).tag.getLsbD k = false

/-- R124: the address is recomposed from its parts, the block base from tag and index; the map from block bases to pairs
`(index, tag)` is a bijection; two addresses are in one block exactly when they have the same pair. -/
def Obligations.DecodeAddressRecomposes : Prop :=
  ∀ c : Cfg, legalCfg c = true →
    (∀ a : Address,
      a.toNat = ((decodeAddress c a).tag.toNat <<< (c.offsetBits + c.indexBits) |||
        (decodeAddress c a).index <<< c.offsetBits) ||| (decodeAddress c a).offset ∧
      (blockBase c a).toNat = (decodeAddress c a).tag.toNat <<< (c.offsetBits + c.indexBits) |||
        (decodeAddress c a).index <<< c.offsetBits ∧
      recompose c (decodeAddress c a).tag (decodeAddress c a).index = blockBase c a ∧
      (blockBase c a).toNat = a.toNat - a.toNat % c.bytes) ∧
    (∀ (t : Tag) (i : Nat), t.toNat < 2 ^ c.tagBits → i < c.sets →
      decodeAddress c (recompose c t i) = { tag := t, index := i, offset := 0 } ∧
      blockBase c (recompose c t i) = recompose c t i) ∧
    ∀ a b : Address, blockBase c a = blockBase c b ↔
      (decodeAddress c a).index = (decodeAddress c b).index ∧ (decodeAddress c a).tag = (decodeAddress c b).tag

/-- R126, its five corner cases (a) to (e). -/
def Obligations.DecodeAddressCorners : Prop :=
  ∀ c : Cfg, legalCfg c = true →
    decodeAddress c 0x00000000#32 = { tag := 0#32, index := 0, offset := 0 } ∧
    ((decodeAddress c 0xFFFFFFFF#32).offset = c.bytes - 1 ∧ (decodeAddress c 0xFFFFFFFF#32).index = c.sets - 1 ∧
      (decodeAddress c 0xFFFFFFFF#32).tag.toNat = 2 ^ c.tagBits - 1) ∧
    (c.blockSize = 4 → c.numSets = 1 →
      c.tagBits = 30 ∧ ∀ a : Address, (decodeAddress c a).tag.toNat = a.toNat >>> 2) ∧
    (c.offsetBits + c.indexBits = 31 → ∀ a : Address, (decodeAddress c a).tag.toNat = (a.getLsbD 31).toNat) ∧
    ∀ a b : Address, a.toNat / c.bytes = b.toNat / c.bytes →
      (decodeAddress c a).tag = (decodeAddress c b).tag ∧ (decodeAddress c a).index = (decodeAddress c b).index ∧
      blockBase c a = blockBase c b

/-- R121: one set. That the block size is a power of two within the first bound of 00_scope.md R9 is a premise: of no other
number is `log2` defined (00_scope.md R12), and "A model must not assume" what DECODE yields beyond the bound (R127). -/
def Obligations.OneSetDecode : Prop :=
  ∀ (c : Cfg) (a : Address) (e : Nat), c.blockSize = 2 ^ e → e ≤ 31 → c.numSets = 1 →
    c.offsetBits = e ∧ (decodeAddress c a).index = 0 ∧ (decodeAddress c a).tag.toNat = a.toNat >>> c.offsetBits

/-! ### Configuration and reset (spec/60_exceptions.md, spec/70_reset_and_hazards.md) -/

/-- The codes of ConfigurationError on the abstract and on the packed CFG, the lowest that applies being reported (R262,
R267). The packed `policy = 3` is CE6 whatever the ways: 30_encoding.md R101 and 93_implementation_defined.md U14 against the
packed column of R262 (DEDUCED, log 9). -/
def Obligations.ConfigurationErrorCodes : Prop :=
  (∀ c : Cfg,
    ((¬∃ e : Nat, c.numSets = 2 ^ e) → configError c = some .ce1) ∧
    ((∃ e : Nat, c.numSets = 2 ^ e) →
      ((¬∃ e : Nat, c.numBlocksPerSet = 2 ^ e) → configError c = some .ce2) ∧
      ((∃ e : Nat, c.numBlocksPerSet = 2 ^ e) →
        ((¬∃ e : Nat, c.blockSize = 2 ^ e) → configError c = some .ce3) ∧
        ((∃ e : Nat, c.blockSize = 2 ^ e) → configError c =
          (if c.blockSize = 1 ∨ c.blockSize = 2 then some .ce4
           else if c.writeAllocate = false ∧ c.writeThrough = false then some .ce5
           else if c.evictionPolicy = .reserved ∨
             1 < c.numBlocksPerSet ∧ ¬(c.evictionPolicy = .lru ∨ c.evictionPolicy = .fifo) then some .ce6
           else none))))) ∧
  ∀ w : BitVec 19, configError (unpackCfg w) =
    (if (w.extractLsb' 0 5).toNat < 2 then some .ce4
     else if w.getLsbD 15 = false ∧ w.getLsbD 16 = false then some .ce5
     else if (w.extractLsb' 17 2).toNat = 3 ∨ (w.extractLsb' 17 2).toNat = 0 ∧ 0 < (w.extractLsb' 10 5).toNat then
       some .ce6
     else none)

/-- R263: configurations that are no errors, among them one way with None, LRU or FIFO, one set, a one-block cache and the
smallest block; and the three write-policy pairs are the only legal ones. That one way is no error with an invalid token of
the abstract CFG either is R262's; the packed code 3 is left out as an error (DEDUCED, log 9). -/
def Obligations.LegalConfigurationsAccepted : Prop :=
  (∀ c : Cfg, (∃ e : Nat, c.numSets = 2 ^ e) → (∃ e : Nat, 2 ≤ e ∧ c.blockSize = 2 ^ e) →
    (c.numBlocksPerSet = 1 ∧ c.evictionPolicy ≠ .reserved ∨
      (∃ e : Nat, c.numBlocksPerSet = 2 ^ e) ∧ (c.evictionPolicy = .lru ∨ c.evictionPolicy = .fifo)) →
    ((c.writeAllocate = true ∧ c.writeThrough = false) ∨ (c.writeAllocate = true ∧ c.writeThrough = true) ∨
      (c.writeAllocate = false ∧ c.writeThrough = true)) →
    configError c = none) ∧
  ∀ c : Cfg, configError c = none →
    (c.writeAllocate = true ∧ c.writeThrough = false) ∨ (c.writeAllocate = true ∧ c.writeThrough = true) ∨
      (c.writeAllocate = false ∧ c.writeThrough = true)

/-- The state after reset (10_state.md R45): no slot occupied, every counter 0, no error. Its CFG and its empty memory are
the model's choices (log 1, log 3). -/
def Obligations.ResetStateIsEmpty : Prop :=
  (∀ i w, (State.reset.slot i w).valid = false) ∧ State.reset.opCounter = 0#64 ∧
  State.reset.stat = { loadHits := 0#64, loadMisses := 0#64, storeHits := 0#64, storeMisses := 0#64, totalCycles := 0#64 } ∧
  State.reset.cfg = Config.resetCfg ∧ legalCfg Config.resetCfg = true ∧ State.reset.cfgError = none ∧
  ∀ x : Address, Memory.read State.reset.mem x = 0#8

/-- R291 and R293: a reset with a legal CFG, abstract or packed, empties the cache and the counters and takes the CFG; it
emits no event, charges nothing and writes nothing back, so that what stores left in dirty blocks is lost. The model's
choices in it: the ports are cleared (`outcome`, log 16), memory stays as it is (log 3), the parameters stay (log 6), and
what else is presented stays in line (log 4). -/
def Obligations.ResetEmptiesTheCache : Prop :=
  ∀ (c : Cfg) (s : State) (rest : List EnvEvent), legalCfg c = true →
    (s.pending = .reset c :: rest ∨ ∃ w, s.pending = .resetPacked w :: rest ∧ c = unpackCfg w) →
    ∃ t, step s = .next t ∧ (∀ i w, (t.slot i w).valid = false) ∧ t.opCounter = 0#64 ∧ t.stat = Stat.zero ∧ t.cfg = c ∧
      t.cfgError = none ∧ t.outcome = none ∧ t.mem = s.mem ∧ (∀ x, t.byteAt x = Memory.read s.mem x) ∧
      t.params = s.params ∧ t.pending = rest

/-- A reset with an illegal CFG, abstract or packed, asserts `cfg_error` with the code and leaves the slot array, `opCounter`
and STAT at their reset values and CFG as presented, with no snapshot to present (60_exceptions.md R269,
70_reset_and_hazards.md R291, R295); from then on every request is refused (60_exceptions.md R274). The model's choices in
it: a ConfigurationError is a next state (log 11), memory stays as it is (log 3), what else is presented stays in line
(log 4), and a trace handed over is refused by the name a request is (log 15). -/
def Obligations.IllegalConfigurationIsReported : Prop :=
  (∀ (c : Cfg) (e : ConfigError) (s : State) (rest : List EnvEvent), configError c = some e →
    (s.pending = .reset c :: rest ∨ ∃ w, s.pending = .resetPacked w :: rest ∧ c = unpackCfg w) →
    ∃ t, step s = .next t ∧ t.cfgError = some e ∧ t.cfg = c ∧ (∀ i w, (t.slot i w).valid = false) ∧
      t.opCounter = 0#64 ∧ t.stat = Stat.zero ∧ t.snapshot = none ∧ t.mem = s.mem ∧ t.pending = rest) ∧
  ∀ (e : ConfigError) (s : State), s.cfgError = some e →
    (∀ i : Instr, exec i s = .refused .requestWhileCfgError) ∧
    ∀ lines rest, s.pending = .trace lines :: rest → step s = .refused .requestWhileCfgError

/-- 00_scope.md R9: a reset with a CFG, abstract or packed, that is no ConfigurationError but breaks a bound is refused. -/
def Obligations.OutOfBoundsConfigurationRefused : Prop :=
  ∀ (c : Cfg) (s : State) (rest : List EnvEvent), configError c = none →
    (31 < c.offsetBits + c.indexBits ∨ 2 ^ 31 < c.ways) →
    (s.pending = .reset c :: rest ∨ ∃ w, s.pending = .resetPacked w :: rest ∧ c = unpackCfg w) →
    step s = .refused .cfgOutOfBounds

/-- R298: CFG stays constant between resets; a change without reset is refused, and no request changes CFG. -/
def Obligations.ConfigurationChangeRefused : Prop :=
  (∀ (c : Cfg) (s : State) (rest : List EnvEvent), s.pending = .changeCfg c :: rest → c ≠ s.cfg →
    step s = .refused .cfgChangedWithoutReset) ∧
  ∀ s t : State, step s = .next t → (∀ c rest, s.pending ≠ .reset c :: rest) →
    (∀ w rest, s.pending ≠ .resetPacked w :: rest) → t.cfg = s.cfg

/-- R270: a TraceFormatError anywhere in a trace prevents the whole run; `TextLineOutcomes` says which lines are one. A trace
whose lines all read as requests is lined up whole, in order. The model's choices in it: the error is a fault with no next
state, whatever stands behind the trace (log 21); after an operation has been performed a malformed trace is refused instead,
and a well-formed one lined up as before (log 20); the first line that is no request decides the code, and requests from
text carry no side-band (log 15); they stand in line ahead of what else is presented (log 4). -/
def Obligations.BadLineStopsTheWholeTrace : Prop :=
  ∀ (s : State) (lines : List (List Char)) (rest : List EnvEvent), s.cfgError = none → s.pending = .trace lines :: rest →
    (∀ line e, line ∈ lines → parseLine line = .error e → ∀ t, step s ≠ .next t) ∧
    (∀ before line after e, lines = before ++ line :: after → (∀ x ∈ before, ∃ i, parseLine x = .ok i) →
      parseLine line = .error e →
      step s = if s.opCounter = 0#64 then .fault (.traceFormat e) else .refused .traceErrorAfterFirstOperation) ∧
    ∀ is : List Instr, List.Forall₂ (fun line i => parseLine line = .ok i) lines is →
      step s = .next { s with pending := (is.map fun i => EnvEvent.request (encode i) Sideband.empty) ++ rest }

/-! ### The step -/

/-- A step serves the request presented next: it is `exec` of the decoded operation, with that request taken off the list and
its side-band on the port; with nothing presented the state stays as it is (30_encoding.md R110, 60_exceptions.md R281). The
model's choices in it: the list of what is presented, and withFetchWord putting its word at the head of it (log 4), with one
byte of zero on the port (log 5), and the ports keeping their values while idle (log 16). -/
def Obligations.StepServesThePresentedRequest : Prop :=
  (∀ (s : State) (w : ReqWord) (sb : Sideband) (rest : List EnvEvent), s.pending = .request w sb :: rest →
    step s = exec (decodeReq w) { s with pending := rest, req := sb }) ∧
  (∀ (s : State) (i : Instr) (sb : Sideband) (rest : List EnvEvent), s.pending = .request (encode i) sb :: rest →
    step s = exec i { s with pending := rest, req := sb }) ∧
  (∀ (s : State) (i : Instr) (nbits : Nat), 33 ≤ nbits →
    step (s.withFetchWord nbits (encode i).toNat) = exec i { s with req := { size := 1, wdata := [0#8] } }) ∧
  ∀ s : State, s.pending = [] → step s = .next s

/-! ### LOAD and STORE (spec/44_operations.md) -/

/-- A LOAD that hits (R227, R225, 43_cycle_accountant.md R201): it completes, and this is the whole next state. -/
def Obligations.LoadHitResult : Prop :=
  ∀ (a : Address) (s : State) (w : Nat), Inv s → Ready .load a s →
    lookup (s.row (decodeAddress s.cfg a).index) (decodeAddress s.cfg a).tag = some w →
    CountersFit .load true s.params.cost.access s →
    ∃ t, exec (.load a) s = .next t ∧
      t = { s with
        rows := t.rows
        opCounter := s.opCounter + 1#64
        stat := s.stat.after .load true s.params.cost.access
        resp := some {
          hit := true
          rdata :=
            if s.params.dataArray then
              some (((s.slot (decodeAddress s.cfg a).index w).data.drop (decodeAddress s.cfg a).offset).take s.req.size)
            else none }
        outcome := some {
          set := (decodeAddress s.cfg a).index, tag := (decodeAddress s.cfg a).tag, hit := true, slot := some w
          victimTag := none, wroteBack := false, cost := s.params.cost.access
          events := [] } } ∧
      t.row (decodeAddress s.cfg a).index =
        (if lruActive s.cfg then touchRow (s.row (decodeAddress s.cfg a).index) w
         else s.row (decodeAddress s.cfg a).index) ∧
      ∀ j, j ≠ (decodeAddress s.cfg a).index → t.row j = s.row j

/-- A LOAD that misses (R227, R226; 43_cycle_accountant.md R202, R207): it completes, the block is installed clean in the
slot ALLOCATE takes, the other blocks of the set age on the LRU path, and this is the whole next state. -/
def Obligations.LoadMissResult : Prop :=
  ∀ (a : Address) (s : State) (d : Decoded) (w : Nat), Inv s → Ready .load a s → d = decodeAddress s.cfg a →
    w = installSlot s d.index → lookup (s.row d.index) d.tag = none →
    CountersFit .load false (s.missCost d.index) s →
    ∃ t, exec (.load a) s = .next t ∧
      t = { s with
        rows := t.rows
        mem := s.memAfterEviction d.index
        opCounter := s.opCounter + 1#64
        stat := s.stat.after .load false (s.missCost d.index)
        resp := some {
          hit := false
          rdata :=
            if s.params.dataArray then
              some (((Memory.readBytes (s.memAfterEviction d.index) (blockBase s.cfg a) s.cfg.bytes).drop d.offset).take
                s.req.size)
            else none }
        outcome := some {
          set := d.index, tag := d.tag, hit := false, slot := some w
          victimTag := if (s.victim d.index).valid then some (s.victim d.index).tag else none
          wroteBack := s.victimDirty d.index, cost := s.missCost d.index
          events := s.writebackEvents d.index ++ [.fill (blockBase s.cfg a)] } } ∧
      w < s.cfg.ways ∧
      t.slot d.index w =
        { valid := true, dirty := false, tag := d.tag, loadSeq := s.opCounter.setWidth 32, accessSeq := 0#32,
          data := if s.params.dataArray then
            Memory.readBytes (s.memAfterEviction d.index) (blockBase s.cfg a) s.cfg.bytes else [] } ∧
      OthersAged s t d.index w

/-- A STORE that hits under write-back (R228, R231, R232; 43_cycle_accountant.md R204): it completes, the slot is dirty and
holds the datum, recency is refreshed as by a LOAD, memory is untouched, and this is the whole next state. -/
def Obligations.StoreHitWriteBackResult : Prop :=
  ∀ (a : Address) (s : State) (d : Decoded) (w : Nat), Inv s → Ready .store a s → d = decodeAddress s.cfg a →
    s.cfg.writeThrough = false → lookup (s.row d.index) d.tag = some w →
    CountersFit .store true s.params.cost.access s →
    ∃ t, exec (.store a) s = .next t ∧
      t = { s with
        rows := t.rows
        opCounter := s.opCounter + 1#64
        stat := s.stat.after .store true s.params.cost.access
        resp := some { hit := true, rdata := none }
        outcome := some {
          set := d.index, tag := d.tag, hit := true, slot := some w, victimTag := none, wroteBack := false
          cost := s.params.cost.access
          events := [] } } ∧
      t.slot d.index w =
        { s.slot d.index w with
          dirty := true
          accessSeq := if lruActive s.cfg then 0#32 else (s.slot d.index w).accessSeq
          data := if s.params.dataArray then putBytes (s.slot d.index w).data d.offset s.req.wdata
            else (s.slot d.index w).data } ∧
      (∀ j < s.cfg.ways, j ≠ w → t.slot d.index j =
        slotAt (if lruActive s.cfg then touchRow (s.row d.index) w else s.row d.index) j) ∧
      ∀ j, j ≠ d.index → t.row j = s.row j

/-- A STORE that hits under write-through (R228, R232; 43_cycle_accountant.md R203): it completes, `dirty` stays as it was,
the datum goes to the slot and to memory, and this is the whole next state. -/
def Obligations.StoreHitWriteThroughResult : Prop :=
  ∀ (a : Address) (s : State) (d : Decoded) (w : Nat), Inv s → Ready .store a s → d = decodeAddress s.cfg a →
    s.cfg.writeThrough = true → lookup (s.row d.index) d.tag = some w →
    CountersFit .store true (s.params.cost.memWrite + s.params.cost.access) s →
    ∃ t, exec (.store a) s = .next t ∧
      t = { s with
        rows := t.rows
        mem := if s.params.dataArray then Memory.writeBytes s.mem a s.req.wdata else s.mem
        opCounter := s.opCounter + 1#64
        stat := s.stat.after .store true (s.params.cost.memWrite + s.params.cost.access)
        resp := some { hit := true, rdata := none }
        outcome := some {
          set := d.index, tag := d.tag, hit := true, slot := some w, victimTag := none, wroteBack := false
          cost := s.params.cost.memWrite + s.params.cost.access
          events := [.write a] } } ∧
      t.slot d.index w =
        { s.slot d.index w with
          accessSeq := if lruActive s.cfg then 0#32 else (s.slot d.index w).accessSeq
          data := if s.params.dataArray then putBytes (s.slot d.index w).data d.offset s.req.wdata
            else (s.slot d.index w).data } ∧
      (∀ j < s.cfg.ways, j ≠ w → t.slot d.index j =
        slotAt (if lruActive s.cfg then touchRow (s.row d.index) w else s.row d.index) j) ∧
      ∀ j, j ≠ d.index → t.row j = s.row j

/-- A STORE that misses with write-allocate, under either write policy (R228, R230; 43_cycle_accountant.md R205, R207): it
completes, the block is installed, dirty exactly under write-back, holding the datum; under write-through the datum also goes
to memory, uncharged; and this is the whole next state. -/
def Obligations.StoreMissAllocateResult : Prop :=
  ∀ (a : Address) (s : State) (d : Decoded) (w : Nat), Inv s → Ready .store a s → d = decodeAddress s.cfg a →
    w = installSlot s d.index → s.cfg.writeAllocate = true → lookup (s.row d.index) d.tag = none →
    CountersFit .store false (s.missCost d.index) s →
    ∃ t, exec (.store a) s = .next t ∧
      t = { s with
        rows := t.rows
        mem := if s.params.dataArray && s.cfg.writeThrough then
          Memory.writeBytes (s.memAfterEviction d.index) a s.req.wdata else s.memAfterEviction d.index
        opCounter := s.opCounter + 1#64
        stat := s.stat.after .store false (s.missCost d.index)
        resp := some { hit := false, rdata := none }
        outcome := some {
          set := d.index, tag := d.tag, hit := false, slot := some w
          victimTag := if (s.victim d.index).valid then some (s.victim d.index).tag else none
          wroteBack := s.victimDirty d.index, cost := s.missCost d.index
          events := s.writebackEvents d.index ++ [.fill (blockBase s.cfg a)] ++
            (if s.cfg.writeThrough then [.write a] else []) } } ∧
      w < s.cfg.ways ∧
      t.slot d.index w =
        { valid := true, dirty := !s.cfg.writeThrough, tag := d.tag, loadSeq := s.opCounter.setWidth 32,
          accessSeq := 0#32,
          data := if s.params.dataArray then
            putBytes (Memory.readBytes (s.memAfterEviction d.index) (blockBase s.cfg a) s.cfg.bytes) d.offset s.req.wdata
            else [] } ∧
      OthersAged s t d.index w

/-- R229 and 43_cycle_accountant.md R206: a STORE that misses without write-allocate completes with no slot of any set
changed; 100 is charged, `storeMisses` and `opCounter` advance, the datum goes to memory, and this is the whole next state. -/
def Obligations.StoreMissDirectResult : Prop :=
  ∀ (a : Address) (s : State) (d : Decoded), Inv s → Ready .store a s → d = decodeAddress s.cfg a →
    s.cfg.writeAllocate = false → lookup (s.row d.index) d.tag = none →
    CountersFit .store false s.params.cost.memWrite s →
    s.cfg.writeThrough = true ∧
    exec (.store a) s = .next { s with
      mem := if s.params.dataArray then Memory.writeBytes s.mem a s.req.wdata else s.mem
      opCounter := s.opCounter + 1#64
      stat := s.stat.after .store false s.params.cost.memWrite
      resp := some { hit := false, rdata := none }
      outcome := some {
        set := d.index, tag := d.tag, hit := false, slot := none, victimTag := none, wroteBack := false
        cost := s.params.cost.memWrite
        events := [.write a] } }

/-- R261: LOAD and STORE raise no fault in any state, and in every state of the invariant a request that is not refused has
its outcome, for any address, where no counter can pass `2^64 - 1`. -/
def Obligations.RequestsComplete : Prop :=
  (∀ (i : Instr) (s : State) (f : Fault), exec i s ≠ .fault f) ∧
  ∀ (i : Instr) (s : State), Inv s → Ready i.kind i.address s →
    (∀ k hit, CountersFit k hit
      (2 * (s.params.cost.perByte * s.cfg.bytes) + s.params.cost.memWrite + s.params.cost.access) s) →
    ∃ t r, exec i s = .next t ∧ t.resp = some r ∧
      (r.hit = true ↔ ∃ sl ∈ s.row (decodeAddress s.cfg i.address).index,
        sl.valid = true ∧ sl.tag = (decodeAddress s.cfg i.address).tag)

/-- R223, and the frame of LOAD and STORE: no other set changes, nor CFG, `cfg_error`, the parameters, the request port or
what is presented next. -/
def Obligations.RequestsTouchOneSet : Prop :=
  ∀ (i : Instr) (s t : State), Inv s → exec i s = .next t →
    (∀ j, j ≠ (decodeAddress s.cfg i.address).index → t.row j = s.row j) ∧
    t.cfg = s.cfg ∧ t.cfgError = s.cfgError ∧ t.params = s.params ∧ t.req = s.req ∧ t.pending = s.pending

/-- The memory frame of LOAD and STORE: without the data array no byte changes; with it, exactly the block of a WRITEBACK and
the `size` bytes of a WRITE are written, every other byte reads as before (20_memory.md R78, R81). -/
def Obligations.RequestsMemoryFrame : Prop :=
  ∀ (i : Instr) (s t : State) (o : OutcomeRecord), Inv s → exec i s = .next t → t.outcome = some o →
    (s.params.dataArray = false → t.mem = s.mem) ∧
    (s.params.dataArray = true → ∀ x : Address,
      (MemEvent.write i.address ∈ o.events → (x - i.address).toNat < s.req.size →
        Memory.read t.mem x = s.req.wdata.getD (x - i.address).toNat 0#8) ∧
      (MemEvent.writeback (blockBase s.cfg x) ∉ o.events →
        ¬(MemEvent.write i.address ∈ o.events ∧ (x - i.address).toNat < s.req.size) →
        Memory.read t.mem x = Memory.read s.mem x))

/-- R208: the cost of one operation, all cases, with COST at its default, and what it adds to `totalCycles`. -/
def Obligations.CostTable : Prop :=
  ∀ (i : Instr) (s t : State) (o : OutcomeRecord), Inv s → s.params.cost = Cost.table →
    s.params.onOverflow = .refuse → exec i s = .next t → t.outcome = some o →
    t.stat.totalCycles.toNat = s.stat.totalCycles.toNat + o.cost ∧
    (o.wroteBack = true ↔ (∃ w, o.slot = some w ∧ o.hit = false ∧
      (s.slot o.set w).valid = true ∧ (s.slot o.set w).dirty = true)) ∧
    (o.wroteBack = true → s.cfg.writeThrough = false) ∧
    o.cost =
      (match i with
        | .load _ => if o.hit then 1 else if o.wroteBack then 50 * s.cfg.bytes + 1 else 25 * s.cfg.bytes + 1
        | .store _ =>
          if o.hit then (if s.cfg.writeThrough then 101 else 1)
          else if s.cfg.writeAllocate then (if o.wroteBack then 50 * s.cfg.bytes + 1 else 25 * s.cfg.bytes + 1)
          else 100)

/-- R70: the memory events of each operation and outcome, in order. -/
def Obligations.EventTable : Prop :=
  ∀ (i : Instr) (s t : State) (o : OutcomeRecord) (d : Decoded), Inv s → exec i s = .next t → t.outcome = some o →
    d = decodeAddress s.cfg i.address →
    (s.cfg.writeThrough = true → (s.victim d.index).valid = true → (s.victim d.index).dirty = false) ∧
    o.events =
      (match i with
        | .load a =>
          if o.hit then []
          else s.writebackEvents d.index ++ [.fill (blockBase s.cfg a)]
        | .store a =>
          if o.hit then (if s.cfg.writeThrough then [.write a] else [])
          else if s.cfg.writeAllocate then
            if s.cfg.writeThrough then [.fill (blockBase s.cfg a), .write a]
            else s.writebackEvents d.index ++ [.fill (blockBase s.cfg a)]
          else [.write a])

/-- R40: exactly one of the four hit and miss counters is incremented by each operation, and the loads and the stores counted
grow with the operations. -/
def Obligations.OneCounterPerRequest : Prop :=
  ∀ (i : Instr) (s t : State) (r : Response), s.params.onOverflow = .refuse → exec i s = .next t → t.resp = some r →
    (∀ k hit, (t.stat.counter k hit).toNat =
      (s.stat.counter k hit).toNat + (if k = i.kind ∧ hit = r.hit then 1 else 0)) ∧
    t.stat.loadHits.toNat + t.stat.loadMisses.toNat =
      s.stat.loadHits.toNat + s.stat.loadMisses.toNat + (if i.kind = .load then 1 else 0) ∧
    t.stat.storeHits.toNat + t.stat.storeMisses.toNat =
      s.stat.storeHits.toNat + s.stat.storeMisses.toNat + (if i.kind = .store then 1 else 0) ∧
    t.opCounter.toNat = s.opCounter.toNat + 1

/-- 10_state.md R42 under ON_OVERFLOW = refuse: an operation that would carry a counter past `2^64 - 1` is refused, and one
that would not is not refused for it. The hit, the miss and the cost do not depend on the counters: they are those of the
same request with every counter at 0. -/
def Obligations.CounterOverflowRefused : Prop :=
  ∀ (i : Instr) (s t0 : State) (o : OutcomeRecord), s.params.onOverflow = .refuse →
    exec i { s with opCounter := 0#64, stat := Stat.zero } = .next t0 → t0.outcome = some o →
    (CountersFit i.kind o.hit o.cost s → ∃ t, exec i s = .next t) ∧
    (¬CountersFit i.kind o.hit o.cost s → exec i s = .refused .counterOverflow)

/-- R108 and R41: the snapshot, seven values in their order; none while an error is asserted (60_exceptions.md R269). The two
totals are 64-bit sums, which over all states may wrap: the model's choice (log 14). In a state of the invariant with
ON_OVERFLOW = refuse they are the sums as numbers. -/
def Obligations.SnapshotValues : Prop :=
  ∀ s : State,
    (s.cfgError = none → s.snapshot = some [s.stat.loadHits + s.stat.loadMisses, s.stat.storeHits + s.stat.storeMisses,
      s.stat.loadHits, s.stat.loadMisses, s.stat.storeHits, s.stat.storeMisses, s.stat.totalCycles]) ∧
    (s.cfgError ≠ none → s.snapshot = none) ∧
    (Inv s → s.params.onOverflow = .refuse →
      s.stat.totalLoads.toNat = s.stat.loadHits.toNat + s.stat.loadMisses.toNat ∧
      s.stat.totalStores.toNat = s.stat.storeHits.toNat + s.stat.storeMisses.toNat)

/-- R29: the dirty rule. An install sets `dirty` to `(kind = Store) and (not writeThrough)`, a STORE hit under write-back sets
it, and nothing else changes it. -/
def Obligations.DirtyBitRule : Prop :=
  ∀ (i : Instr) (s t : State) (o : OutcomeRecord), Inv s → exec i s = .next t → t.outcome = some o →
    ∀ j w, (t.slot j w).dirty =
      (if j = o.set ∧ o.slot = some w then
        (if o.hit then (s.slot j w).dirty || (decide (i.kind = .store) && !s.cfg.writeThrough)
         else decide (i.kind = .store) && !s.cfg.writeThrough)
      else (s.slot j w).dirty)

/-! ### The cache store (spec/41_cache_store.md) -/

/-- R141 and R142: LOOKUP finds the first occupied slot with the tag, nothing exactly when there is none, and reads `valid`
and `tag` only. -/
def Obligations.LookupFindsTheTag : Prop :=
  (∀ (row : List Slot) (t : Tag) (w : Nat), lookup row t = some w ↔
    w < row.length ∧ (slotAt row w).valid = true ∧ (slotAt row w).tag = t ∧
    ∀ j < w, ¬((slotAt row j).valid = true ∧ (slotAt row j).tag = t)) ∧
  (∀ (row : List Slot) (t : Tag), lookup row t = none ↔ ∀ sl ∈ row, ¬(sl.valid = true ∧ sl.tag = t)) ∧
  ∀ (row row' : List Slot) (t : Tag),
    List.Forall₂ (fun x y => x.valid = y.valid ∧ (x.valid = true → x.tag = y.tag)) row row' →
    lookup row t = lookup row' t

/-- R143: a set has room exactly while `n_s` is below the number of ways; its lowest-numbered free slot is then slot `n_s`,
and an install takes it. -/
def Obligations.FreeSlotTakenIsTheLowest : Prop :=
  ∀ (s : State) (i : Nat) (t : Tag) (k : Kind), Inv s → i < s.cfg.sets →
    ((∃ w < s.cfg.ways, (s.slot i w).valid = false) ↔ occupied (s.row i) < s.cfg.ways) ∧
    (occupied (s.row i) < s.cfg.ways →
      (s.slot i (occupied (s.row i))).valid = false ∧
      (∀ w < occupied (s.row i), (s.slot i w).valid = true) ∧
      (place s i t k).slot = some (occupied (s.row i)))

/-- R151: after a replacement the victim's old tag is gone from the set and the new tag is in its slot. -/
def Obligations.ReplacedTagLeaves : Prop :=
  ∀ (s : State) (i w : Nat) (t : Tag) (k : Kind), Inv s → i < s.cfg.sets → (s.slot i w).valid = true →
    lookup (s.row i) t = none →
    lookup ((replaceSlot s i w t k).st.row i) (s.slot i w).tag = none ∧
    lookup ((replaceSlot s i w t k).st.row i) t = some w

/-- R152: what the installs never do. They clear no `valid`, change `tag` or `loadSeq` of no slot but the one installed, touch
no other set, and reach the statistics only through the write-back charge. -/
def Obligations.InstallsChangeOneBlock : Prop :=
  ∀ (s : State) (i : Nat) (t : Tag) (k : Kind), Inv s → i < s.cfg.sets →
    (∀ j, j ≠ i → (place s i t k).st.row j = s.row j) ∧
    (∀ j w, (s.slot j w).valid = true → ((place s i t k).st.slot j w).valid = true) ∧
    (∀ w, (place s i t k).slot ≠ some w →
      ((place s i t k).st.slot i w).tag = (s.slot i w).tag ∧ ((place s i t k).st.slot i w).loadSeq = (s.slot i w).loadSeq ∧
      ((place s i t k).st.slot i w).valid = (s.slot i w).valid) ∧
    (place s i t k).st.stat = s.stat ∧
    (place s i t k).cost = (if (place s i t k).wroteBack then s.params.cost.perByte * s.cfg.bytes else 0)

/-- R209: the eviction of a dirty block costs exactly `25·blockSize` more than that of the same block clean. -/
def Obligations.DirtyEvictionDifference : Prop :=
  ∀ (i : Instr) (s t : State) (o : OutcomeRecord) (w : Nat), Inv s → s.params.cost = Cost.table →
    s.params.onOverflow = .refuse → exec i s = .next t → t.outcome = some o → o.wroteBack = true → o.slot = some w →
    ∃ t' o', exec i (s.updateSlot o.set w fun sl => { sl with dirty := false }) = .next t' ∧ t'.outcome = some o' ∧
      o.cost = o'.cost + 25 * s.cfg.bytes ∧
      t.stat.totalCycles.toNat = t'.stat.totalCycles.toNat + 25 * s.cfg.bytes ∧ o'.slot = o.slot ∧ o'.hit = o.hit

/-! ### The replacement logic (spec/42_eviction_policy.md) -/

/-- R170: TOUCH. The touched block gets rank 0, every other occupied block with a smaller rank ages by one, nothing else
changes; all ranks compared are those before. -/
def Obligations.TouchUpdatesRanks : Prop :=
  ∀ (row : List Slot) (w : Nat), (slotAt row w).valid = true →
    (touchRow row w).length = row.length ∧
    slotAt (touchRow row w) w = { slotAt row w with accessSeq := 0#32 } ∧
    ∀ j < row.length, j ≠ w → slotAt (touchRow row w) j =
      (if (slotAt row j).valid = true ∧ (slotAt row j).accessSeq.toNat < (slotAt row w).accessSeq.toNat then
        { slotAt row j with accessSeq := (slotAt row j).accessSeq + 1#32 }
       else slotAt row j)

/-- R173: VICTIM_LRU is the block with the maximum `accessSeq`, the lowest slot of equals. -/
def Obligations.VictimLruIsFirstMaximum : Prop :=
  ∀ row : List Slot, row ≠ [] →
    victimLru row < row.length ∧
    (∀ j < row.length, (slotAt row j).accessSeq.toNat ≤ (slotAt row (victimLru row)).accessSeq.toNat) ∧
    ∀ j < victimLru row, (slotAt row j).accessSeq.toNat < (slotAt row (victimLru row)).accessSeq.toNat

/-- R176: VICTIM_FIFO is the block with the minimum `loadSeq`, the lowest slot of equals. -/
def Obligations.VictimFifoIsFirstMinimum : Prop :=
  ∀ row : List Slot, row ≠ [] →
    victimFifo row < row.length ∧
    (∀ j < row.length, (slotAt row (victimFifo row)).loadSeq.toNat ≤ (slotAt row j).loadSeq.toNat) ∧
    ∀ j < victimFifo row, (slotAt row (victimFifo row)).loadSeq.toNat < (slotAt row j).loadSeq.toNat

/-- R174: in a full set the ranks are `0 .. numBlocksPerSet - 1`, each once; the LRU victim has the largest and no other
block has it: the tie-break is never exercised. -/
def Obligations.LruVictimHasTheTopRank : Prop :=
  ∀ (s : State) (i : Nat), Inv s → lruActive s.cfg = true → i < s.cfg.sets → occupied (s.row i) = s.cfg.ways →
    (ranks (s.row i)).Perm (List.range s.cfg.ways) ∧
    (s.slot i (victimLru (s.row i))).accessSeq.toNat = s.cfg.ways - 1 ∧
    ∀ j < s.cfg.ways, j ≠ victimLru (s.row i) → (s.slot i j).accessSeq.toNat < s.cfg.ways - 1

/-- R182: a block leaves the cache only by a miss to its own full set; while a set has room a miss that installs takes the
free slot and evicts nothing. -/
def Obligations.EvictionOnlyFromAFullSet : Prop :=
  ∀ (i : Instr) (s t : State) (o : OutcomeRecord), Inv s → exec i s = .next t → t.outcome = some o →
    (o.victimTag ≠ none → o.hit = false ∧ occupied (s.row o.set) = s.cfg.ways) ∧
    (occupied (s.row o.set) < s.cfg.ways → o.victimTag = none ∧
      ∀ j w, (s.slot j w).valid = true → (t.slot j w).valid = true ∧ (t.slot j w).tag = (s.slot j w).tag) ∧
    ∀ j w, (s.slot j w).valid = true → (t.slot j w).tag ≠ (s.slot j w).tag →
      j = o.set ∧ o.slot = some w ∧ o.victimTag = some (s.slot j w).tag

/-- R179: with one way `evictionPolicy` is not consulted: the same request in the same state under another policy gives the
same next state but for that field of CFG. -/
def Obligations.PolicyIgnoredWithOneWay : Prop :=
  ∀ (i : Instr) (s t : State) (p : Policy), s.cfg.numBlocksPerSet = 1 → exec i s = .next t →
    exec i { s with cfg := { s.cfg with evictionPolicy := p } } =
      .next { t with cfg := { t.cfg with evictionPolicy := p } }

/-- R175: on the LRU path a set's blocks, listed from the most to the least recently touched, follow the textbook order: the
block accessed comes to the front, and the last one leaves when the set overflows; a STORE miss without write-allocate
changes nothing. -/
def Obligations.LruFollowsTheTextbook : Prop :=
  ∀ (i : Instr) (s t : State) (o : OutcomeRecord) (order : List Tag), Inv s → lruActive s.cfg = true →
    exec i s = .next t → t.outcome = some o → OrderedBy (fun sl => sl.accessSeq) (s.row o.set) order →
    OrderedBy (fun sl => sl.accessSeq) (t.row o.set)
      (if o.hit = false ∧ i.kind = .store ∧ s.cfg.writeAllocate = false then order
       else textbookLru s.cfg.ways order o.tag)

/-- R177 and R178: while fewer than `2^32` operations have run, on the FIFO path a set's blocks, listed from the oldest
install to the newest, follow the textbook order, regardless of hits. -/
def Obligations.FifoFollowsTheTextbook : Prop :=
  ∀ (i : Instr) (s t : State) (o : OutcomeRecord) (order : List Tag), Inv s → LoadSeqFresh s →
    s.cfg.evictionPolicy = .fifo → s.opCounter.toNat < 2 ^ 32 →
    exec i s = .next t → t.outcome = some o → OrderedBy (fun sl => sl.loadSeq) (s.row o.set) order →
    OrderedBy (fun sl => sl.loadSeq) (t.row o.set)
      (if o.hit = false ∧ i.kind = .store ∧ s.cfg.writeAllocate = false then order
       else textbookFifo s.cfg.ways order o.tag)

/-! ### Requests the model refuses, and invariants -/

/-- R76: an extended request that crosses a block boundary is refused; with `size` 1, 2 or 4 and the address a multiple of
it that never happens (DEDUCED, log 19: how the last sentence of R76 is read). -/
def Obligations.CrossingAccessRefused : Prop :=
  (∀ (i : Instr) (s : State), s.cfgError = none → s.params.dataArray = true → s.req.wf i.kind = true →
    s.cfg.bytes < i.address.toNat % s.cfg.bytes + s.req.size → exec i s = .refused .crossesBlock) ∧
  ∀ (c : Cfg) (a : Address) (size : Nat), legalCfg c = true → (size = 1 ∨ size = 2 ∨ size = 4) → a.toNat % size = 0 →
    a.toNat % c.bytes + size ≤ c.bytes

/-- The invariant holds after reset. -/
def Obligations.InvariantAtReset : Prop := Inv State.reset

/-- Every step keeps the invariant: occupied slots first (10_state.md R32), tags unique (R33), LRU ranks dense (R34), nothing
dirty under write-through (R30), clean rows equal to memory (20_memory.md R83), `opCounter` the sum of the four counters
(R37), and the canonical forms. -/
def Obligations.StepKeepsTheInvariant : Prop :=
  ∀ s t : State, Inv s → step s = .next t → Inv t

/-- R177: while fewer than `2^32` operations have run the `loadSeq` of a set's blocks stay distinct and below the counter. -/
def Obligations.LoadSeqStaysFresh : Prop :=
  ∀ s t : State, Inv s → LoadSeqFresh s → s.params.onOverflow = .refuse → step s = .next t → LoadSeqFresh t

/-- R46: the unspecified fields of free slots cannot be observed. Two states that differ in nothing else answer a request
alike, and again differ in nothing else, with the slot array of the second again in its canonical form, so that the next
request finds the same premise. -/
def Obligations.FreeSlotFieldsUnobservable : Prop :=
  ∀ (i : Instr) (s s' t : State), Inv s → AgreeOnOccupied s s' → Sparse.wf (freeRow s'.cfg) s'.rows = true →
    exec i s = .next t →
    ∃ t', exec i s' = .next t' ∧ AgreeOnOccupied t t' ∧ Sparse.wf (freeRow t'.cfg) t'.rows = true ∧ t'.resp = t.resp ∧
      t'.outcome = t.outcome ∧ t'.stat = t.stat

/-! ### Transparency (spec/20_memory.md R83) -/

/-- With the data array, a LOAD returns the bytes the requester sees at its addresses and changes the byte seen at no
address. -/
def Obligations.LoadIsTransparent : Prop :=
  ∀ (a : Address) (s t : State), Inv s → s.params.dataArray = true → exec (.load a) s = .next t →
    (∃ r, t.resp = some r ∧ r.rdata = some ((List.range s.req.size).map fun k => s.byteAt (a + BitVec.ofNat 32 k))) ∧
    ∀ x, t.byteAt x = s.byteAt x

/-- With the data array, a STORE changes the bytes seen at its own addresses to its data, and no other. -/
def Obligations.StoreIsTransparent : Prop :=
  ∀ (a : Address) (s t : State), Inv s → s.params.dataArray = true → exec (.store a) s = .next t →
    ∀ x, t.byteAt x = if (x - a).toNat < s.req.size then s.req.wdata.getD (x - a).toNat 0#8 else s.byteAt x

/-- R83: after any requests from an empty cache, served to the end, a LOAD returns for each byte the value of the latest
earlier STORE to that address, or memory's byte from before if there is none. -/
def Obligations.RunIsTransparent : Prop :=
  ∀ (s t : State) (earlier : List (Instr × Sideband)) (a : Address) (sb : Sideband),
    Inv s → s.rows = [] → s.params.dataArray = true →
    s.pending = requestsOf (earlier ++ [(.load a, sb)]) →
    Host.Core.run core (earlier.length + 1) s = .next t →
    ∃ r, t.resp = some r ∧ r.rdata = some ((List.range sb.size).map fun k =>
      latestStored (Memory.read s.mem) earlier (a + BitVec.ofNat 32 k))

/-! ### Derived parameters (spec/00_scope.md R10) and lines of text (spec/30_encoding.md R99, spec/60_exceptions.md R265) -/

/-- R10: the derived parameters of a legal CFG and their ranges, the logarithms being exact; and the slot array has as many
slots as `numSets * numBlocksPerSet` says. -/
def Obligations.DerivedParameters : Prop :=
  (∀ c : Cfg, legalCfg c = true →
    c.blockSize = 2 ^ c.offsetBits ∧ 2 ≤ c.offsetBits ∧ c.offsetBits ≤ 31 ∧
    c.numSets = 2 ^ c.indexBits ∧ c.indexBits ≤ 29 ∧
    (c.tagBits : Int) = 32 - c.offsetBits - c.indexBits ∧ 1 ≤ c.tagBits ∧ c.tagBits ≤ 30 ∧
    c.numBlocksPerSet = 2 ^ c.wayBits ∧
    (c.totalSlots : Int) = c.numSets * c.numBlocksPerSet ∧
    (c.dataCapacity : Int) = c.numSets * c.numBlocksPerSet * c.blockSize) ∧
  ∀ s : State, Inv s → ((List.range s.cfg.sets).map fun i => (s.row i).length).sum = s.cfg.totalSlots

/-- What every text line is: a request, TE1, TE2 or TE3 (60_exceptions.md R265), or a line the model of the tokenizer refuses
(30_encoding.md R99), by its fields. The order among the causes, and which lines are refused beyond those R99 names, are the
model's choices (log 15). -/
def Obligations.TextLineOutcomes : Prop :=
  (∀ c : Char, hexDigit c = none ↔ c ∉ "0123456789abcdefABCDEF".toList) ∧
  "0123456789abcdef".toList.map hexDigit = (List.range 16).map some ∧
  "ABCDEF".toList.map hexDigit = (List.range' 10 6).map some ∧
  (∀ line : List Char, (line = [] ∨ '\t' ∈ line ∨ line.head? = some ' ' ∨ line.getLast? = some ' ') →
    parseLine line = .unspecified) ∧
  ∀ (op : List Char) (rest : List (Nat × List Char)), IsField op → (∀ g ∈ rest, IsField g.2) →
    (op ≠ ['l'] → op ≠ ['s'] → parseLine (fieldsLine op rest) = .error .te1) ∧
    ∀ k : Kind, op = (match k with | .load => ['l'] | .store => ['s']) →
      (rest = [] → parseLine (fieldsLine op rest) = .error .te3) ∧
      ∀ (n : Nat) (hex : List Char) (more : List (Nat × List Char)), rest = (n, hex) :: more →
        (hex.take 2 ≠ ['0', 'x'] → hex.take 2 ≠ ['0', 'X'] → parseLine (fieldsLine op rest) = .error .te2) ∧
        (hex.take 2 = ['0', 'X'] → parseLine (fieldsLine op rest) = .unspecified) ∧
        ∀ ds : List Char, hex = '0' :: 'x' :: ds →
          (ds = [] ∨ (∃ c ∈ ds, hexDigit c = none) → parseLine (fieldsLine op rest) = .error .te2) ∧
          ∀ (digits : List Nat) (v : Nat), ds ≠ [] → ds.map hexDigit = digits.map some →
            v = Nat.ofDigits 16 digits.reverse →
            parseLine (fieldsLine op rest) =
              (if 2 ^ 32 ≤ v then .error .te2
               else if 8 < ds.length ∨ 1 < more.length then .unspecified
               else .ok (match k with | .load => .load (BitVec.ofNat 32 v) | .store => .store (BitVec.ofNat 32 v)))

/-! ### Errors come before the first operation (spec/00_scope.md R13, spec/60_exceptions.md R271) -/

/-- R271: an error occurs before the first operation. A step that faults raises a TraceFormatError of a trace handed over, with
no operation performed since reset; and a step that changes `cfg_error` leaves a state in which none has been performed. That
`opCounter` tells whether one has been is the model's choice (log 20). -/
def Obligations.ErrorsPrecedeTheFirstOperation : Prop :=
  (∀ (s : State) (f : Fault), step s = .fault f → s.opCounter = 0#64 ∧ s.cfgError = none ∧
    ∃ lines rest e, s.pending = .trace lines :: rest ∧ f = .traceFormat e) ∧
  ∀ s t : State, step s = .next t → t.cfgError ≠ s.cfgError →
    t.opCounter = 0#64 ∧ t.stat = Stat.zero ∧ ∀ i w, (t.slot i w).valid = false
end

