-- ==== Sys2Proof/Laws/Address.lean ====
section
/-! SUPPORT. CFG and the address decoder in plain arithmetic: what a legal CFG gives, and DECODE, the block base and the
recomposition as division, remainder and sum. -/

namespace Sys2Proof.Machine

/-! ### Legal configurations -/

theorem isPowerOfTwo_iff {n : Int} : isPowerOfTwo n = true ↔ ∃ e : Nat, n = 2 ^ e := by
  unfold isPowerOfTwo
  rw [decide_eq_true_iff]
  constructor
  · intro h; exact ⟨_, h.symm⟩
  · rintro ⟨e, rfl⟩
    have : ((2 : Int) ^ e).toNat = 2 ^ e := by
      rw [show ((2 : Int) ^ e) = ((2 ^ e : Nat) : Int) by push_cast; rfl]; exact Int.toNat_natCast _
    rw [this, Nat.log2_two_pow]

theorem toNat_of_isPowerOfTwo {n : Int} (h : isPowerOfTwo n = true) : n.toNat = 2 ^ Nat.log2 n.toNat := by
  obtain ⟨e, rfl⟩ := isPowerOfTwo_iff.1 h
  have : ((2 : Int) ^ e).toNat = 2 ^ e := by
    rw [show ((2 : Int) ^ e) = ((2 ^ e : Nat) : Int) by push_cast; rfl]; exact Int.toNat_natCast _
  rw [this, Nat.log2_two_pow]

/-- What the check of CFG reports nothing about (60_exceptions.md R262). -/
theorem configError_eq_none {c : Cfg} :
    configError c = none ↔
      isPowerOfTwo c.numSets = true ∧ isPowerOfTwo c.numBlocksPerSet = true ∧ isPowerOfTwo c.blockSize = true ∧
      ¬(c.blockSize = 1 ∨ c.blockSize = 2) ∧ ¬(c.writeAllocate = false ∧ c.writeThrough = false) ∧
      policyIllegal c = false := by
  unfold configError configErrors
  rw [List.head?_eq_none_iff]
  simp only [List.append_eq_nil_iff, ite_eq_left_iff, ite_eq_right_iff, imp_false,
    List.cons_ne_nil, Bool.not_eq_true, and_assoc]
  simp only [Bool.not_eq_false]

/-- The dimensions of a CFG without error, as powers of two. -/
structure Dims (c : Cfg) : Prop where
  bytes : c.bytes = 2 ^ c.offsetBits
  sets : c.sets = 2 ^ c.indexBits
  ways : c.ways = 2 ^ c.wayBits
  offsetBits : 2 ≤ c.offsetBits
  total : c.offsetBits + c.indexBits ≤ 31

theorem dims_of_legal {c : Cfg} (h : configError c = none) (hb : inBounds c = true) : Dims c := by
  obtain ⟨h1, h2, h3, h4, -, -⟩ := configError_eq_none.1 h
  simp only [inBounds, Bool.and_eq_true, decide_eq_true_eq] at hb
  refine ⟨toNat_of_isPowerOfTwo h3, toNat_of_isPowerOfTwo h1, toNat_of_isPowerOfTwo h2, ?_, hb.1⟩
  by_contra hlt
  obtain ⟨e, he⟩ := isPowerOfTwo_iff.1 h3
  have hbytes : c.bytes = 2 ^ e := by
    unfold Cfg.bytes
    rw [he, show ((2 : Int) ^ e) = ((2 ^ e : Nat) : Int) by push_cast; rfl]; exact Int.toNat_natCast _
  have heo : c.offsetBits = e := by unfold Cfg.offsetBits; rw [hbytes, Nat.log2_two_pow]
  have : e = 0 ∨ e = 1 := by omega
  rcases this with rfl | rfl <;> simp [he] at h4

theorem Dims.ways_pos {c : Cfg} (h : Dims c) : 0 < c.ways := by rw [h.ways]; positivity

theorem Dims.bytes_pos {c : Cfg} (h : Dims c) : 0 < c.bytes := by rw [h.bytes]; positivity

theorem Dims.sets_pos {c : Cfg} (h : Dims c) : 0 < c.sets := by rw [h.sets]; positivity

theorem Dims.span {c : Cfg} (h : Dims c) : 2 ^ c.tagBits * 2 ^ (c.offsetBits + c.indexBits) = 2 ^ 32 := by
  rw [← pow_add]; congr 1; have := h.total; unfold Cfg.tagBits; omega

theorem Dims.bytes_le {c : Cfg} (h : Dims c) : c.bytes ≤ 2 ^ 31 := by
  rw [h.bytes]; exact Nat.pow_le_pow_right (by norm_num) (by have := h.total; omega)

/-! ### DECODE -/

theorem decodeAddress_offset {c : Cfg} (h : Dims c) (a : Address) :
    (decodeAddress c a).offset = a.toNat % c.bytes := by
  simp only [decodeAddress]; rw [h.bytes, Nat.and_two_pow_sub_one_eq_mod]

theorem decodeAddress_index {c : Cfg} (h : Dims c) (a : Address) :
    (decodeAddress c a).index = a.toNat / c.bytes % c.sets := by
  simp only [decodeAddress]
  rw [Nat.shiftLeft_eq, one_mul, Nat.and_two_pow_sub_one_eq_mod, Nat.shiftRight_eq_div_pow, h.bytes, h.sets]

theorem decodeAddress_tag (c : Cfg) (a : Address) :
    (decodeAddress c a).tag.toNat = a.toNat / 2 ^ (c.offsetBits + c.indexBits) := by
  simp only [decodeAddress, BitVec.toNat_ofNat, Nat.shiftRight_eq_div_pow]
  exact Nat.mod_eq_of_lt (lt_of_le_of_lt (Nat.div_le_self _ _) a.isLt)

theorem decodeAddress_tag_div {c : Cfg} (h : Dims c) (a : Address) :
    (decodeAddress c a).tag.toNat = a.toNat / c.bytes / c.sets := by
  rw [decodeAddress_tag, pow_add, Nat.div_div_eq_div_mul, h.bytes, h.sets]

theorem decodeAddress_index_lt {c : Cfg} (h : Dims c) (a : Address) : (decodeAddress c a).index < c.sets := by
  rw [decodeAddress_index h]; exact Nat.mod_lt _ h.sets_pos

theorem decodeAddress_offset_lt {c : Cfg} (h : Dims c) (a : Address) : (decodeAddress c a).offset < c.bytes := by
  rw [decodeAddress_offset h]; exact Nat.mod_lt _ h.bytes_pos

theorem decodeAddress_tag_lt {c : Cfg} (h : Dims c) (a : Address) :
    (decodeAddress c a).tag.toNat < 2 ^ c.tagBits := by
  rw [decodeAddress_tag, Nat.div_lt_iff_lt_mul (by positivity), h.span]
  exact a.isLt

/-! ### The block base and the recomposition -/

theorem recompose_toNat {c : Cfg} (h : Dims c) {t : Tag} {i : Nat} (ht : t.toNat < 2 ^ c.tagBits) (hi : i < c.sets) :
    (recompose c t i).toNat = (t.toNat * c.sets + i) * c.bytes := by
  have hor : (t.toNat <<< (c.offsetBits + c.indexBits)) ||| (i <<< c.offsetBits) =
      (t.toNat * c.sets + i) * c.bytes := by
    rw [show c.offsetBits + c.indexBits = c.indexBits + c.offsetBits by omega, Nat.shiftLeft_add,
      ← Nat.shiftLeft_or_distrib, Nat.shiftLeft_eq (_ ||| _), h.bytes]
    congr 1
    rw [h.sets, Nat.shiftLeft_eq, Nat.mul_comm]
    exact (Nat.two_pow_add_eq_or_of_lt (by rw [← h.sets]; exact hi) t.toNat).symm
  unfold recompose
  rw [hor, BitVec.toNat_ofNat]
  apply Nat.mod_eq_of_lt
  calc (t.toNat * c.sets + i) * c.bytes
      < (2 ^ c.tagBits * c.sets) * c.bytes := by
        refine Nat.mul_lt_mul_of_pos_right ?_ h.bytes_pos
        have : (t.toNat + 1) * c.sets ≤ 2 ^ c.tagBits * c.sets := Nat.mul_le_mul_right _ ht
        rw [Nat.add_mul, one_mul] at this
        omega
    _ = 2 ^ 32 := by
        rw [← h.span, pow_add, h.sets, h.bytes]; ring

theorem blockBase_toNat {c : Cfg} (h : Dims c) (a : Address) :
    (blockBase c a).toNat = a.toNat / c.bytes * c.bytes := by
  unfold blockBase
  rw [Nat.shiftRight_eq_div_pow, Nat.shiftLeft_eq, ← h.bytes, BitVec.toNat_ofNat]
  exact Nat.mod_eq_of_lt (lt_of_le_of_lt (Nat.div_mul_le_self _ _) a.isLt)

/-- The block base is the recomposition of tag and index (40_address_decoder.md R124). -/
theorem recompose_decode {c : Cfg} (h : Dims c) (a : Address) :
    recompose c (decodeAddress c a).tag (decodeAddress c a).index = blockBase c a := by
  apply BitVec.eq_of_toNat_eq
  rw [recompose_toNat h (decodeAddress_tag_lt h a) (decodeAddress_index_lt h a), blockBase_toNat h,
    decodeAddress_tag_div h, decodeAddress_index h, Nat.div_add_mod']

/-- An address inside the block of a tag and an index decodes to them. -/
theorem decode_in_block {c : Cfg} (h : Dims c) {t : Tag} {i k : Nat} (ht : t.toNat < 2 ^ c.tagBits) (hi : i < c.sets)
    (hk : k < c.bytes) {x : Address} (hx : x.toNat = (recompose c t i).toNat + k) :
    decodeAddress c x = { tag := t, index := i, offset := k } := by
  rw [recompose_toNat h ht hi] at hx
  have hdiv : x.toNat / c.bytes = t.toNat * c.sets + i := by
    rw [hx, Nat.mul_comm, Nat.mul_add_div h.bytes_pos, Nat.div_eq_of_lt hk, Nat.add_zero]
  have htag : (decodeAddress c x).tag = t := by
    apply BitVec.eq_of_toNat_eq
    rw [decodeAddress_tag_div h, hdiv, Nat.mul_comm, Nat.mul_add_div h.sets_pos, Nat.div_eq_of_lt hi, Nat.add_zero]
  have hidx : (decodeAddress c x).index = i := by
    rw [decodeAddress_index h, hdiv, Nat.mul_comm, Nat.mul_add_mod, Nat.mod_eq_of_lt hi]
  have hoff : (decodeAddress c x).offset = k := by
    rw [decodeAddress_offset h, hx, Nat.mul_comm, Nat.mul_add_mod, Nat.mod_eq_of_lt hk]
  rw [← htag, ← hidx, ← hoff]

/-- An address is its block base plus its offset. -/
theorem toNat_eq_base_add_offset {c : Cfg} (h : Dims c) (x : Address) :
    x.toNat = (recompose c (decodeAddress c x).tag (decodeAddress c x).index).toNat + (decodeAddress c x).offset := by
  rw [recompose_decode h, blockBase_toNat h, decodeAddress_offset h, Nat.div_add_mod']

end Sys2Proof.Machine
end

