-- ==== Sys2Proof/Laws/Sparse.lean ====
section
/-! SUPPORT. The sparse store: read after write, and the canonical form kept by every write. -/

namespace Sys2Proof.Machine

variable {α : Type} {dflt : α}

@[simp] theorem Sparse.read_nil (a : Nat) : Sparse.read dflt [] a = dflt := rfl

theorem Sparse.wf_cons [DecidableEq α] {k : Nat} {v : α} {m : List (Nat × α)} :
    Sparse.wf dflt ((k, v) :: m) = true ↔ v ≠ dflt ∧ (∀ e ∈ m, k < e.1) ∧ Sparse.wf dflt m = true := by
  simp [Sparse.wf, and_assoc]

/-- An address below every listed one reads the default. -/
theorem Sparse.read_below {m : List (Nat × α)} {a : Nat} (h : ∀ e ∈ m, a < e.1) : Sparse.read dflt m a = dflt := by
  induction m with
  | nil => rfl
  | cons e m ih =>
    obtain ⟨k, v⟩ := e
    have hk : k ≠ a := by have := h (k, v) (by simp); simp only at this; omega
    simp only [Sparse.read, hk, if_false]
    exact ih fun e he => h e (by simp [he])

/-- In the canonical form every address reads its entry. -/
theorem Sparse.read_of_mem [DecidableEq α] {m : List (Nat × α)} (h : Sparse.wf dflt m = true) {e : Nat × α} (he : e ∈ m) :
    Sparse.read dflt m e.1 = e.2 := by
  induction m with
  | nil => cases he
  | cons x m ih =>
    obtain ⟨k, v⟩ := x
    obtain ⟨-, hk, hm⟩ := Sparse.wf_cons.1 h
    rcases List.mem_cons.1 he with rfl | he
    · simp [Sparse.read]
    · have := hk e he
      have hne : k ≠ e.1 := by omega
      simp only [Sparse.read, hne, if_false]
      exact ih hm he

/-- What an address reads is an entry of it, or the default. -/
theorem Sparse.read_cases (m : List (Nat × α)) (a : Nat) :
    (a, Sparse.read dflt m a) ∈ m ∨ Sparse.read dflt m a = dflt := by
  induction m with
  | nil => exact .inr rfl
  | cons e m ih =>
    obtain ⟨k, v⟩ := e
    by_cases h : k = a
    · subst h; simp [Sparse.read]
    · simp only [Sparse.read, h, if_false]
      rcases ih with ih | ih
      · exact .inl (by simp [ih])
      · exact .inr ih

/-- A write reads back, and leaves every other address alone. -/
theorem Sparse.read_write [DecidableEq α] {m : List (Nat × α)} (h : Sparse.wf dflt m = true) (a : Nat) (v : α) (b : Nat) :
    Sparse.read dflt (Sparse.write dflt m a v) b = if b = a then v else Sparse.read dflt m b := by
  induction m with
  | nil =>
    by_cases hv : v = dflt
    · subst hv; simp [Sparse.write]
    · by_cases hb : b = a
      · subst hb; simp [Sparse.write, hv, Sparse.read]
      · have : a ≠ b := fun h => hb h.symm
        simp [Sparse.write, hv, Sparse.read, hb, this]
  | cons e m ih =>
    obtain ⟨k, x⟩ := e
    obtain ⟨hx, hk, hm⟩ := Sparse.wf_cons.1 h
    by_cases h1 : a < k
    · have hbelow : Sparse.read dflt ((k, x) :: m) a = dflt := Sparse.read_below (by
        intro e he
        rcases List.mem_cons.1 he with rfl | he
        · exact h1
        · exact lt_trans h1 (hk e he))
      by_cases hv : v = dflt
      · subst hv
        simp only [Sparse.write, h1, if_true]
        by_cases hb : b = a
        · subst hb; simpa using hbelow
        · simp [hb]
      · simp only [Sparse.write, h1, hv, if_true, if_false]
        by_cases hb : b = a
        · subst hb; simp [Sparse.read]
        · have : a ≠ b := fun h => hb h.symm
          simp [Sparse.read, hb, this]
    · by_cases h2 : a = k
      · subst h2
        by_cases hv : v = dflt
        · subst hv
          simp only [Sparse.write, if_true, lt_irrefl, if_false]
          by_cases hb : b = a
          · subst hb; simpa using Sparse.read_below hk
          · have : a ≠ b := fun h => hb h.symm
            simp [Sparse.read, hb, this]
        · simp only [Sparse.write, lt_irrefl, hv, if_true, if_false]
          by_cases hb : b = a
          · subst hb; simp [Sparse.read]
          · have : a ≠ b := fun h => hb h.symm
            simp [Sparse.read, hb, this]
      · simp only [Sparse.write, h1, h2, if_false, Sparse.read, ih hm]
        by_cases hkb : k = b
        · subst hkb
          have : k ≠ a := fun h => h2 h.symm
          simp [this]
        · simp [hkb]

/-- Every entry of a written store is the one written or was there before. -/
theorem Sparse.mem_write [DecidableEq α] {m : List (Nat × α)} {a : Nat} {v : α} {e : Nat × α} (he : e ∈ Sparse.write dflt m a v) :
    e = (a, v) ∨ e ∈ m := by
  induction m with
  | nil =>
    by_cases hv : v = dflt
    · simp [Sparse.write, hv] at he
    · simp [Sparse.write, hv] at he; exact .inl he
  | cons x m ih =>
    obtain ⟨k, x⟩ := x
    by_cases h1 : a < k
    · by_cases hv : v = dflt
      · simp only [Sparse.write, h1, hv, if_true] at he
        exact .inr he
      · simp only [Sparse.write, h1, hv, if_true, if_false] at he
        exact List.mem_cons.1 he
    · by_cases h2 : a = k
      · by_cases hv : v = dflt
        · simp only [Sparse.write, h2, hv, if_true] at he
          rw [← h2] at he
          simp only [lt_irrefl, if_false] at he
          exact .inr (List.mem_cons_of_mem _ he)
        · simp only [Sparse.write, h2, hv, if_true, if_false, lt_irrefl] at he
          rcases List.mem_cons.1 he with he | he
          · exact .inl (by rw [he, h2])
          · exact .inr (List.mem_cons_of_mem _ he)
      · simp only [Sparse.write, h1, h2, if_false] at he
        rcases List.mem_cons.1 he with he | he
        · exact .inr (by simp [he])
        · rcases ih he with h | h
          · exact .inl h
          · exact .inr (List.mem_cons_of_mem _ h)

/-- A write keeps the canonical form. -/
theorem Sparse.wf_write [DecidableEq α] {m : List (Nat × α)} (h : Sparse.wf dflt m = true) (a : Nat) (v : α) :
    Sparse.wf dflt (Sparse.write dflt m a v) = true := by
  induction m with
  | nil =>
    by_cases hv : v = dflt <;> simp [Sparse.write, hv, Sparse.wf]
  | cons e m ih =>
    obtain ⟨k, x⟩ := e
    obtain ⟨hx, hk, hm⟩ := Sparse.wf_cons.1 h
    by_cases h1 : a < k
    · by_cases hv : v = dflt
      · simpa [Sparse.write, h1, hv] using h
      · simp only [Sparse.write, h1, hv, if_true, if_false]
        refine Sparse.wf_cons.2 ⟨hv, ?_, h⟩
        intro e he
        rcases List.mem_cons.1 he with rfl | he
        · exact h1
        · exact lt_trans h1 (hk e he)
    · by_cases h2 : a = k
      · subst h2
        by_cases hv : v = dflt
        · simpa [Sparse.write, hv] using hm
        · simp only [Sparse.write, lt_irrefl, hv, if_true, if_false]
          exact Sparse.wf_cons.2 ⟨hv, hk, hm⟩
      · simp only [Sparse.write, h1, h2, if_false]
        refine Sparse.wf_cons.2 ⟨hx, ?_, ih hm⟩
        intro e he
        rcases Sparse.mem_write he with rfl | he
        · show k < a; omega
        · exact hk e he

end Sys2Proof.Machine
end

