-- ==== Sys2Proof/Laws/State.lean ====
section
/-! SUPPORT. One lemma for each field under each update of State, so that no later proof unfolds a record update. -/

namespace Sys2Proof.Machine

/-! ### `State.setRow` -/

@[simp] theorem State.setRow_params (s : State) (i : Nat) (row : List Slot) : (s.setRow i row).params = s.params := rfl
@[simp] theorem State.setRow_cfg (s : State) (i : Nat) (row : List Slot) : (s.setRow i row).cfg = s.cfg := rfl
@[simp] theorem State.setRow_cfgError (s : State) (i : Nat) (row : List Slot) : (s.setRow i row).cfgError = s.cfgError := rfl
@[simp] theorem State.setRow_rows (s : State) (i : Nat) (row : List Slot) : (s.setRow i row).rows = Sparse.write (freeRow s.cfg) s.rows i row := rfl
@[simp] theorem State.setRow_opCounter (s : State) (i : Nat) (row : List Slot) : (s.setRow i row).opCounter = s.opCounter := rfl
@[simp] theorem State.setRow_stat (s : State) (i : Nat) (row : List Slot) : (s.setRow i row).stat = s.stat := rfl
@[simp] theorem State.setRow_mem (s : State) (i : Nat) (row : List Slot) : (s.setRow i row).mem = s.mem := rfl
@[simp] theorem State.setRow_req (s : State) (i : Nat) (row : List Slot) : (s.setRow i row).req = s.req := rfl
@[simp] theorem State.setRow_resp (s : State) (i : Nat) (row : List Slot) : (s.setRow i row).resp = s.resp := rfl
@[simp] theorem State.setRow_outcome (s : State) (i : Nat) (row : List Slot) : (s.setRow i row).outcome = s.outcome := rfl
@[simp] theorem State.setRow_pending (s : State) (i : Nat) (row : List Slot) : (s.setRow i row).pending = s.pending := rfl

/-! ### `State.setMem` -/

@[simp] theorem State.setMem_params (s : State) (m : List Host.Cell) : (s.setMem m).params = s.params := rfl
@[simp] theorem State.setMem_cfg (s : State) (m : List Host.Cell) : (s.setMem m).cfg = s.cfg := rfl
@[simp] theorem State.setMem_cfgError (s : State) (m : List Host.Cell) : (s.setMem m).cfgError = s.cfgError := rfl
@[simp] theorem State.setMem_rows (s : State) (m : List Host.Cell) : (s.setMem m).rows = s.rows := rfl
@[simp] theorem State.setMem_opCounter (s : State) (m : List Host.Cell) : (s.setMem m).opCounter = s.opCounter := rfl
@[simp] theorem State.setMem_stat (s : State) (m : List Host.Cell) : (s.setMem m).stat = s.stat := rfl
@[simp] theorem State.setMem_mem (s : State) (m : List Host.Cell) : (s.setMem m).mem = m := rfl
@[simp] theorem State.setMem_req (s : State) (m : List Host.Cell) : (s.setMem m).req = s.req := rfl
@[simp] theorem State.setMem_resp (s : State) (m : List Host.Cell) : (s.setMem m).resp = s.resp := rfl
@[simp] theorem State.setMem_outcome (s : State) (m : List Host.Cell) : (s.setMem m).outcome = s.outcome := rfl
@[simp] theorem State.setMem_pending (s : State) (m : List Host.Cell) : (s.setMem m).pending = s.pending := rfl

/-! ### `State.popped` -/

@[simp] theorem State.popped_params (s : State) (rest : List EnvEvent) : (s.popped rest).params = s.params := rfl
@[simp] theorem State.popped_cfg (s : State) (rest : List EnvEvent) : (s.popped rest).cfg = s.cfg := rfl
@[simp] theorem State.popped_cfgError (s : State) (rest : List EnvEvent) : (s.popped rest).cfgError = s.cfgError := rfl
@[simp] theorem State.popped_rows (s : State) (rest : List EnvEvent) : (s.popped rest).rows = s.rows := rfl
@[simp] theorem State.popped_opCounter (s : State) (rest : List EnvEvent) : (s.popped rest).opCounter = s.opCounter := rfl
@[simp] theorem State.popped_stat (s : State) (rest : List EnvEvent) : (s.popped rest).stat = s.stat := rfl
@[simp] theorem State.popped_mem (s : State) (rest : List EnvEvent) : (s.popped rest).mem = s.mem := rfl
@[simp] theorem State.popped_req (s : State) (rest : List EnvEvent) : (s.popped rest).req = s.req := rfl
@[simp] theorem State.popped_resp (s : State) (rest : List EnvEvent) : (s.popped rest).resp = s.resp := rfl
@[simp] theorem State.popped_outcome (s : State) (rest : List EnvEvent) : (s.popped rest).outcome = s.outcome := rfl
@[simp] theorem State.popped_pending (s : State) (rest : List EnvEvent) : (s.popped rest).pending = rest := rfl

/-! ### `State.latch` -/

@[simp] theorem State.latch_params (s : State) (sb : Sideband) : (s.latch sb).params = s.params := rfl
@[simp] theorem State.latch_cfg (s : State) (sb : Sideband) : (s.latch sb).cfg = s.cfg := rfl
@[simp] theorem State.latch_cfgError (s : State) (sb : Sideband) : (s.latch sb).cfgError = s.cfgError := rfl
@[simp] theorem State.latch_rows (s : State) (sb : Sideband) : (s.latch sb).rows = s.rows := rfl
@[simp] theorem State.latch_opCounter (s : State) (sb : Sideband) : (s.latch sb).opCounter = s.opCounter := rfl
@[simp] theorem State.latch_stat (s : State) (sb : Sideband) : (s.latch sb).stat = s.stat := rfl
@[simp] theorem State.latch_mem (s : State) (sb : Sideband) : (s.latch sb).mem = s.mem := rfl
@[simp] theorem State.latch_req (s : State) (sb : Sideband) : (s.latch sb).req = sb := rfl
@[simp] theorem State.latch_resp (s : State) (sb : Sideband) : (s.latch sb).resp = s.resp := rfl
@[simp] theorem State.latch_outcome (s : State) (sb : Sideband) : (s.latch sb).outcome = s.outcome := rfl
@[simp] theorem State.latch_pending (s : State) (sb : Sideband) : (s.latch sb).pending = s.pending := rfl

/-! ### `State.completed` -/

@[simp] theorem State.completed_params (s : State) (st : Stat) (n : Count) (r : Response) (o : OutcomeRecord) : (s.completed st n r o).params = s.params := rfl
@[simp] theorem State.completed_cfg (s : State) (st : Stat) (n : Count) (r : Response) (o : OutcomeRecord) : (s.completed st n r o).cfg = s.cfg := rfl
@[simp] theorem State.completed_cfgError (s : State) (st : Stat) (n : Count) (r : Response) (o : OutcomeRecord) : (s.completed st n r o).cfgError = s.cfgError := rfl
@[simp] theorem State.completed_rows (s : State) (st : Stat) (n : Count) (r : Response) (o : OutcomeRecord) : (s.completed st n r o).rows = s.rows := rfl
@[simp] theorem State.completed_opCounter (s : State) (st : Stat) (n : Count) (r : Response) (o : OutcomeRecord) : (s.completed st n r o).opCounter = n := rfl
@[simp] theorem State.completed_stat (s : State) (st : Stat) (n : Count) (r : Response) (o : OutcomeRecord) : (s.completed st n r o).stat = st := rfl
@[simp] theorem State.completed_mem (s : State) (st : Stat) (n : Count) (r : Response) (o : OutcomeRecord) : (s.completed st n r o).mem = s.mem := rfl
@[simp] theorem State.completed_req (s : State) (st : Stat) (n : Count) (r : Response) (o : OutcomeRecord) : (s.completed st n r o).req = s.req := rfl
@[simp] theorem State.completed_resp (s : State) (st : Stat) (n : Count) (r : Response) (o : OutcomeRecord) : (s.completed st n r o).resp = some r := rfl
@[simp] theorem State.completed_outcome (s : State) (st : Stat) (n : Count) (r : Response) (o : OutcomeRecord) : (s.completed st n r o).outcome = some o := rfl
@[simp] theorem State.completed_pending (s : State) (st : Stat) (n : Count) (r : Response) (o : OutcomeRecord) : (s.completed st n r o).pending = s.pending := rfl

/-! ### `State.afterReset` -/

@[simp] theorem State.afterReset_params (s : State) (c : Cfg) (e : Option ConfigError) : (s.afterReset c e).params = s.params := rfl
@[simp] theorem State.afterReset_cfg (s : State) (c : Cfg) (e : Option ConfigError) : (s.afterReset c e).cfg = c := rfl
@[simp] theorem State.afterReset_cfgError (s : State) (c : Cfg) (e : Option ConfigError) : (s.afterReset c e).cfgError = e := rfl
@[simp] theorem State.afterReset_rows (s : State) (c : Cfg) (e : Option ConfigError) : (s.afterReset c e).rows = [] := rfl
@[simp] theorem State.afterReset_opCounter (s : State) (c : Cfg) (e : Option ConfigError) : (s.afterReset c e).opCounter = 0#64 := rfl
@[simp] theorem State.afterReset_stat (s : State) (c : Cfg) (e : Option ConfigError) : (s.afterReset c e).stat = Stat.zero := rfl
@[simp] theorem State.afterReset_mem (s : State) (c : Cfg) (e : Option ConfigError) : (s.afterReset c e).mem = s.mem := rfl
@[simp] theorem State.afterReset_req (s : State) (c : Cfg) (e : Option ConfigError) : (s.afterReset c e).req = Sideband.empty := rfl
@[simp] theorem State.afterReset_resp (s : State) (c : Cfg) (e : Option ConfigError) : (s.afterReset c e).resp = none := rfl
@[simp] theorem State.afterReset_outcome (s : State) (c : Cfg) (e : Option ConfigError) : (s.afterReset c e).outcome = none := rfl
@[simp] theorem State.afterReset_pending (s : State) (c : Cfg) (e : Option ConfigError) : (s.afterReset c e).pending = s.pending := rfl

/-! ### `State.updateSlot` changes the slot array only -/

@[simp] theorem State.updateSlot_params (s : State) (i w : Nat) (f : Slot → Slot) : (s.updateSlot i w f).params = s.params := rfl
@[simp] theorem State.updateSlot_cfg (s : State) (i w : Nat) (f : Slot → Slot) : (s.updateSlot i w f).cfg = s.cfg := rfl
@[simp] theorem State.updateSlot_cfgError (s : State) (i w : Nat) (f : Slot → Slot) : (s.updateSlot i w f).cfgError = s.cfgError := rfl
@[simp] theorem State.updateSlot_opCounter (s : State) (i w : Nat) (f : Slot → Slot) : (s.updateSlot i w f).opCounter = s.opCounter := rfl
@[simp] theorem State.updateSlot_stat (s : State) (i w : Nat) (f : Slot → Slot) : (s.updateSlot i w f).stat = s.stat := rfl
@[simp] theorem State.updateSlot_mem (s : State) (i w : Nat) (f : Slot → Slot) : (s.updateSlot i w f).mem = s.mem := rfl
@[simp] theorem State.updateSlot_req (s : State) (i w : Nat) (f : Slot → Slot) : (s.updateSlot i w f).req = s.req := rfl
@[simp] theorem State.updateSlot_resp (s : State) (i w : Nat) (f : Slot → Slot) : (s.updateSlot i w f).resp = s.resp := rfl
@[simp] theorem State.updateSlot_outcome (s : State) (i w : Nat) (f : Slot → Slot) : (s.updateSlot i w f).outcome = s.outcome := rfl
@[simp] theorem State.updateSlot_pending (s : State) (i w : Nat) (f : Slot → Slot) : (s.updateSlot i w f).pending = s.pending := rfl

/-! ### `State.markDirty` changes the slot array only -/

@[simp] theorem State.markDirty_params (s : State) (i w : Nat) : (s.markDirty i w).params = s.params := rfl
@[simp] theorem State.markDirty_cfg (s : State) (i w : Nat) : (s.markDirty i w).cfg = s.cfg := rfl
@[simp] theorem State.markDirty_cfgError (s : State) (i w : Nat) : (s.markDirty i w).cfgError = s.cfgError := rfl
@[simp] theorem State.markDirty_opCounter (s : State) (i w : Nat) : (s.markDirty i w).opCounter = s.opCounter := rfl
@[simp] theorem State.markDirty_stat (s : State) (i w : Nat) : (s.markDirty i w).stat = s.stat := rfl
@[simp] theorem State.markDirty_mem (s : State) (i w : Nat) : (s.markDirty i w).mem = s.mem := rfl
@[simp] theorem State.markDirty_req (s : State) (i w : Nat) : (s.markDirty i w).req = s.req := rfl
@[simp] theorem State.markDirty_resp (s : State) (i w : Nat) : (s.markDirty i w).resp = s.resp := rfl
@[simp] theorem State.markDirty_outcome (s : State) (i w : Nat) : (s.markDirty i w).outcome = s.outcome := rfl
@[simp] theorem State.markDirty_pending (s : State) (i w : Nat) : (s.markDirty i w).pending = s.pending := rfl

/-! ### `State.touch` changes `rows` only -/

@[simp] theorem State.touch_params (s : State) (i w : Nat) : (s.touch i w).params = s.params := by
  unfold State.touch; split <;> rfl
@[simp] theorem State.touch_cfg (s : State) (i w : Nat) : (s.touch i w).cfg = s.cfg := by
  unfold State.touch; split <;> rfl
@[simp] theorem State.touch_cfgError (s : State) (i w : Nat) : (s.touch i w).cfgError = s.cfgError := by
  unfold State.touch; split <;> rfl
@[simp] theorem State.touch_opCounter (s : State) (i w : Nat) : (s.touch i w).opCounter = s.opCounter := by
  unfold State.touch; split <;> rfl
@[simp] theorem State.touch_stat (s : State) (i w : Nat) : (s.touch i w).stat = s.stat := by
  unfold State.touch; split <;> rfl
@[simp] theorem State.touch_mem (s : State) (i w : Nat) : (s.touch i w).mem = s.mem := by
  unfold State.touch; split <;> rfl
@[simp] theorem State.touch_req (s : State) (i w : Nat) : (s.touch i w).req = s.req := by
  unfold State.touch; split <;> rfl
@[simp] theorem State.touch_resp (s : State) (i w : Nat) : (s.touch i w).resp = s.resp := by
  unfold State.touch; split <;> rfl
@[simp] theorem State.touch_outcome (s : State) (i w : Nat) : (s.touch i w).outcome = s.outcome := by
  unfold State.touch; split <;> rfl
@[simp] theorem State.touch_pending (s : State) (i w : Nat) : (s.touch i w).pending = s.pending := by
  unfold State.touch; split <;> rfl

/-! ### `State.storeDatum` changes `rows` only -/

@[simp] theorem State.storeDatum_params (s : State) (i w o : Nat) : (s.storeDatum i w o).params = s.params := by
  unfold State.storeDatum; split <;> rfl
@[simp] theorem State.storeDatum_cfg (s : State) (i w o : Nat) : (s.storeDatum i w o).cfg = s.cfg := by
  unfold State.storeDatum; split <;> rfl
@[simp] theorem State.storeDatum_cfgError (s : State) (i w o : Nat) : (s.storeDatum i w o).cfgError = s.cfgError := by
  unfold State.storeDatum; split <;> rfl
@[simp] theorem State.storeDatum_opCounter (s : State) (i w o : Nat) : (s.storeDatum i w o).opCounter = s.opCounter := by
  unfold State.storeDatum; split <;> rfl
@[simp] theorem State.storeDatum_stat (s : State) (i w o : Nat) : (s.storeDatum i w o).stat = s.stat := by
  unfold State.storeDatum; split <;> rfl
@[simp] theorem State.storeDatum_mem (s : State) (i w o : Nat) : (s.storeDatum i w o).mem = s.mem := by
  unfold State.storeDatum; split <;> rfl
@[simp] theorem State.storeDatum_req (s : State) (i w o : Nat) : (s.storeDatum i w o).req = s.req := by
  unfold State.storeDatum; split <;> rfl
@[simp] theorem State.storeDatum_resp (s : State) (i w o : Nat) : (s.storeDatum i w o).resp = s.resp := by
  unfold State.storeDatum; split <;> rfl
@[simp] theorem State.storeDatum_outcome (s : State) (i w o : Nat) : (s.storeDatum i w o).outcome = s.outcome := by
  unfold State.storeDatum; split <;> rfl
@[simp] theorem State.storeDatum_pending (s : State) (i w o : Nat) : (s.storeDatum i w o).pending = s.pending := by
  unfold State.storeDatum; split <;> rfl

/-! ### `State.storeThrough` changes `mem` only -/

@[simp] theorem State.storeThrough_params (s : State) (a : Address) : (s.storeThrough a).params = s.params := by
  unfold State.storeThrough; split <;> rfl
@[simp] theorem State.storeThrough_cfg (s : State) (a : Address) : (s.storeThrough a).cfg = s.cfg := by
  unfold State.storeThrough; split <;> rfl
@[simp] theorem State.storeThrough_cfgError (s : State) (a : Address) : (s.storeThrough a).cfgError = s.cfgError := by
  unfold State.storeThrough; split <;> rfl
@[simp] theorem State.storeThrough_rows (s : State) (a : Address) : (s.storeThrough a).rows = s.rows := by
  unfold State.storeThrough; split <;> rfl
@[simp] theorem State.storeThrough_opCounter (s : State) (a : Address) : (s.storeThrough a).opCounter = s.opCounter := by
  unfold State.storeThrough; split <;> rfl
@[simp] theorem State.storeThrough_stat (s : State) (a : Address) : (s.storeThrough a).stat = s.stat := by
  unfold State.storeThrough; split <;> rfl
@[simp] theorem State.storeThrough_req (s : State) (a : Address) : (s.storeThrough a).req = s.req := by
  unfold State.storeThrough; split <;> rfl
@[simp] theorem State.storeThrough_resp (s : State) (a : Address) : (s.storeThrough a).resp = s.resp := by
  unfold State.storeThrough; split <;> rfl
@[simp] theorem State.storeThrough_outcome (s : State) (a : Address) : (s.storeThrough a).outcome = s.outcome := by
  unfold State.storeThrough; split <;> rfl
@[simp] theorem State.storeThrough_pending (s : State) (a : Address) : (s.storeThrough a).pending = s.pending := by
  unfold State.storeThrough; split <;> rfl

/-! ### `State.writeBack` changes `mem` only -/

@[simp] theorem State.writeBack_params (s : State) (i : Nat) (v : Slot) : (s.writeBack i v).params = s.params := by
  unfold State.writeBack; split <;> rfl
@[simp] theorem State.writeBack_cfg (s : State) (i : Nat) (v : Slot) : (s.writeBack i v).cfg = s.cfg := by
  unfold State.writeBack; split <;> rfl
@[simp] theorem State.writeBack_cfgError (s : State) (i : Nat) (v : Slot) : (s.writeBack i v).cfgError = s.cfgError := by
  unfold State.writeBack; split <;> rfl
@[simp] theorem State.writeBack_rows (s : State) (i : Nat) (v : Slot) : (s.writeBack i v).rows = s.rows := by
  unfold State.writeBack; split <;> rfl
@[simp] theorem State.writeBack_opCounter (s : State) (i : Nat) (v : Slot) : (s.writeBack i v).opCounter = s.opCounter := by
  unfold State.writeBack; split <;> rfl
@[simp] theorem State.writeBack_stat (s : State) (i : Nat) (v : Slot) : (s.writeBack i v).stat = s.stat := by
  unfold State.writeBack; split <;> rfl
@[simp] theorem State.writeBack_req (s : State) (i : Nat) (v : Slot) : (s.writeBack i v).req = s.req := by
  unfold State.writeBack; split <;> rfl
@[simp] theorem State.writeBack_resp (s : State) (i : Nat) (v : Slot) : (s.writeBack i v).resp = s.resp := by
  unfold State.writeBack; split <;> rfl
@[simp] theorem State.writeBack_outcome (s : State) (i : Nat) (v : Slot) : (s.writeBack i v).outcome = s.outcome := by
  unfold State.writeBack; split <;> rfl
@[simp] theorem State.writeBack_pending (s : State) (i : Nat) (v : Slot) : (s.writeBack i v).pending = s.pending := by
  unfold State.writeBack; split <;> rfl

/-! ### Rows of an updated state -/

@[simp] theorem State.row_setMem (s : State) (m : List Host.Cell) (i : Nat) : (s.setMem m).row i = s.row i := rfl
@[simp] theorem State.row_popped (s : State) (r : List EnvEvent) (i : Nat) : (s.popped r).row i = s.row i := rfl
@[simp] theorem State.row_latch (s : State) (sb : Sideband) (i : Nat) : (s.latch sb).row i = s.row i := rfl
@[simp] theorem State.row_completed (s : State) (st : Stat) (n : Count) (r : Response) (o : OutcomeRecord) (i : Nat) :
    (s.completed st n r o).row i = s.row i := rfl
@[simp] theorem State.row_afterReset (s : State) (c : Cfg) (e : Option ConfigError) (i : Nat) :
    (s.afterReset c e).row i = freeRow c := rfl
@[simp] theorem State.row_storeThrough (s : State) (a : Address) (i : Nat) : (s.storeThrough a).row i = s.row i := by
  unfold State.storeThrough; split <;> rfl
@[simp] theorem State.row_writeBack (s : State) (i : Nat) (v : Slot) (j : Nat) : (s.writeBack i v).row j = s.row j := by
  unfold State.writeBack; split <;> rfl
@[simp] theorem State.slot_def (s : State) (i w : Nat) : s.slot i w = slotAt (s.row i) w := rfl

end Sys2Proof.Machine
end

