-- ==== Sys2Proof/Laws/Memory.lean ====
section
/-! SUPPORT. The backing memory: what a read gives after a write, byte and sequence, and the canonical form kept. -/

namespace Sys2Proof.Machine

variable {m : List Host.Cell}

theorem Memory.wf_iff : Memory.wf m = true ↔ Sparse.wf Memory.unlisted m = true ∧ ∀ e ∈ m, e.1 < 2 ^ 32 := by
  simp [Memory.wf]

theorem Memory.wf_nil : Memory.wf [] = true := rfl

theorem Memory.wf_write (h : Memory.wf m = true) (a : Address) (b : Byte) : Memory.wf (Memory.write m a b) = true := by
  obtain ⟨h1, h2⟩ := Memory.wf_iff.1 h
  refine Memory.wf_iff.2 ⟨Sparse.wf_write h1 _ _, fun e he => ?_⟩
  rcases Sparse.mem_write he with rfl | he
  · exact a.isLt
  · exact h2 e he

theorem Memory.wf_writeBytes (h : Memory.wf m = true) (a : Address) (bs : List Byte) :
    Memory.wf (Memory.writeBytes m a bs) = true := by
  induction bs generalizing m a with
  | nil => exact h
  | cons b bs ih => exact ih (Memory.wf_write h a b) (a + 1#32)

theorem Memory.read_write (h : Memory.wf m = true) (a : Address) (b : Byte) (x : Address) :
    Memory.read (Memory.write m a b) x = if x = a then b else Memory.read m x := by
  unfold Memory.read Memory.write
  rw [Sparse.read_write (Memory.wf_iff.1 h).1]
  simp [BitVec.toNat_inj]

/-- One step on from the address: the distance shrinks by one, or was zero. -/
theorem distance_succ (x a : Address) :
    (x - (a + 1#32)).toNat = if x = a then 2 ^ 32 - 1 else (x - a).toNat - 1 := by
  by_cases h : x = a
  · subst h; simp
  · simp only [h, if_false]
    bv_omega

theorem distance_eq_zero (x a : Address) : (x - a).toNat = 0 ↔ x = a := by
  constructor
  · intro h; bv_omega
  · rintro rfl; simp

/-- A sequence written reads back byte by byte, and every other address reads as before. -/
theorem Memory.read_writeBytes (h : Memory.wf m = true) (a : Address) (bs : List Byte) (hl : bs.length ≤ 2 ^ 32)
    (x : Address) :
    Memory.read (Memory.writeBytes m a bs) x =
      if (x - a).toNat < bs.length then bs.getD (x - a).toNat 0#8 else Memory.read m x := by
  induction bs generalizing m a with
  | nil => simp [Memory.writeBytes]
  | cons b bs ih =>
    simp only [List.length_cons] at hl ⊢
    rw [Memory.writeBytes, ih (Memory.wf_write h a b) _ (by omega), distance_succ, Memory.read_write h]
    by_cases hx : x = a
    · subst hx
      have : ¬(2 ^ 32 - 1 < bs.length) := by omega
      simp only [if_true, if_neg this]
      simp
    · have hd : (x - a).toNat ≠ 0 := fun h => hx ((distance_eq_zero x a).1 h)
      obtain ⟨d, hd⟩ := Nat.exists_eq_succ_of_ne_zero hd
      rw [hd]
      simp [hx]

@[simp] theorem Memory.readBytes_length (a : Address) (n : Nat) : (Memory.readBytes m a n).length = n := by
  induction n generalizing a with
  | zero => rfl
  | succ n ih => simp [Memory.readBytes, ih]

/-- Byte `k` of a sequence read is the byte at address `a + k`. -/
theorem Memory.readBytes_getD (a : Address) (n k : Nat) (hk : k < n) :
    (Memory.readBytes m a n).getD k 0#8 = Memory.read m (a + BitVec.ofNat 32 k) := by
  induction n generalizing a k with
  | zero => omega
  | succ n ih =>
    cases k with
    | zero => simp [Memory.readBytes]
    | succ k =>
      rw [Memory.readBytes, List.getD_cons_succ, ih _ _ (by omega)]
      congr 1
      rw [BitVec.add_assoc]
      congr 1
      apply BitVec.eq_of_toNat_eq
      simp [Nat.add_comm]

/-- Two memories that agree on the bytes of a sequence give the same sequence. -/
theorem Memory.readBytes_congr {m' : List Host.Cell} (a : Address) (n : Nat)
    (h : ∀ k < n, Memory.read m (a + BitVec.ofNat 32 k) = Memory.read m' (a + BitVec.ofNat 32 k)) :
    Memory.readBytes m a n = Memory.readBytes m' a n := by
  apply List.ext_getElem (by simp)
  intro k h1 h2
  have hk : k < n := by simpa using h1
  have e1 := Memory.readBytes_getD (m := m) a n k hk
  have e2 := Memory.readBytes_getD (m := m') a n k hk
  rw [List.getD_eq_getElem _ _ h1] at e1
  rw [List.getD_eq_getElem _ _ h2] at e2
  rw [e1, e2, h k hk]

end Sys2Proof.Machine
end

