-- ==== Sys2Proof/Laws/Rows.lean ====
section
/-! SUPPORT. Rows: slots after an update, LOOKUP, the occupied slots, the victim scans, and the ranks after a touch or an
install. -/

namespace Sys2Proof.Machine

/-! ### Slots of a row -/

theorem slotAt_eq_getElem {row : List Slot} {w : Nat} (h : w < row.length) : slotAt row w = row[w] :=
  List.getD_eq_getElem _ _ h

theorem slotAt_of_le {row : List Slot} {w : Nat} (h : row.length ≤ w) : slotAt row w = Slot.free :=
  List.getD_eq_default _ _ h

theorem slotAt_mem {row : List Slot} {w : Nat} (h : w < row.length) : slotAt row w ∈ row := by
  rw [slotAt_eq_getElem h]; exact List.getElem_mem h

theorem lt_of_valid {row : List Slot} {w : Nat} (h : (slotAt row w).valid = true) : w < row.length := by
  by_contra hle
  rw [slotAt_of_le (by omega)] at h
  cases h

theorem slotAt_set {row : List Slot} {w j : Nat} {x : Slot} :
    slotAt (row.set w x) j = if j = w ∧ w < row.length then x else slotAt row j := by
  unfold slotAt
  by_cases h : j = w
  · subst h
    by_cases hl : j < row.length
    · simp [hl, List.getD_eq_getElem?_getD]
    · simp [hl, List.getD_eq_getElem?_getD]
  · simp [h, List.getD_eq_getElem?_getD, List.getElem?_set_ne (Ne.symm h)]

theorem slotAt_mapIdx {row : List Slot} {f : Nat → Slot → Slot} {j : Nat} (h : j < row.length) :
    slotAt (row.mapIdx f) j = f j (slotAt row j) := by
  rw [slotAt_eq_getElem (by simpa using h), slotAt_eq_getElem h, List.getElem_mapIdx]

@[simp] theorem slotAt_freeRow (c : Cfg) (w : Nat) : slotAt (freeRow c) w = Slot.free := by
  unfold slotAt freeRow
  by_cases h : w < c.ways <;> simp [List.getD_eq_getElem?_getD, h]

/-- Two rows of one length with the same slots are the same. -/
theorem row_ext {row row' : List Slot} (hl : row.length = row'.length)
    (h : ∀ j < row.length, slotAt row j = slotAt row' j) : row = row' := by
  apply List.ext_getElem hl
  intro j h1 h2
  rw [← slotAt_eq_getElem h1, ← slotAt_eq_getElem h2, h j h1]

/-! ### Rows of the state -/

/-- In a canonical slot array the row written reads back and every other row is as before. -/
theorem State.row_setRow {s : State} (h : Sparse.wf (freeRow s.cfg) s.rows = true) (i : Nat) (row : List Slot) (j : Nat) :
    (s.setRow i row).row j = if j = i then row else s.row j := by
  unfold State.row
  exact Sparse.read_write h i row j

theorem State.rowsCanonical_setRow {s : State} (h : Sparse.wf (freeRow s.cfg) s.rows = true) (i : Nat)
    (row : List Slot) : Sparse.wf (freeRow (s.setRow i row).cfg) (s.setRow i row).rows = true :=
  Sparse.wf_write h i row

/-! ### LOOKUP (41_cache_store.md R141) -/

/-- LOOKUP finds the first occupied slot with the tag. -/
theorem lookup_eq_some {row : List Slot} {t : Tag} {w : Nat} :
    lookup row t = some w ↔
      w < row.length ∧ (slotAt row w).valid = true ∧ (slotAt row w).tag = t ∧
      ∀ j < w, ¬((slotAt row j).valid = true ∧ (slotAt row j).tag = t) := by
  unfold lookup
  rw [List.findIdx?_eq_some_iff_getElem]
  constructor
  · rintro ⟨h, hp, hj⟩
    simp only [Bool.and_eq_true, decide_eq_true_eq] at hp
    refine ⟨h, by rw [slotAt_eq_getElem h]; exact hp.1, by rw [slotAt_eq_getElem h]; exact hp.2, fun j hjw hv => ?_⟩
    rw [slotAt_eq_getElem (by omega)] at hv
    have := hj j hjw
    simp [hv.1, hv.2] at this
  · rintro ⟨h, hv, ht, hj⟩
    refine ⟨h, ?_, fun j hjw => ?_⟩
    · rw [slotAt_eq_getElem h] at hv ht; simp [hv, ht]
    · have := hj j hjw
      rw [slotAt_eq_getElem (by omega)] at this
      simpa using this

/-- LOOKUP finds nothing exactly when no occupied slot holds the tag. -/
theorem lookup_eq_none {row : List Slot} {t : Tag} :
    lookup row t = none ↔ ∀ sl ∈ row, ¬(sl.valid = true ∧ sl.tag = t) := by
  unfold lookup
  rw [List.findIdx?_eq_none_iff]
  simp

theorem lookup_eq_none_iff_heldTags {row : List Slot} {t : Tag} : lookup row t = none ↔ t ∉ heldTags row := by
  rw [lookup_eq_none]
  unfold heldTags occupiedSlots
  simp only [List.mem_map, List.mem_filter, not_exists, not_and]
  constructor
  · intro h sl hsl ht; exact h sl hsl.1 hsl.2 ht
  · intro h sl hsl hv ht; exact h sl ⟨hsl, hv⟩ ht

/-! ### Occupied slots -/

@[simp] theorem occupied_eq_length (row : List Slot) : occupied row = (occupiedSlots row).length := by
  unfold occupied occupiedSlots; exact List.countP_eq_length_filter

theorem mem_occupiedSlots {row : List Slot} {sl : Slot} : sl ∈ occupiedSlots row ↔ sl ∈ row ∧ sl.valid = true := by
  unfold occupiedSlots; simp

@[simp] theorem occupiedSlots_freeRow (c : Cfg) : occupiedSlots (freeRow c) = [] := by
  unfold occupiedSlots freeRow
  rw [List.filter_eq_nil_iff]
  intro sl hsl
  rw [List.eq_of_mem_replicate hsl]
  simp [Slot.free]

theorem occupiedSlots_length_le (row : List Slot) : (occupiedSlots row).length ≤ row.length := by
  unfold occupiedSlots; exact List.length_filter_le _ _

/-- With the occupied slots first, they are the first `n_s` slots. -/
theorem occupiedSlots_eq_take {row : List Slot} (h : occupiedFirst row = true) :
    occupiedSlots row = row.take (occupiedSlots row).length := by
  induction row with
  | nil => rfl
  | cons x row ih =>
    by_cases hx : x.valid = true
    · have h' : occupiedFirst row = true := by simpa [occupiedFirst, hx] using h
      have : occupiedSlots (x :: row) = x :: occupiedSlots row := by simp [occupiedSlots, hx]
      rw [this, List.length_cons, List.take_succ_cons, ← ih h']
    · have hall : ∀ sl ∈ x :: row, sl.valid = false := by
        simpa [occupiedFirst, hx] using h
      have : occupiedSlots (x :: row) = [] := by
        unfold occupiedSlots
        rw [List.filter_eq_nil_iff]
        intro sl hsl; simp [hall sl hsl]
      rw [this]; rfl

/-- With the occupied slots first, a slot is occupied exactly below `n_s` (10_state.md R32). -/
theorem valid_iff_lt_occupied {row : List Slot} (h : occupiedFirst row = true) (w : Nat) :
    (slotAt row w).valid = true ↔ w < (occupiedSlots row).length := by
  induction row generalizing w with
  | nil => simp [slotAt, occupiedSlots, Slot.free]
  | cons x row ih =>
    by_cases hx : x.valid = true
    · have h' : occupiedFirst row = true := by simpa [occupiedFirst, hx] using h
      have : occupiedSlots (x :: row) = x :: occupiedSlots row := by simp [occupiedSlots, hx]
      rw [this, List.length_cons]
      cases w with
      | zero => simp [slotAt, hx]
      | succ w => simpa [slotAt] using ih h' w
    · have hall : ∀ sl ∈ x :: row, sl.valid = false := by
        simpa [occupiedFirst, hx] using h
      have : occupiedSlots (x :: row) = [] := by
        unfold occupiedSlots
        rw [List.filter_eq_nil_iff]
        intro sl hsl; simp [hall sl hsl]
      rw [this]
      simp only [List.length_nil, Nat.not_lt_zero, iff_false]
      intro hv
      have := hall _ (slotAt_mem (lt_of_valid hv))
      rw [this] at hv; cases hv

/-- The converse: slots occupied exactly below some number stand first. -/
theorem occupiedFirst_of_valid_iff {row : List Slot} {n : Nat}
    (h : ∀ w < row.length, (slotAt row w).valid = true ↔ w < n) : occupiedFirst row = true := by
  induction row generalizing n with
  | nil => rfl
  | cons x row ih =>
    by_cases hx : x.valid = true
    · have h' : occupiedFirst row = true := by
        apply ih (n := n - 1)
        intro w hw
        have := h (w + 1) (by simpa using hw)
        simp only [slotAt, List.getD_cons_succ] at this ⊢
        rw [this]; omega
      simpa [occupiedFirst, hx] using h'
    · have h0 := h 0 (by simp)
      have hn : n = 0 := by
        by_contra hn
        have : x.valid = true := by simpa [slotAt] using h0.2 (by omega)
        exact hx this
      have hall : ∀ sl ∈ x :: row, sl.valid = false := by
        intro sl hsl
        obtain ⟨w, hw, rfl⟩ := List.getElem_of_mem hsl
        have := h w hw
        rw [slotAt_eq_getElem hw] at this
        simp [hn] at this
        simpa using this
      simp only [occupiedFirst, List.dropWhile, hx, List.all_eq_true]
      intro sl hsl
      simp [hall sl hsl]

/-- A full row: every slot is occupied. -/
theorem valid_of_full {row : List Slot} (h : (occupiedSlots row).length = row.length) {sl : Slot} (hsl : sl ∈ row) :
    sl.valid = true := by
  unfold occupiedSlots at h
  exact List.length_filter_eq_length_iff.1 h sl hsl

/-- What a map of the slots that keeps `valid` does to the values read off the occupied ones. -/
theorem map_occupiedSlots_mapIdx {β : Type} (row : List Slot) (f : Nat → Slot → Slot) (g g' : Slot → β)
    (h : ∀ j < row.length, (f j (slotAt row j)).valid = (slotAt row j).valid ∧
      ((slotAt row j).valid = true → g' (f j (slotAt row j)) = g (slotAt row j))) :
    (occupiedSlots (row.mapIdx f)).map g' = (occupiedSlots row).map g := by
  induction row generalizing f with
  | nil => rfl
  | cons x row ih =>
    have h0 := h 0 (by simp)
    have hx : slotAt (x :: row) 0 = x := rfl
    rw [hx] at h0
    have ht := ih (fun j => f (j + 1)) fun j hj => by
      have := h (j + 1) (by simpa using hj)
      simpa [slotAt] using this
    rw [List.mapIdx_cons]
    by_cases hv : x.valid = true
    · have e1 : occupiedSlots (x :: row) = x :: occupiedSlots row := by simp [occupiedSlots, hv]
      have e2 : occupiedSlots (f 0 x :: row.mapIdx fun j => f (j + 1)) =
          f 0 x :: occupiedSlots (row.mapIdx fun j => f (j + 1)) := by simp [occupiedSlots, h0.1, hv]
      rw [e1, e2, List.map_cons, List.map_cons, ht, h0.2 hv]
    · have e1 : occupiedSlots (x :: row) = occupiedSlots row := by simp [occupiedSlots, hv]
      have e2 : occupiedSlots (f 0 x :: row.mapIdx fun j => f (j + 1)) =
          occupiedSlots (row.mapIdx fun j => f (j + 1)) := by simp [occupiedSlots, h0.1, hv]
      rw [e1, e2, ht]

/-- Setting one slot is a map of the slots. -/
theorem set_eq_mapIdx (row : List Slot) (w : Nat) (x : Slot) :
    row.set w x = row.mapIdx fun j sl => if j = w then x else sl := by
  apply row_ext (by simp)
  intro j hj
  have hj' : j < row.length := by simpa using hj
  rw [slotAt_mapIdx hj', slotAt_set]
  by_cases h : j = w
  · subst h; simp [hj']
  · simp [h]

/-- Setting one slot after a map of the slots is a map of the slots. -/
theorem mapIdx_set (row : List Slot) (f : Nat → Slot → Slot) (w : Nat) (x : Slot) :
    (row.mapIdx f).set w x = row.mapIdx fun j sl => if j = w then x else f j sl := by
  apply row_ext (by simp)
  intro j hj
  have hj' : j < row.length := by simpa using hj
  rw [slotAt_mapIdx hj', slotAt_set, slotAt_mapIdx hj']
  by_cases h : j = w
  · subst h; simp [hj']
  · simp [h]

/-- Setting the first free slot to an occupied one adds it behind the occupied ones. -/
theorem occupiedSlots_set_free {row : List Slot} (h : occupiedFirst row = true) {x : Slot} (hx : x.valid = true)
    (hroom : (occupiedSlots row).length < row.length) :
    occupiedSlots (row.set (occupiedSlots row).length x) = occupiedSlots row ++ [x] := by
  induction row with
  | nil => simp at hroom
  | cons y row ih =>
    by_cases hy : y.valid = true
    · have h' : occupiedFirst row = true := by simpa [occupiedFirst, hy] using h
      have e : occupiedSlots (y :: row) = y :: occupiedSlots row := by simp [occupiedSlots, hy]
      rw [e] at hroom ⊢
      rw [List.length_cons, List.set_cons_succ]
      have e2 : occupiedSlots (y :: row.set (occupiedSlots row).length x) =
          y :: occupiedSlots (row.set (occupiedSlots row).length x) := by simp [occupiedSlots, hy]
      rw [e2, ih h' (by simpa using hroom), List.cons_append]
    · have hall : ∀ sl ∈ y :: row, sl.valid = false := by
        simpa [occupiedFirst, hy] using h
      have e : occupiedSlots (y :: row) = [] := by
        unfold occupiedSlots
        rw [List.filter_eq_nil_iff]
        intro sl hsl; simp [hall sl hsl]
      have e' : row.filter (fun sl => sl.valid) = [] := by
        rw [List.filter_eq_nil_iff]
        intro sl hsl; simp [hall sl (by simp [hsl])]
      rw [e]
      simp [occupiedSlots, hx, e']

/-! ### The victim scans (42_eviction_policy.md R173, R176) -/

/-- A scan for the largest `key`, strictly larger winning, from a best so far: the result is a number scanned or the best so
far, nothing exceeds it, and whatever comes before it is smaller. `at` gives the slot of a number. -/
theorem scanBest_spec (key : Slot → Nat) (better : Slot → Slot → Bool)
    (hb : ∀ x b, better x b = true ↔ key b < key x) (all : List Slot) :
    ∀ (row : List Slot) (i best : Nat) (b : Slot),
      row = all.drop i → best < i → i ≤ all.length → slotAt all best = b →
      (∀ j < i, key (slotAt all j) ≤ key b) → (∀ j < best, key (slotAt all j) < key b) →
      let r := scanBest better row i best b
      r < all.length ∧ (∀ j < all.length, key (slotAt all j) ≤ key (slotAt all r)) ∧
        ∀ j < r, key (slotAt all j) < key (slotAt all r) := by
  intro row
  induction row with
  | nil =>
    intro i best b hrow hbi hi hbest hle hlt
    have hlen : i = all.length := by
      have := congrArg List.length hrow
      simp at this; omega
    subst hlen
    simp only [scanBest]
    rw [hbest]
    exact ⟨hbi, hle, hlt⟩
  | cons x row ih =>
    intro i best b hrow hbi hi hbest hle hlt
    have hil : i < all.length := by
      have := congrArg List.length hrow
      simp at this; omega
    have hx : slotAt all i = x := by
      rw [slotAt_eq_getElem hil]
      have := List.drop_eq_getElem_cons hil
      rw [this] at hrow
      exact (List.cons.inj hrow).1.symm
    have hrest : row = all.drop (i + 1) := by
      have := List.drop_eq_getElem_cons hil
      rw [this] at hrow
      exact (List.cons.inj hrow).2
    simp only [scanBest]
    by_cases hbx : better x b = true
    · have hkey := (hb x b).1 hbx
      simp only [hbx, if_true]
      refine ih (i + 1) i x hrest (by omega) hil hx ?_ ?_
      · intro j hj
        by_cases hji : j = i
        · subst hji; rw [hx]
        · exact le_of_lt (lt_of_le_of_lt (hle j (by omega)) hkey)
      · intro j hj
        exact lt_of_le_of_lt (hle j hj) hkey
    · simp only [hbx]
      have hnot : ¬ key b < key x := fun h => hbx ((hb x b).2 h)
      refine ih (i + 1) best b hrest (by omega) hil hbest ?_ hlt
      intro j hj
      by_cases hji : j = i
      · subst hji; rw [hx]; omega
      · exact hle j (by omega)

/-- The same over a whole row that is not empty. -/
theorem firstBest_spec (key : Slot → Nat) (better : Slot → Slot → Bool)
    (hb : ∀ x b, better x b = true ↔ key b < key x) {row : List Slot} (h : row ≠ []) :
    firstBest better row < row.length ∧
      (∀ j < row.length, key (slotAt row j) ≤ key (slotAt row (firstBest better row))) ∧
      ∀ j < firstBest better row, key (slotAt row j) < key (slotAt row (firstBest better row)) := by
  cases row with
  | nil => exact absurd rfl h
  | cons x row =>
    exact scanBest_spec key better hb (x :: row) row 1 0 x rfl (by omega) (by simp) rfl
      (fun j hj => by have : j = 0 := by omega
                      subst this; exact le_refl _)
      (fun j hj => by omega)

theorem victimLru_lt {row : List Slot} (h : row ≠ []) : victimLru row < row.length :=
  (firstBest_spec (fun sl => sl.accessSeq.toNat) _ (fun x b => by simp [BitVec.lt_def]) h).1

theorem victimFifo_lt {row : List Slot} (h : row ≠ []) : victimFifo row < row.length :=
  (firstBest_spec (fun sl => 2 ^ 32 - sl.loadSeq.toNat) _
    (fun x b => by
      simp only [decide_eq_true_eq, BitVec.lt_def]
      have := x.loadSeq.isLt; have := b.loadSeq.isLt; omega) h).1

/-! ### Ranks (10_state.md R34) -/

/-- What a touch of rank `r` does to a rank (42_eviction_policy.md R170). -/
def bumpRank (r x : Nat) : Nat := if x = r then 0 else if x < r then x + 1 else x

/-- A touch permutes the ranks `0 .. n-1`. -/
theorem bumpRank_perm {r n : Nat} (h : r < n) : ((List.range n).map (bumpRank r)).Perm (List.range n) := by
  have hnd : ((List.range n).map (bumpRank r)).Nodup := by
    refine List.Nodup.map_on ?_ List.nodup_range
    intro x hx y hy hxy
    simp only [List.mem_range] at hx hy
    unfold bumpRank at hxy
    split_ifs at hxy <;> omega
  refine (List.subperm_of_subset hnd ?_).perm_of_length_le (by simp)
  intro x hx
  obtain ⟨y, hy, rfl⟩ := List.mem_map.1 hx
  simp only [List.mem_range] at hy ⊢
  unfold bumpRank
  split_ifs <;> omega

/-- Dense ranks are below the number of blocks. -/
theorem rank_lt {row : List Slot} (h : (ranks row).Perm (List.range (occupied row))) {sl : Slot}
    (hsl : sl ∈ occupiedSlots row) : sl.accessSeq.toNat < (occupiedSlots row).length := by
  have : sl.accessSeq.toNat ∈ ranks row := List.mem_map.2 ⟨sl, hsl, rfl⟩
  have := h.mem_iff.1 this
  simpa using this

/-- Values read off the occupied slots without repeats tell the occupied slots' numbers apart. -/
theorem slot_injective {β : Type} {row : List Slot} {g : Slot → β} (h : ((occupiedSlots row).map g).Nodup) {j k : Nat}
    (hj : (slotAt row j).valid = true) (hk : (slotAt row k).valid = true) (he : g (slotAt row j) = g (slotAt row k)) :
    j = k := by
  induction row generalizing j k with
  | nil => have := lt_of_valid hj; simp at this
  | cons x row ih =>
    by_cases hx : x.valid = true
    · have e : occupiedSlots (x :: row) = x :: occupiedSlots row := by simp [occupiedSlots, hx]
      rw [e, List.map_cons, List.nodup_cons] at h
      cases j with
      | zero =>
        cases k with
        | zero => rfl
        | succ k =>
          exfalso; apply h.1
          simp only [slotAt, List.getD_cons_succ, List.getD_cons_zero] at he hk
          rw [he]
          exact List.mem_map.2 ⟨slotAt row k, mem_occupiedSlots.2 ⟨slotAt_mem (lt_of_valid hk), hk⟩, rfl⟩
      | succ j =>
        cases k with
        | zero =>
          exfalso; apply h.1
          simp only [slotAt, List.getD_cons_succ, List.getD_cons_zero] at he hj
          rw [← he]
          exact List.mem_map.2 ⟨slotAt row j, mem_occupiedSlots.2 ⟨slotAt_mem (lt_of_valid hj), hj⟩, rfl⟩
        | succ k =>
          simp only [slotAt, List.getD_cons_succ] at he hj hk
          rw [ih h.2 hj hk he]
    · have e : occupiedSlots (x :: row) = occupiedSlots row := by simp [occupiedSlots, hx]
      rw [e] at h
      cases j with
      | zero => exact absurd hj hx
      | succ j =>
        cases k with
        | zero => exact absurd hk hx
        | succ k =>
          simp only [slotAt, List.getD_cons_succ] at he hj hk
          rw [ih h hj hk he]

theorem ranks_nodup {row : List Slot} (h : (ranks row).Perm (List.range (occupied row))) : (ranks row).Nodup :=
  h.nodup_iff.2 List.nodup_range

/-- A rank one older, as a number, while the ranks are dense. -/
theorem aged_toNat {sl : Slot} {n : Nat} (h : sl.accessSeq.toNat < n) (hn : n ≤ 2 ^ 31) :
    sl.aged.accessSeq.toNat = sl.accessSeq.toNat + 1 := by
  simp only [Slot.aged, BitVec.toNat_add]
  apply Nat.mod_eq_of_lt
  have : (1#32).toNat = 1 := rfl
  omega

@[simp] theorem touchRow_length (row : List Slot) (w : Nat) : (touchRow row w).length = row.length := by simp [touchRow]
@[simp] theorem ageFirst_length (n : Nat) (row : List Slot) : (ageFirst n row).length = row.length := by simp [ageFirst]
@[simp] theorem ageYounger_length (w : Nat) (row : List Slot) : (ageYounger w row).length = row.length := by
  simp [ageYounger]

/-- The ranks after TOUCH are those before with the touched one moved to the front. -/
theorem ranks_touchRow {row : List Slot} {w : Nat} (h : (ranks row).Perm (List.range (occupied row)))
    (hw : (slotAt row w).valid = true) (hn : occupied row ≤ 2 ^ 31) :
    ranks (touchRow row w) = (ranks row).map (bumpRank (slotAt row w).accessSeq.toNat) := by
  unfold ranks
  rw [List.map_map]
  refine map_occupiedSlots_mapIdx _ _ _ _ fun j hj => ?_
  by_cases hjw : j = w
  · subst hjw
    simp [bumpRank]
  · simp only [hjw, if_false]
    constructor
    · split <;> rfl
    · intro hv
      have hne : (slotAt row j).accessSeq.toNat ≠ (slotAt row w).accessSeq.toNat := fun he =>
        hjw (slot_injective (ranks_nodup h) hv hw he)
      have hlt := rank_lt h (mem_occupiedSlots.2 ⟨slotAt_mem hj, hv⟩)
      rw [occupied_eq_length] at hn
      simp only [Function.comp, bumpRank, hv, hne, if_false, Bool.true_and, decide_eq_true_eq, BitVec.lt_def]
      split
      · exact aged_toNat hlt hn
      · rfl

/-- TOUCH keeps the ranks dense (10_state.md R34, 42_eviction_policy.md R170). -/
theorem touchRow_dense {row : List Slot} {w : Nat} (h : (ranks row).Perm (List.range (occupied row)))
    (hw : (slotAt row w).valid = true) (hn : occupied row ≤ 2 ^ 31) :
    (ranks (touchRow row w)).Perm (List.range (occupied (touchRow row w))) := by
  have hlen : occupied (touchRow row w) = occupied row := by
    have := congrArg List.length (ranks_touchRow h hw hn)
    simpa [ranks] using this
  rw [ranks_touchRow h hw hn, hlen]
  refine (h.map _).trans (bumpRank_perm ?_)
  simpa using rank_lt h (mem_occupiedSlots.2 ⟨slotAt_mem (lt_of_valid hw), hw⟩)

end Sys2Proof.Machine
end

