-- ==== Sys2Proof/Laws/Effects.lean ====
section
/-! SUPPORT. One lemma for each shared operation of LOAD and STORE, saying all it can do: the counters, the end of an
operation, when a request is served, the installs, and the data actions. -/

namespace Sys2Proof.Machine

/-! ### Counters -/

theorem addCount_of_fit {m : OnOverflow} {c : Count} {n : Nat} (h : c.toNat + n < 2 ^ 64) :
    addCount m c n = some (c + BitVec.ofNat 64 n) := by
  unfold addCount
  rw [if_pos h]
  congr 1
  apply BitVec.eq_of_toNat_eq
  simp

theorem addCount_refuse {c x : Count} {n : Nat} :
    addCount .refuse c n = some x ↔ c.toNat + n < 2 ^ 64 ∧ x = c + BitVec.ofNat 64 n := by
  by_cases h : c.toNat + n < 2 ^ 64
  · rw [addCount_of_fit h, Option.some_inj]
    exact ⟨fun he => ⟨h, he.symm⟩, fun he => he.2.symm⟩
  · have : addCount .refuse c n = none := by unfold addCount; rw [if_neg h]
    rw [this]
    exact ⟨fun he => (by cases he), fun he => absurd he.1 h⟩

theorem addCount_toNat {c : Count} {n : Nat} (h : c.toNat + n < 2 ^ 64) :
    (c + BitVec.ofNat 64 n).toNat = c.toNat + n := by
  rw [BitVec.toNat_add, BitVec.toNat_ofNat, Nat.add_mod_mod]
  exact Nat.mod_eq_of_lt h

/-! ### The end of an operation -/

/-- Where the counters fit, the operation completes, with the statistics the rules give. -/
theorem complete_of_fit {k : Kind} {d : Decoded} {hit : Bool} {rdata : Option (List Byte)} {e : Effect}
    (h : CountersFit k hit e.cost e.st) :
    complete k d hit rdata e = .next (e.st.completed (e.st.stat.after k hit e.cost) (e.st.opCounter + 1#64)
      { hit := hit, rdata := rdata } (e.record d hit)) := by
  obtain ⟨h1, h2, h3⟩ := h
  unfold complete charge
  simp only [addCount_of_fit h3, addCount_of_fit h1, Option.map_some, Option.bind_some]
  cases k <;> cases hit <;> simp only [Stat.counter] at h2 <;>
    simp only [countOutcome, addCount_of_fit h2, Option.map_some] <;> rfl

/-- What completing can do: refuse for a counter, or put the counters, the response and the record in place. -/
theorem complete_cases (k : Kind) (d : Decoded) (hit : Bool) (rdata : Option (List Byte)) (e : Effect) :
    complete k d hit rdata e = .refused .counterOverflow ∨
    ∃ st n, complete k d hit rdata e = .next (e.st.completed st n { hit := hit, rdata := rdata } (e.record d hit)) ∧
      (e.st.params.onOverflow = .refuse →
        CountersFit k hit e.cost e.st ∧ st = e.st.stat.after k hit e.cost ∧ n = e.st.opCounter + 1#64) := by
  rcases hc : (charge e.st.params.onOverflow e.cost e.st.stat).bind (countOutcome e.st.params.onOverflow k hit) with _ | st
  · exact .inl (by simp only [complete, hc])
  rcases hn : addCount e.st.params.onOverflow e.st.opCounter 1 with _ | n
  · exact .inl (by simp only [complete, hc, hn])
  refine .inr ⟨st, n, by simp only [complete, hc, hn], fun hr => ?_⟩
  rw [hr] at hc hn
  obtain ⟨h1, rfl⟩ := addCount_refuse.1 hn
  obtain ⟨st1, hch, hco⟩ := Option.bind_eq_some_iff.1 hc
  unfold charge at hch
  obtain ⟨x, hx, rfl⟩ := Option.map_eq_some_iff.1 hch
  obtain ⟨h3, rfl⟩ := addCount_refuse.1 hx
  cases k <;> cases hit <;>
    (obtain ⟨y, hy, rfl⟩ := Option.map_eq_some_iff.1 hco
     obtain ⟨h2, rfl⟩ := addCount_refuse.1 hy
     exact ⟨⟨h1, h2, h3⟩, rfl, rfl⟩)

/-- Under ON_OVERFLOW = refuse an operation completes exactly where its counters fit. -/
theorem complete_refused {k : Kind} {d : Decoded} {hit : Bool} {rdata : Option (List Byte)} {e : Effect}
    (hr : e.st.params.onOverflow = .refuse) (h : ¬CountersFit k hit e.cost e.st) :
    complete k d hit rdata e = .refused .counterOverflow := by
  rcases complete_cases k d hit rdata e with hc | ⟨st, n, -, hc⟩
  · exact hc
  · exact absurd (hc hr).1 h

/-! ### When a request is served -/

theorem requestRefusal_eq_none {k : Kind} {a : Address} {s : State} : requestRefusal k a s = none ↔ Ready k a s := by
  unfold requestRefusal Ready insideBlock
  cases he : s.cfgError <;> cases hd : s.params.dataArray <;> cases hw : s.req.wf k <;> simp

theorem exec_load_hit {a : Address} {s : State} {w : Nat} (hr : Ready .load a s)
    (hl : lookup (s.row (decodeAddress s.cfg a).index) (decodeAddress s.cfg a).tag = some w) :
    exec (.load a) s = complete .load (decodeAddress s.cfg a) true
      ((loadHit s (decodeAddress s.cfg a) w).st.readData (decodeAddress s.cfg a) w)
      (loadHit s (decodeAddress s.cfg a) w) := by
  simp only [exec, execLoad, requestRefusal_eq_none.2 hr, loadOutcome, hl]

theorem exec_load_miss {a : Address} {s : State} (hr : Ready .load a s)
    (hl : lookup (s.row (decodeAddress s.cfg a).index) (decodeAddress s.cfg a).tag = none) :
    exec (.load a) s = complete .load (decodeAddress s.cfg a) false
      ((loadMiss s (decodeAddress s.cfg a)).st.readData (decodeAddress s.cfg a)
        ((loadMiss s (decodeAddress s.cfg a)).slot.getD 0))
      (loadMiss s (decodeAddress s.cfg a)) := by
  simp only [exec, execLoad, requestRefusal_eq_none.2 hr, loadOutcome, hl]

theorem exec_store_hit {a : Address} {s : State} {w : Nat} (hr : Ready .store a s)
    (hl : lookup (s.row (decodeAddress s.cfg a).index) (decodeAddress s.cfg a).tag = some w) :
    exec (.store a) s = complete .store (decodeAddress s.cfg a) true none
      (storeHit s a (decodeAddress s.cfg a) w) := by
  simp only [exec, execStore, requestRefusal_eq_none.2 hr, storeOutcome, hl]

theorem exec_store_miss {a : Address} {s : State} (hr : Ready .store a s)
    (hl : lookup (s.row (decodeAddress s.cfg a).index) (decodeAddress s.cfg a).tag = none) :
    exec (.store a) s = complete .store (decodeAddress s.cfg a) false none
      (storeMiss s a (decodeAddress s.cfg a)) := by
  simp only [exec, execStore, requestRefusal_eq_none.2 hr, storeOutcome, hl]

/-- A request that is not ready is refused. -/
theorem exec_not_ready {i : Instr} {s : State} (h : ¬Ready i.kind i.address s) : ∃ r, exec i s = .refused r := by
  cases i with
  | load a =>
    cases hr : requestRefusal .load a s with
    | none => exact absurd (requestRefusal_eq_none.1 hr) h
    | some r => exact ⟨r, by simp only [exec, execLoad, hr]⟩
  | store a =>
    cases hr : requestRefusal .store a s with
    | none => exact absurd (requestRefusal_eq_none.1 hr) h
    | some r => exact ⟨r, by simp only [exec, execStore, hr]⟩

theorem ready_of_next {i : Instr} {s t : State} (h : exec i s = .next t) : Ready i.kind i.address s := by
  by_contra hn
  obtain ⟨r, hr⟩ := exec_not_ready hn
  rw [hr] at h; cases h

/-! ### The invariant, row by row -/

theorem rowOk_freeRow {s : State} {i : Nat} (h : i < s.cfg.sets) : RowOk s i (freeRow s.cfg) := by
  refine ⟨h, by simp [freeRow], ?_, by simp [heldTags], fun _ => by simp [ranks], fun sl hsl => ?_⟩
  · apply occupiedFirst_of_valid_iff (n := 0)
    intro w _; simp [Slot.free]
  · rw [List.eq_of_mem_replicate hsl]
    intro hv; cases hv

theorem Inv.rowOk {s : State} (h : Inv s) {i : Nat} (hi : i < s.cfg.sets) : RowOk s i (s.row i) := by
  rcases Sparse.read_cases (dflt := freeRow s.cfg) s.rows i with hr | hr
  · exact h.rowsOk _ hr
  · unfold State.row; rw [hr]; exact rowOk_freeRow hi

theorem Inv.row_length {s : State} (h : Inv s) (i : Nat) : (s.row i).length = s.cfg.ways := by
  rcases Sparse.read_cases (dflt := freeRow s.cfg) s.rows i with hr | hr
  · exact (h.rowsOk _ hr).2.1
  · unfold State.row; rw [hr]; simp [freeRow]

/-- Outside the sets there is nothing but free slots. -/
theorem Inv.row_out {s : State} (h : Inv s) {i : Nat} (hi : ¬i < s.cfg.sets) : s.row i = freeRow s.cfg := by
  rcases Sparse.read_cases (dflt := freeRow s.cfg) s.rows i with hr | hr
  · exact absurd (h.rowsOk _ hr).1 hi
  · exact hr

theorem Inv.dims {s : State} (h : Inv s) (he : s.cfgError = none) : Dims s.cfg :=
  dims_of_legal (by rw [← h.checked]; exact he) (h.bounded he)

theorem Inv.ways_le {s : State} (h : Inv s) (he : s.cfgError = none) : s.cfg.ways ≤ 2 ^ 31 := by
  have := h.bounded he
  simp only [inBounds, Bool.and_eq_true, decide_eq_true_eq] at this
  exact this.2

theorem lruActive_iff {c : Cfg} : lruActive c = true ↔ c.evictionPolicy = .lru ∧ 1 < c.ways := by
  simp [lruActive]

/-- In a full set on the LRU path the victim has the largest rank, and no other slot has it (42_eviction_policy.md R174). -/
theorem victimLru_top {row : List Slot} (hd : (ranks row).Perm (List.range (occupied row)))
    (hfull : (occupiedSlots row).length = row.length) (hne : row ≠ []) {j : Nat} (hj : j < row.length)
    (hjv : j ≠ victimLru row) :
    (slotAt row j).accessSeq.toNat < (slotAt row (victimLru row)).accessSeq.toNat := by
  have hv := firstBest_spec (fun sl => sl.accessSeq.toNat) (fun x b => decide (b.accessSeq < x.accessSeq))
    (fun x b => by simp [BitVec.lt_def]) hne
  have hval : ∀ k < row.length, (slotAt row k).valid = true := fun k hk => valid_of_full hfull (slotAt_mem hk)
  refine lt_of_le_of_ne (hv.2.1 j hj) fun he => hjv ?_
  exact slot_injective (ranks_nodup hd) (hval j hj) (hval _ hv.1) he

/-! ### The installs -/

/-- Set `i` of a state after an install at `w`: the new slot there, and on the LRU path every other block one rank older. -/
def installedRow (c : Cfg) (row : List Slot) (w : Nat) (x : Slot) : List Slot :=
  row.mapIdx fun j sl => if j = w then x else if lruActive c && sl.valid then sl.aged else sl

@[simp] theorem installedRow_length (c : Cfg) (row : List Slot) (w : Nat) (x : Slot) :
    (installedRow c row w x).length = row.length := by simp [installedRow]

theorem slotAt_installedRow {c : Cfg} {row : List Slot} {w j : Nat} {x : Slot} (hj : j < row.length) :
    slotAt (installedRow c row w x) j =
      if j = w then x else if lruActive c && (slotAt row j).valid then (slotAt row j).aged else slotAt row j := by
  unfold installedRow; rw [slotAt_mapIdx hj]

/-- The slot installed, with the memory the fill reads. -/
def newSlot (s : State) (m : List Host.Cell) (i : Nat) (t : Tag) (k : Kind) : Slot :=
  { valid := true, dirty := installDirty s.cfg k, tag := t, loadSeq := s.opCounter.setWidth 32, accessSeq := 0#32,
    data := if s.params.dataArray then Memory.readBytes m (recompose s.cfg t i) s.cfg.bytes else [] }

theorem installSlot_lt {s : State} (h : Inv s) (hd : Dims s.cfg) (i : Nat) : installSlot s i < s.cfg.ways := by
  have hl := h.row_length i
  have hne : s.row i ≠ [] := by
    intro h0; rw [h0] at hl; have := hd.ways_pos; simp at hl; omega
  unfold installSlot
  split_ifs with h1 h2 h3
  · omega
  · exact h2
  · rw [← hl]; exact victimLru_lt hne
  · rw [← hl]; exact victimFifo_lt hne

/-- All that ALLOCATE's install does (44_operations.md R226; 41_cache_store.md R144, R147): where it goes, what it writes
back, what it reports, and the state after it. -/
theorem place_spec {s : State} (h : Inv s) (hd : Dims s.cfg) {i : Nat} (hi : i < s.cfg.sets) (t : Tag) (k : Kind) :
    place s i t k =
      { st := (s.setMem (s.memAfterEviction i)).setRow i
          (installedRow s.cfg (s.row i) (installSlot s i) (newSlot s (s.memAfterEviction i) i t k))
        slot := some (installSlot s i)
        victimTag := if (s.victim i).valid then some (s.victim i).tag else none
        wroteBack := s.victimDirty i
        cost := if s.victimDirty i then s.params.cost.perByte * s.cfg.bytes else 0
        events := s.writebackEvents i ++ [.fill (recompose s.cfg t i)] } := by
  have hrow := h.rowOk hi
  obtain ⟨-, hlen, hfirst, -, hdense, -⟩ := hrow
  -- replacing a slot whose row ages as the install says
  have hrepl : ∀ w, w = installSlot s i →
      (if lruActive s.cfg then ageYounger w (s.row i) else s.row i).set w (newSlot s (s.memAfterEviction i) i t k) =
        installedRow s.cfg (s.row i) w (newSlot s (s.memAfterEviction i) i t k) →
      replaceSlot s i w t k =
      { st := (s.setMem (s.memAfterEviction i)).setRow i
          (installedRow s.cfg (s.row i) w (newSlot s (s.memAfterEviction i) i t k))
        slot := some w
        victimTag := if (s.victim i).valid then some (s.victim i).tag else none
        wroteBack := s.victimDirty i
        cost := if s.victimDirty i then s.params.cost.perByte * s.cfg.bytes else 0
        events := s.writebackEvents i ++ [.fill (recompose s.cfg t i)] } := by
    intro w hw hage
    have hv : slotAt (s.row i) w = s.victim i := by rw [hw]; rfl
    have hwb : writeBackNeeded s.cfg (s.victim i) = s.victimDirty i := rfl
    have hs1 : (if s.victimDirty i then s.writeBack i (s.victim i) else s) = s.setMem (s.memAfterEviction i) := by
      unfold State.writeBack State.memAfterEviction
      cases s.victimDirty i <;> cases s.params.dataArray <;> rfl
    unfold replaceSlot
    simp only [hv, hwb, hs1]
    rw [← hage]
    rfl
  unfold place
  by_cases h1 : s.cfg.ways = 1
  · rw [if_pos h1]
    have hw : installSlot s i = 0 := by unfold installSlot; rw [if_pos h1]
    rw [hrepl 0 hw.symm ?_, hw]
    have hlru : lruActive s.cfg = false := by simp [lruActive, h1]
    rw [hlru]
    rw [if_neg (by simp), set_eq_mapIdx, installedRow, hlru]
    congr 1
  · rw [if_neg h1]
    have hways : 1 < s.cfg.ways := by have := hd.ways_pos; omega
    by_cases h2 : occupied (s.row i) < s.cfg.ways
    · rw [if_pos h2]
      have hw : installSlot s i = occupied (s.row i) := by unfold installSlot; rw [if_neg h1, if_pos h2]
      have hvic : (s.victim i).valid = false := by
        unfold State.victim
        rw [hw, State.slot_def, ← Bool.not_eq_true, valid_iff_lt_occupied hfirst, occupied_eq_length]
        omega
      have hvd : s.victimDirty i = false := by unfold State.victimDirty; rw [hvic]; rfl
      have hmem : s.memAfterEviction i = s.mem := by unfold State.memAfterEviction; rw [hvd]; simp
      have hev : s.writebackEvents i = [] := by unfold State.writebackEvents; rw [hvd]; rfl
      have hage : (if s.cfg.evictionPolicy = .lru then ageFirst (occupied (s.row i)) (s.row i) else s.row i).set
          (occupied (s.row i)) (newSlot s s.mem i t k) =
          installedRow s.cfg (s.row i) (occupied (s.row i)) (newSlot s s.mem i t k) := by
        by_cases hl : s.cfg.evictionPolicy = .lru
        · have hlru : lruActive s.cfg = true := lruActive_iff.2 ⟨hl, hways⟩
          rw [if_pos hl, ageFirst, mapIdx_set, installedRow]
          apply row_ext (by simp)
          intro j hj
          have hj' : j < (s.row i).length := by simpa using hj
          rw [slotAt_mapIdx hj', slotAt_mapIdx hj', hlru]
          have := valid_iff_lt_occupied hfirst j
          simp only [occupied_eq_length] at *
          simp only [Bool.true_and, this]
        · have hlru : lruActive s.cfg = false := by simp [lruActive, hl]
          rw [if_neg hl, set_eq_mapIdx, installedRow, hlru]
          congr 1
      unfold installFresh
      simp only [hvic, hvd, hmem, hev, hw]
      rw [← hage]
      rfl
    · rw [if_neg h2]
      have hlen' := occupiedSlots_length_le (s.row i)
      rw [occupied_eq_length] at h2
      have hfull : (occupiedSlots (s.row i)).length = (s.row i).length := by omega
      have hne : s.row i ≠ [] := by
        intro h0; rw [h0] at hlen; simp at hlen; omega
      by_cases h3 : s.cfg.evictionPolicy = .lru
      · have hlru : lruActive s.cfg = true := lruActive_iff.2 ⟨h3, hways⟩
        rw [if_pos h3]
        have hw : installSlot s i = victimLru (s.row i) := by
          unfold installSlot; rw [if_neg h1, if_neg (by rw [occupied_eq_length]; exact h2), if_pos h3]
        rw [hrepl _ hw.symm ?_, hw]
        rw [hlru, if_pos rfl, ageYounger, mapIdx_set, installedRow]
        apply row_ext (by simp)
        intro j hj
        have hj' : j < (s.row i).length := by simpa using hj
        rw [slotAt_mapIdx hj', slotAt_mapIdx hj', hlru]
        by_cases hjw : j = victimLru (s.row i)
        · simp [hjw]
        · have hlt := victimLru_top (hdense hlru) hfull hne hj' hjw
          have hval := valid_of_full hfull (slotAt_mem hj')
          simp only [hjw, if_false, hval, Bool.true_and, if_true, ne_eq, not_false_eq_true, true_and, BitVec.lt_def, hlt]
      · have hlru : lruActive s.cfg = false := by simp [lruActive, h3]
        rw [if_neg h3]
        have hw : installSlot s i = victimFifo (s.row i) := by
          unfold installSlot; rw [if_neg h1, if_neg (by rw [occupied_eq_length]; exact h2), if_neg h3]
        rw [hrepl _ hw.symm ?_, hw]
        rw [hlru, if_neg (by simp), set_eq_mapIdx, installedRow, hlru]
        congr 1

/-- ALLOCATE is the install with its charge added (44_operations.md R226). -/
theorem allocate_spec {s : State} (h : Inv s) (hd : Dims s.cfg) {i : Nat} (hi : i < s.cfg.sets) (t : Tag) (k : Kind) :
    allocate s i t k =
      { st := (s.setMem (s.memAfterEviction i)).setRow i
          (installedRow s.cfg (s.row i) (installSlot s i) (newSlot s (s.memAfterEviction i) i t k))
        slot := some (installSlot s i)
        victimTag := if (s.victim i).valid then some (s.victim i).tag else none
        wroteBack := s.victimDirty i
        cost := s.missCost i
        events := s.writebackEvents i ++ [.fill (recompose s.cfg t i)] } := by
  unfold allocate
  rw [place_spec h hd hi]
  rfl

/-! ### The data actions -/

@[simp] theorem putBytes_length (row : List Byte) (o : Nat) (bs : List Byte) (h : o + bs.length ≤ row.length) :
    (putBytes row o bs).length = row.length := by
  unfold putBytes; simp; omega

/-- Byte `k` of a row with bytes put over it. -/
theorem putBytes_getD {row bs : List Byte} {o : Nat} (h : o + bs.length ≤ row.length) (k : Nat) :
    (putBytes row o bs).getD k 0#8 =
      if o ≤ k ∧ k < o + bs.length then bs.getD (k - o) 0#8 else row.getD k 0#8 := by
  unfold putBytes
  simp only [List.getD_eq_getElem?_getD]
  by_cases h1 : k < o
  · rw [List.getElem?_append_left (by simp; omega), List.getElem?_append_left (by simp; omega),
      List.getElem?_take_of_lt h1, if_neg (by omega)]
  · by_cases h2 : k < o + bs.length
    · rw [List.getElem?_append_left (by simp; omega), List.getElem?_append_right (by simp; omega), if_pos ⟨by omega, h2⟩]
      congr 2
      simp; omega
    · rw [List.getElem?_append_right (by simp; omega), if_neg (by omega), List.getElem?_drop]
      congr 2
      simp; omega

/-- TOUCH on a row changes no field but the rank. -/
theorem slotAt_touchRow {row : List Slot} {w j : Nat} (hj : j < row.length) :
    slotAt (touchRow row w) j =
      if j = w then { slotAt row j with accessSeq := 0#32 }
      else if (slotAt row j).valid && decide ((slotAt row j).accessSeq < (slotAt row w).accessSeq) then (slotAt row j).aged
      else slotAt row j := by
  unfold touchRow; rw [slotAt_mapIdx hj]

/-- The row of the touched set, and of every other. -/
theorem State.row_touch {s : State} (h : Sparse.wf (freeRow s.cfg) s.rows = true) (i w j : Nat) :
    (s.touch i w).row j = if j = i ∧ lruActive s.cfg = true then touchRow (s.row i) w else s.row j := by
  unfold State.touch
  split
  · rename_i hl
    rw [State.row_setRow h]
    by_cases hj : j = i <;> simp [hj, hl]
  · rename_i hl
    simp [hl]

theorem State.rowsCanonical_touch {s : State} (h : Sparse.wf (freeRow s.cfg) s.rows = true) (i w : Nat) :
    Sparse.wf (freeRow (s.touch i w).cfg) (s.touch i w).rows = true := by
  unfold State.touch
  split
  · exact State.rowsCanonical_setRow h i _
  · exact h

/-- The row of the set whose slot is changed, and of every other. -/
theorem State.row_updateSlot {s : State} (h : Sparse.wf (freeRow s.cfg) s.rows = true) (i w : Nat) (f : Slot → Slot)
    (j : Nat) :
    (s.updateSlot i w f).row j = if j = i then (s.row i).set w (f (s.slot i w)) else s.row j :=
  State.row_setRow h i _ j

theorem State.rowsCanonical_updateSlot {s : State} (h : Sparse.wf (freeRow s.cfg) s.rows = true) (i w : Nat)
    (f : Slot → Slot) : Sparse.wf (freeRow (s.updateSlot i w f).cfg) (s.updateSlot i w f).rows = true :=
  State.rowsCanonical_setRow h i _

/-- The row of the set a datum is stored in, and of every other. -/
theorem State.row_storeDatum {s : State} (h : Sparse.wf (freeRow s.cfg) s.rows = true) (i w o j : Nat) :
    (s.storeDatum i w o).row j =
      if j = i ∧ s.params.dataArray = true then
        (s.row i).set w { s.slot i w with data := putBytes (s.slot i w).data o s.req.wdata }
      else s.row j := by
  unfold State.storeDatum
  split
  · rename_i hd
    rw [State.row_updateSlot h]
    by_cases hj : j = i <;> simp [hj, hd]
  · rename_i hd
    simp [hd]

theorem State.rowsCanonical_storeDatum {s : State} (h : Sparse.wf (freeRow s.cfg) s.rows = true) (i w o : Nat) :
    Sparse.wf (freeRow (s.storeDatum i w o).cfg) (s.storeDatum i w o).rows = true := by
  unfold State.storeDatum
  split
  · exact State.rowsCanonical_updateSlot h i w _
  · exact h

/-- Memory after a STORE's own write. -/
theorem State.mem_storeThrough (s : State) (a : Address) :
    (s.storeThrough a).mem = if s.params.dataArray then Memory.writeBytes s.mem a s.req.wdata else s.mem := by
  unfold State.storeThrough; split <;> rfl

/-- An install keeps the canonical form of the slot array, from any state that has it. -/
theorem place_rowsCanonical {s : State} (h : Sparse.wf (freeRow s.cfg) s.rows = true) (i : Nat) (t : Tag) (k : Kind) :
    Sparse.wf (freeRow (place s i t k).st.cfg) (place s i t k).st.rows = true := by
  have hw : ∀ v : Slot, (s.writeBack i v).cfg = s.cfg ∧ (s.writeBack i v).rows = s.rows := by
    intro v; unfold State.writeBack; split <;> exact ⟨rfl, rfl⟩
  have hr : ∀ w, Sparse.wf (freeRow (replaceSlot s i w t k).st.cfg) (replaceSlot s i w t k).st.rows = true := by
    intro w
    refine State.rowsCanonical_setRow ?_ _ _
    split
    · rw [(hw _).1, (hw _).2]; exact h
    · exact h
  unfold place
  split_ifs
  · exact hr _
  · exact State.rowsCanonical_setRow h _ _
  · exact hr _
  · exact hr _

end Sys2Proof.Machine
end

