-- ==== Sys2Proof/Laws/Requests.lean ====
section
/-! SUPPORT. LOAD and STORE as a whole: a request that is not refused ends in `complete` of one effect, and the effect of a
request is one new row of its set and one new memory, nothing else. `exec_cases` and `requestEffect_spec` say once all that
`exec` can do. -/

namespace Sys2Proof.Machine

/-- DECODE of a request's address. -/
def decoded (i : Instr) (s : State) : Decoded := decodeAddress s.cfg i.address

/-- Hit or miss, and the effect of the path taken. -/
def requestEffect (i : Instr) (s : State) : Bool × Effect :=
  match i, lookup (s.row (decoded i s).index) (decoded i s).tag with
  | .load a, some w => (true, loadHit s (decoded (.load a) s) w)
  | .load a, none => (false, loadMiss s (decoded (.load a) s))
  | .store a, some w => (true, storeHit s a (decoded (.store a) s) w)
  | .store a, none => (false, storeMiss s a (decoded (.store a) s))

/-- The data a request answers with. -/
def requestData (i : Instr) (s : State) : Option (List Byte) :=
  match i with
  | .load a => (requestEffect (.load a) s).2.st.readData (decoded (.load a) s)
      ((lookup (s.row (decoded (.load a) s).index) (decoded (.load a) s).tag).getD
        ((requestEffect (.load a) s).2.slot.getD 0))
  | .store _ => none

/-- A request that is not refused before it runs. -/
theorem exec_ready {i : Instr} {s : State} (hr : Ready i.kind i.address s) :
    exec i s = complete i.kind (decoded i s) (requestEffect i s).1 (requestData i s) (requestEffect i s).2 := by
  cases i with
  | load a =>
    have hr : Ready .load a s := hr
    cases hl : lookup (s.row (decodeAddress s.cfg a).index) (decodeAddress s.cfg a).tag with
    | some w =>
      rw [exec_load_hit hr hl]
      simp only [requestData, requestEffect, decoded, Instr.address, hl, Option.getD_some]
      rfl
    | none =>
      rw [exec_load_miss hr hl]
      simp only [requestData, requestEffect, decoded, Instr.address, hl, Option.getD_none]
      rfl
  | store a =>
    have hr : Ready .store a s := hr
    cases hl : lookup (s.row (decodeAddress s.cfg a).index) (decodeAddress s.cfg a).tag with
    | some w =>
      rw [exec_store_hit hr hl]
      simp only [requestData, requestEffect, decoded, Instr.address, hl]
      rfl
    | none =>
      rw [exec_store_miss hr hl]
      simp only [requestData, requestEffect, decoded, Instr.address, hl]
      rfl

/-- All that `exec` can do: refuse the request, refuse it for a counter, or complete the effect. -/
theorem exec_cases (i : Instr) (s : State) :
    (∃ r, exec i s = .refused r) ∨
    Ready i.kind i.address s ∧ ∃ st n, exec i s = .next ((requestEffect i s).2.st.completed st n
        { hit := (requestEffect i s).1, rdata := requestData i s }
        ((requestEffect i s).2.record (decoded i s) (requestEffect i s).1)) ∧
      ((requestEffect i s).2.st.params.onOverflow = .refuse →
        CountersFit i.kind (requestEffect i s).1 (requestEffect i s).2.cost (requestEffect i s).2.st ∧
        st = (requestEffect i s).2.st.stat.after i.kind (requestEffect i s).1 (requestEffect i s).2.cost ∧
        n = (requestEffect i s).2.st.opCounter + 1#64) := by
  by_cases hr : Ready i.kind i.address s
  · rw [exec_ready hr]
    rcases complete_cases i.kind (decoded i s) (requestEffect i s).1 (requestData i s) (requestEffect i s).2 with h | h
    · exact .inl ⟨_, h⟩
    · exact .inr ⟨hr, h⟩
  · exact .inl (exec_not_ready hr)

/-- What holds of a next state. -/
theorem exec_next {i : Instr} {s t : State} (h : exec i s = .next t) :
    Ready i.kind i.address s ∧ ∃ st n, t = (requestEffect i s).2.st.completed st n
        { hit := (requestEffect i s).1, rdata := requestData i s }
        ((requestEffect i s).2.record (decoded i s) (requestEffect i s).1) ∧
      ((requestEffect i s).2.st.params.onOverflow = .refuse →
        CountersFit i.kind (requestEffect i s).1 (requestEffect i s).2.cost (requestEffect i s).2.st ∧
        st = (requestEffect i s).2.st.stat.after i.kind (requestEffect i s).1 (requestEffect i s).2.cost ∧
        n = (requestEffect i s).2.st.opCounter + 1#64) := by
  rcases exec_cases i s with ⟨r, hr⟩ | ⟨hr, st, n, he, hc⟩
  · rw [hr] at h; cases h
  · rw [he] at h
    cases h
    exact ⟨hr, st, n, rfl, hc⟩

/-! ### The row and the memory a request leaves -/

/-- The row of the request's set after it. -/
def requestRow (i : Instr) (s : State) : List Slot :=
  let d := decoded i s
  let row := s.row d.index
  let m := s.memAfterEviction d.index
  match i, lookup row d.tag with
  | .load _, some w => if lruActive s.cfg then touchRow row w else row
  | .load _, none => installedRow s.cfg row (installSlot s d.index) (newSlot s m d.index d.tag .load)
  | .store _, some w =>
    (if lruActive s.cfg then touchRow row w else row).set w
      { slotAt row w with
        accessSeq := if lruActive s.cfg then 0#32 else (slotAt row w).accessSeq
        dirty := (slotAt row w).dirty || !s.cfg.writeThrough
        data := if s.params.dataArray then putBytes (slotAt row w).data d.offset s.req.wdata else (slotAt row w).data }
  | .store _, none =>
    if s.cfg.writeAllocate then
      installedRow s.cfg row (installSlot s d.index)
        { newSlot s m d.index d.tag .store with
          data := if s.params.dataArray then
            putBytes (Memory.readBytes m (recompose s.cfg d.tag d.index) s.cfg.bytes) d.offset s.req.wdata else [] }
    else row

/-- The memory after a request. -/
def requestMem (i : Instr) (s : State) : List Host.Cell :=
  let d := decoded i s
  match i, lookup (s.row d.index) d.tag with
  | .load _, some _ => s.mem
  | .load _, none => s.memAfterEviction d.index
  | .store a, some _ =>
    if s.params.dataArray && s.cfg.writeThrough then Memory.writeBytes s.mem a s.req.wdata else s.mem
  | .store a, none =>
    if s.cfg.writeAllocate then
      if s.params.dataArray && s.cfg.writeThrough then Memory.writeBytes (s.memAfterEviction d.index) a s.req.wdata
      else s.memAfterEviction d.index
    else if s.params.dataArray then Memory.writeBytes s.mem a s.req.wdata else s.mem

/-- A request changes nothing of the state but the slot array and the memory before its counters advance. -/
structure OnlyRowsAndMem (s t : State) : Prop where
  params : t.params = s.params
  cfg : t.cfg = s.cfg
  cfgError : t.cfgError = s.cfgError
  opCounter : t.opCounter = s.opCounter
  stat : t.stat = s.stat
  req : t.req = s.req
  pending : t.pending = s.pending
  resp : t.resp = s.resp
  outcome : t.outcome = s.outcome

/-- The slot of a row with a slot set after TOUCH, as setting it before. -/
theorem set_touchRow_eq {row : List Slot} {w : Nat} (hw : w < row.length) (c : Cfg) :
    slotAt (if lruActive c then touchRow row w else row) w =
      { slotAt row w with accessSeq := if lruActive c then 0#32 else (slotAt row w).accessSeq } := by
  split
  · rw [slotAt_touchRow hw]; simp
  · rfl

theorem loadHit_spec {s : State} (h : Sparse.wf (freeRow s.cfg) s.rows = true) (d : Decoded) (w : Nat) :
    OnlyRowsAndMem s (loadHit s d w).st ∧ (loadHit s d w).st.mem = s.mem ∧
    Sparse.wf (freeRow s.cfg) (loadHit s d w).st.rows = true ∧
    ∀ j, (loadHit s d w).st.row j =
      if j = d.index then (if lruActive s.cfg then touchRow (s.row d.index) w else s.row d.index) else s.row j := by
  refine ⟨⟨?_, ?_, ?_, ?_, ?_, ?_, ?_, ?_, ?_⟩, ?_, ?_, fun j => ?_⟩ <;> unfold loadHit <;> simp only
  all_goals try simp only [State.touch_params, State.touch_cfg, State.touch_cfgError, State.touch_opCounter,
    State.touch_stat, State.touch_req, State.touch_pending, State.touch_resp, State.touch_outcome, State.touch_mem]
  · simpa using State.rowsCanonical_touch h d.index w
  · rw [State.row_touch h]
    by_cases hj : j = d.index <;> by_cases hl : lruActive s.cfg = true <;> simp [hj, hl]

/-- A slot changed twice is a slot changed once. -/
theorem State.updateSlot_updateSlot_row {s : State} (h : Sparse.wf (freeRow s.cfg) s.rows = true) (i w : Nat)
    (f g : Slot → Slot) (j : Nat) :
    ((s.updateSlot i w f).updateSlot i w g).row j =
      if j = i then (s.row i).set w (g (slotAt ((s.row i).set w (f (s.slot i w))) w)) else s.row j := by
  rw [State.row_updateSlot (State.rowsCanonical_updateSlot h i w f)]
  by_cases hj : j = i
  · simp only [hj, if_true, State.slot_def, State.row_updateSlot h, List.set_set]
  · simp only [hj, if_false, State.row_updateSlot h]

theorem storeHit_spec {s : State} (h : Sparse.wf (freeRow s.cfg) s.rows = true) (a : Address) (d : Decoded) {w : Nat}
    (hw : w < (s.row d.index).length) :
    OnlyRowsAndMem s (storeHit s a d w).st ∧
    (storeHit s a d w).st.mem =
      (if s.params.dataArray && s.cfg.writeThrough then Memory.writeBytes s.mem a s.req.wdata else s.mem) ∧
    Sparse.wf (freeRow s.cfg) (storeHit s a d w).st.rows = true ∧
    ∀ j, (storeHit s a d w).st.row j =
      if j = d.index then
        (if lruActive s.cfg then touchRow (s.row d.index) w else s.row d.index).set w
          { slotAt (s.row d.index) w with
            accessSeq := if lruActive s.cfg then 0#32 else (slotAt (s.row d.index) w).accessSeq
            dirty := (slotAt (s.row d.index) w).dirty || !s.cfg.writeThrough
            data := if s.params.dataArray then putBytes (slotAt (s.row d.index) w).data d.offset s.req.wdata
              else (slotAt (s.row d.index) w).data }
      else s.row j := by
  have h1 := State.rowsCanonical_touch h d.index w
  have h2 := State.rowsCanonical_storeDatum h1 d.index w d.offset
  have h3 := State.rowsCanonical_updateSlot h2 d.index w fun sl => { sl with dirty := true }
  have hrow1 : (s.touch d.index w).row d.index =
      if lruActive s.cfg then touchRow (s.row d.index) w else s.row d.index := by
    rw [State.row_touch h]; by_cases hl : lruActive s.cfg = true <;> simp [hl]
  have hslot := set_touchRow_eq hw s.cfg
  have hlen : (if lruActive s.cfg then touchRow (s.row d.index) w else s.row d.index).length = (s.row d.index).length := by
    split <;> simp
  unfold storeHit
  by_cases hwt : s.cfg.writeThrough = true
  · simp only [hwt, if_true]
    refine ⟨⟨by simp, by simp, by simp, by simp, by simp, by simp, by simp, by simp, by simp⟩, ?_, ?_, fun j => ?_⟩
    · rw [State.mem_storeThrough]; simp
    · simpa using h2
    · rw [State.row_storeThrough, State.row_storeDatum h1]
      by_cases hj : j = d.index
      · subst hj
        by_cases hd : s.params.dataArray = true
        · simp only [State.touch_params, hd, and_true, if_true, hrow1, State.slot_def, hslot, State.touch_req,
            Bool.not_true, Bool.or_false]
        · simp only [State.touch_params, hd, and_false, if_false, if_true, hrow1, Bool.not_true, Bool.or_false,
            Bool.false_eq_true]
          apply row_ext (by simp)
          intro k _
          rw [slotAt_set, hlen]
          by_cases hkw : k = w
          · subst hkw
            simp only [hw, and_true, if_true, hslot]
          · simp only [hkw, false_and, if_false]
      · simp only [hj, false_and, if_false, State.row_touch h]
  · simp only [hwt, if_false, Bool.false_eq_true]
    refine ⟨⟨by simp, by simp, by simp, by simp, by simp, by simp, by simp, by simp, by simp⟩, by simp, ?_,
      fun j => ?_⟩
    · simpa [State.markDirty] using h3
    · unfold State.markDirty
      rw [State.row_updateSlot h2]
      by_cases hj : j = d.index
      · subst hj
        simp only [if_true, State.slot_def, State.row_storeDatum h1, State.touch_params, hrow1, true_and,
          State.touch_req, Bool.not_false, Bool.or_true]
        by_cases hd : s.params.dataArray = true
        · simp only [hd, if_true, List.set_set, slotAt_set, hlen, hw, and_self, hslot]
        · simp only [hd, if_false, hslot, Bool.false_eq_true]
      · simp only [hj, false_and, if_false, State.row_storeDatum h1, State.row_touch h]

theorem allocate_rows {s : State} (h : Inv s) (hd : Dims s.cfg) {i : Nat} (hi : i < s.cfg.sets) (t : Tag) (k : Kind) :
    OnlyRowsAndMem s (allocate s i t k).st ∧ (allocate s i t k).st.mem = s.memAfterEviction i ∧
    Sparse.wf (freeRow s.cfg) (allocate s i t k).st.rows = true ∧
    ∀ j, (allocate s i t k).st.row j =
      if j = i then installedRow s.cfg (s.row i) (installSlot s i) (newSlot s (s.memAfterEviction i) i t k)
      else s.row j := by
  have hc := h.rowsCanonical
  rw [allocate_spec h hd hi]
  refine ⟨⟨rfl, rfl, rfl, rfl, rfl, rfl, rfl, rfl, rfl⟩, rfl, ?_, fun j => ?_⟩
  · exact Sparse.wf_write hc i _
  · rw [State.row_setRow (s := s.setMem (s.memAfterEviction i)) hc]
    rfl

theorem storeMiss_spec {s : State} (h : Inv s) (hd : Dims s.cfg) (a : Address) (d : Decoded) (hi : d.index < s.cfg.sets) :
    OnlyRowsAndMem s (storeMiss s a d).st ∧
    (storeMiss s a d).st.mem =
      (if s.cfg.writeAllocate then
        if s.params.dataArray && s.cfg.writeThrough then Memory.writeBytes (s.memAfterEviction d.index) a s.req.wdata
        else s.memAfterEviction d.index
      else if s.params.dataArray then Memory.writeBytes s.mem a s.req.wdata else s.mem) ∧
    Sparse.wf (freeRow s.cfg) (storeMiss s a d).st.rows = true ∧
    ∀ j, (storeMiss s a d).st.row j =
      if j = d.index then
        (if s.cfg.writeAllocate then
          installedRow s.cfg (s.row d.index) (installSlot s d.index)
            { newSlot s (s.memAfterEviction d.index) d.index d.tag .store with
              data := if s.params.dataArray then
                putBytes (Memory.readBytes (s.memAfterEviction d.index) (recompose s.cfg d.tag d.index) s.cfg.bytes)
                  d.offset s.req.wdata else [] }
        else s.row d.index)
      else s.row j := by
  unfold storeMiss
  by_cases hwa : s.cfg.writeAllocate = true
  · simp only [hwa, if_true]
    obtain ⟨ho, hm, hw, hr⟩ := allocate_rows h hd hi d.tag .store
    have hslot : (allocate s d.index d.tag .store).slot = some (installSlot s d.index) := by
      rw [allocate_spec h hd hi]
    have hw' : Sparse.wf (freeRow (allocate s d.index d.tag .store).st.cfg) (allocate s d.index d.tag .store).st.rows = true := by
      rw [ho.cfg]; exact hw
    have hlt := installSlot_lt h hd d.index
    have hlen := h.row_length d.index
    have hrow : ∀ j, ((allocate s d.index d.tag .store).st.storeDatum d.index (installSlot s d.index) d.offset).row j =
        if j = d.index then
          installedRow s.cfg (s.row d.index) (installSlot s d.index)
            { newSlot s (s.memAfterEviction d.index) d.index d.tag .store with
              data := if s.params.dataArray then
                putBytes (Memory.readBytes (s.memAfterEviction d.index) (recompose s.cfg d.tag d.index) s.cfg.bytes)
                  d.offset s.req.wdata else [] }
        else s.row j := by
      intro j
      rw [State.row_storeDatum hw', ho.params, ho.req]
      by_cases hj : j = d.index
      · subst hj
        by_cases hda : s.params.dataArray = true
        · simp only [hda, if_true, true_and, State.slot_def, hr]
          apply row_ext (by simp)
          intro k hk
          have hk' : k < (s.row d.index).length := by simpa using hk
          rw [slotAt_set, slotAt_installedRow hk', slotAt_installedRow (by omega), slotAt_installedRow hk']
          by_cases hkw : k = installSlot s d.index
          · simp [hkw, hlen, hlt, newSlot, hda]
          · simp [hkw]
        · simp only [hda, if_false, if_true, true_and, hr, Bool.false_eq_true]
          simp only [newSlot, hda, if_false, Bool.false_eq_true]
      · simp only [hj, false_and, if_false, hr]
    unfold storeMissAllocate
    simp only [hslot, Option.getD_some]
    by_cases hwt : s.cfg.writeThrough = true
    · simp only [hwt, if_true]
      refine ⟨⟨?_, ?_, ?_, ?_, ?_, ?_, ?_, ?_, ?_⟩, ?_, ?_, fun j => ?_⟩
      · simpa using ho.params
      · simpa using ho.cfg
      · simpa using ho.cfgError
      · simpa using ho.opCounter
      · simpa using ho.stat
      · simpa using ho.req
      · simpa using ho.pending
      · simpa using ho.resp
      · simpa using ho.outcome
      · rw [State.mem_storeThrough]
        simp only [State.storeDatum_params, State.storeDatum_mem, State.storeDatum_req, ho.params, ho.req, hm,
          Bool.and_true]
      · have := State.rowsCanonical_storeDatum hw' d.index (installSlot s d.index) d.offset
        simpa [ho.cfg] using this
      · rw [State.row_storeThrough]; exact hrow j
    · simp only [hwt, if_false, Bool.false_eq_true]
      refine ⟨⟨?_, ?_, ?_, ?_, ?_, ?_, ?_, ?_, ?_⟩, ?_, ?_, fun j => ?_⟩
      · simpa using ho.params
      · simpa using ho.cfg
      · simpa using ho.cfgError
      · simpa using ho.opCounter
      · simpa using ho.stat
      · simpa using ho.req
      · simpa using ho.pending
      · simpa using ho.resp
      · simpa using ho.outcome
      · simp only [State.storeDatum_mem, hm, Bool.and_false, Bool.false_eq_true, if_false]
      · have := State.rowsCanonical_storeDatum hw' d.index (installSlot s d.index) d.offset
        simpa [ho.cfg] using this
      · exact hrow j
  · simp only [hwa, if_false, Bool.false_eq_true]
    unfold storeMissDirect
    refine ⟨⟨by simp, by simp, by simp, by simp, by simp, by simp, by simp, by simp, by simp⟩, ?_, ?_, fun j => ?_⟩
    · exact State.mem_storeThrough s a
    · simpa using h.rowsCanonical
    · rw [State.row_storeThrough]
      by_cases hj : j = d.index <;> simp [hj]

/-- All that the effect of a served request does to the state: one row, one memory. -/
theorem requestEffect_spec {i : Instr} {s : State} (h : Inv s) (hr : Ready i.kind i.address s) :
    OnlyRowsAndMem s (requestEffect i s).2.st ∧ (requestEffect i s).2.st.mem = requestMem i s ∧
    Sparse.wf (freeRow s.cfg) (requestEffect i s).2.st.rows = true ∧
    ∀ j, (requestEffect i s).2.st.row j = if j = (decoded i s).index then requestRow i s else s.row j := by
  have hd := h.dims hr.1
  have hi : (decoded i s).index < s.cfg.sets := decodeAddress_index_lt hd _
  cases i with
  | load a =>
    cases hl : lookup (s.row (decoded (.load a) s).index) (decoded (.load a) s).tag with
    | some w =>
      simp only [requestEffect, requestMem, requestRow, hl]
      exact loadHit_spec h.rowsCanonical _ w
    | none =>
      simp only [requestEffect, requestMem, requestRow, hl]
      exact allocate_rows h hd hi _ .load
  | store a =>
    cases hl : lookup (s.row (decoded (.store a) s).index) (decoded (.store a) s).tag with
    | some w =>
      simp only [requestEffect, requestMem, requestRow, hl]
      exact storeHit_spec h.rowsCanonical a _ (lookup_eq_some.1 hl).1
    | none =>
      simp only [requestEffect, requestMem, requestRow, hl]
      exact storeMiss_spec h hd a _ hi

/-- A request keeps the canonical form of the slot array, from any state that has it. -/
theorem exec_rowsCanonical {i : Instr} {s t : State} (h : Sparse.wf (freeRow s.cfg) s.rows = true)
    (hn : exec i s = .next t) : Sparse.wf (freeRow t.cfg) t.rows = true := by
  obtain ⟨-, st, n, rfl, -⟩ := exec_next hn
  have ha : ∀ i t k, Sparse.wf (freeRow (allocate s i t k).st.cfg) (allocate s i t k).st.rows = true :=
    fun i t k => place_rowsCanonical h i t k
  have ht : ∀ (s : State) (a : Address), (s.storeThrough a).cfg = s.cfg ∧ (s.storeThrough a).rows = s.rows := by
    intro s a; unfold State.storeThrough; split <;> exact ⟨rfl, rfl⟩
  show Sparse.wf (freeRow (requestEffect i s).2.st.cfg) (requestEffect i s).2.st.rows = true
  unfold requestEffect
  split
  · exact State.rowsCanonical_touch h _ _
  · exact ha _ _ _
  · unfold storeHit
    simp only
    split_ifs
    · rw [(ht _ _).1, (ht _ _).2]
      exact State.rowsCanonical_storeDatum (State.rowsCanonical_touch h _ _) _ _ _
    · exact State.rowsCanonical_updateSlot (State.rowsCanonical_storeDatum (State.rowsCanonical_touch h _ _) _ _ _) _ _ _
  · unfold storeMiss
    split_ifs
    · unfold storeMissAllocate
      simp only
      split_ifs
      · rw [(ht _ _).1, (ht _ _).2]
        exact State.rowsCanonical_storeDatum (ha _ _ _) _ _ _
      · exact State.rowsCanonical_storeDatum (ha _ _ _) _ _ _
    · show Sparse.wf (freeRow (s.storeThrough _).cfg) (s.storeThrough _).rows = true
      rw [(ht _ _).1, (ht _ _).2]; exact h

/-! ### What no request changes, from any state -/

/-- What no part of a request changes: CFG, `cfg_error`, the parameters, the request port, what is presented next. -/
structure SameSetting (s t : State) : Prop where
  cfg : t.cfg = s.cfg
  cfgError : t.cfgError = s.cfgError
  params : t.params = s.params
  req : t.req = s.req
  pending : t.pending = s.pending

theorem SameSetting.refl (s : State) : SameSetting s s := ⟨rfl, rfl, rfl, rfl, rfl⟩

theorem SameSetting.setRow {s t : State} (h : SameSetting s t) (i : Nat) (row : List Slot) : SameSetting s (t.setRow i row) :=
  ⟨h.cfg, h.cfgError, h.params, h.req, h.pending⟩

theorem SameSetting.touch {s t : State} (h : SameSetting s t) (i w : Nat) : SameSetting s (t.touch i w) := by
  unfold State.touch; split
  · exact h.setRow _ _
  · exact h

theorem SameSetting.writeBack {s t : State} (h : SameSetting s t) (i : Nat) (v : Slot) : SameSetting s (t.writeBack i v) := by
  unfold State.writeBack; split
  · exact ⟨h.cfg, h.cfgError, h.params, h.req, h.pending⟩
  · exact h

theorem SameSetting.storeDatum {s t : State} (h : SameSetting s t) (i w o : Nat) : SameSetting s (t.storeDatum i w o) := by
  unfold State.storeDatum; split
  · exact h.setRow _ _
  · exact h

theorem SameSetting.storeThrough {s t : State} (h : SameSetting s t) (a : Address) : SameSetting s (t.storeThrough a) := by
  unfold State.storeThrough; split
  · exact ⟨h.cfg, h.cfgError, h.params, h.req, h.pending⟩
  · exact h

theorem allocate_sameSetting (s : State) (i : Nat) (t : Tag) (k : Kind) : SameSetting s (allocate s i t k).st := by
  have hr : ∀ w, SameSetting s (replaceSlot s i w t k).st := by
    intro w
    refine SameSetting.setRow ?_ _ _
    split
    · exact (SameSetting.refl s).writeBack _ _
    · exact SameSetting.refl s
  show SameSetting s (place s i t k).st
  unfold place
  split_ifs
  · exact hr _
  · exact (SameSetting.refl s).setRow _ _
  · exact hr _
  · exact hr _

/-- A request changes nothing of the setting it runs in. -/
theorem exec_sameSetting {i : Instr} {s t : State} (h : exec i s = .next t) : SameSetting s t := by
  obtain ⟨-, st, n, rfl, -⟩ := exec_next h
  have ht := (SameSetting.refl s)
  suffices h : SameSetting s (requestEffect i s).2.st from ⟨h.cfg, h.cfgError, h.params, h.req, h.pending⟩
  unfold requestEffect
  split
  · exact ht.touch _ _
  · exact allocate_sameSetting _ _ _ _
  · simp only [storeHit]
    split_ifs
    · exact ((ht.touch _ _).storeDatum _ _ _).storeThrough _
    · exact ((ht.touch _ _).storeDatum _ _ _).setRow _ _
  · simp only [storeMiss, storeMissAllocate]
    split_ifs
    · exact ((allocate_sameSetting _ _ _ _).storeDatum _ _ _).storeThrough _
    · exact (allocate_sameSetting _ _ _ _).storeDatum _ _ _
    · exact ht.storeThrough _

end Sys2Proof.Machine
end

