-- ==== Sys2Proof/Laws/Step.lean ====
section
/-! SUPPORT. What one step can do, said once: resets, changes of CFG, traces, and requests. -/

namespace Sys2Proof.Machine

/-- All that a reset can do: refuse a CFG out of bounds, or leave the state after reset with what the check reports. -/
theorem applyReset_cases (c : Cfg) (s : State) :
    (applyReset c s = .refused .cfgOutOfBounds ∧ configError c = none ∧ inBounds c = false) ∨
    (applyReset c s = .next (s.afterReset c (configError c)) ∧ (configError c = none → inBounds c = true)) := by
  unfold applyReset
  cases he : configError c with
  | some e => exact .inr ⟨rfl, fun h => by cases h⟩
  | none =>
    cases hb : inBounds c with
    | true => exact .inr ⟨rfl, fun _ => rfl⟩
    | false => exact .inl ⟨rfl, rfl, rfl⟩

/-- All that driving CFG without reset can do. -/
theorem changeCfg_cases (c : Cfg) (s : State) :
    (changeCfg c s = .next s ∧ c = s.cfg) ∨ (changeCfg c s = .refused .cfgChangedWithoutReset ∧ c ≠ s.cfg) := by
  unfold changeCfg
  by_cases h : c = s.cfg <;> simp [h]

/-- A trace handed over that gives a next state was read whole. -/
theorem loadTrace_next {lines : List (List Char)} {s t : State} (h : loadTrace lines s = .next t) :
    s.cfgError = none ∧ ∃ is, parseTrace lines = .ok is ∧ t = { s with pending := is.map textRequest ++ s.pending } := by
  unfold loadTrace at h
  cases he : s.cfgError with
  | some e => rw [he] at h; cases h
  | none =>
    rw [he] at h
    cases hp : parseTrace lines with
    | ok is => rw [hp] at h; cases h; exact ⟨rfl, is, rfl, rfl⟩
    | error e =>
      rw [hp] at h
      have h' : (if s.opCounter = 0#64 then .fault (.traceFormat e)
        else .refused .traceErrorAfterFirstOperation : Host.Outcome State Fault Refusal) = .next t := h
      split at h' <;> cases h'
    | unspecified => rw [hp] at h; cases h

/-- A trace handed over that faults: no operation has been performed, no error is asserted, a line is malformed. -/
theorem loadTrace_fault {lines : List (List Char)} {s : State} {f : Fault} (h : loadTrace lines s = .fault f) :
    s.opCounter = 0#64 ∧ s.cfgError = none ∧ ∃ e, parseTrace lines = .error e ∧ f = .traceFormat e := by
  unfold loadTrace at h
  cases he : s.cfgError with
  | some e => rw [he] at h; cases h
  | none =>
    rw [he] at h
    cases hp : parseTrace lines with
    | ok is => rw [hp] at h; cases h
    | error e =>
      rw [hp] at h
      have h' : (if s.opCounter = 0#64 then .fault (.traceFormat e)
        else .refused .traceErrorAfterFirstOperation : Host.Outcome State Fault Refusal) = .fault f := h
      split at h' <;> cases h'
      exact ⟨‹_›, rfl, e, rfl, rfl⟩
    | unspecified => rw [hp] at h; cases h

/-- A trace reads as requests exactly when each of its lines does. -/
theorem parseTrace_eq_ok {lines : List (List Char)} {is : List Instr} :
    parseTrace lines = .ok is ↔ List.Forall₂ (fun line i => parseLine line = .ok i) lines is := by
  induction lines generalizing is with
  | nil =>
    constructor
    · intro h; cases h; exact .nil
    · intro h; cases h; rfl
  | cons line lines ih =>
    unfold parseTrace
    constructor
    · intro h
      cases hl : parseLine line with
      | error e => rw [hl] at h; cases h
      | unspecified => rw [hl] at h; cases h
      | ok i =>
        rw [hl] at h
        cases ht : parseTrace lines with
        | error e => simp [ht] at h
        | unspecified => simp [ht] at h
        | ok js =>
          simp only [ht, Parsed.ok.injEq] at h
          subst h
          exact .cons hl (ih.1 ht)
    · intro h
      cases h with
      | cons h1 h2 => simp only [h1, ih.2 h2]

/-- The first line of a trace that is no request decides what it gives. -/
theorem parseTrace_of_error {before after : List (List Char)} {line : List Char} {e : TraceError}
    (hb : ∀ x ∈ before, ∃ i, parseLine x = .ok i) (he : parseLine line = .error e) :
    parseTrace (before ++ line :: after) = .error e := by
  induction before with
  | nil => simp [parseTrace, he]
  | cons x before ih =>
    obtain ⟨i, hi⟩ := hb x (by simp)
    simp [parseTrace, hi, ih fun y hy => hb y (by simp [hy])]

/-- All that a step to a next state can have been. -/
theorem step_cases {s t : State} (h : step s = .next t) :
    (s.pending = [] ∧ t = s) ∨
    (∃ c rest, (s.pending = .reset c :: rest ∨ ∃ w, s.pending = .resetPacked w :: rest ∧ c = unpackCfg w) ∧
      t = (s.popped rest).afterReset c (configError c) ∧ (configError c = none → inBounds c = true)) ∨
    (∃ w sb rest, s.pending = .request w sb :: rest ∧ exec (decodeReq w) ((s.popped rest).latch sb) = .next t) ∨
    (∃ rest, s.pending = .changeCfg s.cfg :: rest ∧ t = s.popped rest) ∨
    ∃ lines rest is, s.pending = .trace lines :: rest ∧ s.cfgError = none ∧ parseTrace lines = .ok is ∧
      t = s.popped (is.map textRequest ++ rest) := by
  have hreset : ∀ c rest, applyReset c (s.popped rest) = .next t →
      t = (s.popped rest).afterReset c (configError c) ∧ (configError c = none → inBounds c = true) := by
    intro c rest hr
    rcases applyReset_cases c (s.popped rest) with ⟨h1, -⟩ | ⟨h1, h2⟩
    · rw [h1] at hr; cases hr
    · rw [h1] at hr; cases hr; exact ⟨rfl, h2⟩
  unfold step at h
  cases hp : s.pending with
  | nil => rw [hp] at h; cases h; exact .inl ⟨rfl, rfl⟩
  | cons ev rest =>
    rw [hp] at h
    right
    cases ev with
    | reset c => exact .inl ⟨c, rest, .inl rfl, hreset c rest h⟩
    | resetPacked w => exact .inl ⟨unpackCfg w, rest, .inr ⟨w, rfl, rfl⟩, hreset _ rest h⟩
    | request w sb => exact .inr (.inl ⟨w, sb, rest, rfl, h⟩)
    | changeCfg c =>
      rcases changeCfg_cases c (s.popped rest) with ⟨h1, hc⟩ | ⟨h1, -⟩
      · have h' : changeCfg c (s.popped rest) = .next t := h
        rw [h1] at h'; cases h'
        exact .inr (.inr (.inl ⟨rest, by rw [hc]; rfl, rfl⟩))
      · have h' : changeCfg c (s.popped rest) = .next t := h
        rw [h1] at h'; cases h'
    | trace lines =>
      obtain ⟨h1, is, h2, h3⟩ := loadTrace_next h
      exact .inr (.inr (.inr ⟨lines, rest, is, rfl, h1, h2, h3⟩))

/-- Only a malformed trace handed over makes a step fault, and only before the first operation. -/
theorem step_fault {s : State} {f : Fault} (h : step s = .fault f) :
    ∃ lines rest e, s.pending = .trace lines :: rest ∧ s.opCounter = 0#64 ∧ s.cfgError = none ∧
      parseTrace lines = .error e ∧ f = .traceFormat e := by
  have hreset : ∀ c rest, applyReset c (s.popped rest) ≠ .fault f := by
    intro c rest hr
    rcases applyReset_cases c (s.popped rest) with ⟨h1, -⟩ | ⟨h1, -⟩ <;> rw [h1] at hr <;> cases hr
  unfold step at h
  cases hp : s.pending with
  | nil => rw [hp] at h; cases h
  | cons ev rest =>
    rw [hp] at h
    cases ev with
    | reset c => exact absurd h (hreset c rest)
    | resetPacked w => exact absurd h (hreset _ rest)
    | request w sb =>
      rcases exec_cases (decodeReq w) ((s.popped rest).latch sb) with ⟨r, hr⟩ | ⟨-, st, n, hn, -⟩
      · have h' : exec (decodeReq w) ((s.popped rest).latch sb) = .fault f := h
        rw [hr] at h'; cases h'
      · have h' : exec (decodeReq w) ((s.popped rest).latch sb) = .fault f := h
        rw [hn] at h'; cases h'
    | changeCfg c =>
      have h' : changeCfg c (s.popped rest) = .fault f := h
      rcases changeCfg_cases c (s.popped rest) with ⟨h1, -⟩ | ⟨h1, -⟩ <;> rw [h1] at h' <;> cases h'
    | trace lines =>
      obtain ⟨h1, h2, e, h3, h4⟩ := loadTrace_fault h
      exact ⟨lines, rest, e, rfl, h1, h2, h3, h4⟩

/-! ### The canonical form of memory -/

theorem reset_memory_wf : Memory.wf State.reset.mem = true := rfl

theorem memAfterEviction_wf {s : State} (h : Memory.wf s.mem = true) (i : Nat) :
    Memory.wf (s.memAfterEviction i) = true := by
  unfold State.memAfterEviction
  split
  · exact Memory.wf_writeBytes h _ _
  · exact h

/-- The memory a request leaves is in canonical form where it was before. -/
theorem requestMem_wf {s : State} (h : Memory.wf s.mem = true) (i : Instr) : Memory.wf (requestMem i s) = true := by
  have he := memAfterEviction_wf h (decoded i s).index
  cases i with
  | load a =>
    cases hl : lookup (s.row (decoded (.load a) s).index) (decoded (.load a) s).tag with
    | some w => simpa only [requestMem, hl] using h
    | none => simpa only [requestMem, hl] using he
  | store a =>
    cases hl : lookup (s.row (decoded (.store a) s).index) (decoded (.store a) s).tag with
    | some w =>
      simp only [requestMem, hl]
      split_ifs
      · exact Memory.wf_writeBytes h _ _
      · exact h
    | none =>
      simp only [requestMem, hl]
      split_ifs
      · exact Memory.wf_writeBytes he _ _
      · exact he
      · exact Memory.wf_writeBytes h _ _
      · exact h

end Sys2Proof.Machine
end

