-- ==== Sys2Proof/Laws/Invariant.lean ====
section
/-! SUPPORT. The row rules of the invariant slot by slot, and what TOUCH, an install and a STORE hit do to them. -/

namespace Sys2Proof.Machine

/-! ### The row rules, slot by slot -/

/-- The rules of a row but for its data, slot by slot, with `n` blocks in it. -/
structure RowShape (c : Cfg) (row : List Slot) (n : Nat) : Prop where
  len : row.length = c.ways
  le : n ≤ row.length
  valid : ∀ j < row.length, (slotAt row j).valid = true ↔ j < n
  tags : ∀ j < n, ∀ k < n, (slotAt row j).tag = (slotAt row k).tag → j = k
  rankLt : lruActive c = true → ∀ j < n, (slotAt row j).accessSeq.toNat < n
  rankInj : lruActive c = true → ∀ j < n, ∀ k < n, (slotAt row j).accessSeq = (slotAt row k).accessSeq → j = k

/-- Values read off the blocks have no repeats where no two slots share one. -/
theorem nodup_map_occupiedSlots {β : Type} {row : List Slot} {g : Slot → β}
    (h : ∀ j k, (slotAt row j).valid = true → (slotAt row k).valid = true → g (slotAt row j) = g (slotAt row k) → j = k) :
    ((occupiedSlots row).map g).Nodup := by
  induction row with
  | nil => simp [occupiedSlots]
  | cons x row ih =>
    have ih' : ((occupiedSlots row).map g).Nodup := ih fun j k hj hk he => by
      have := h (j + 1) (k + 1) hj hk he
      omega
    by_cases hx : x.valid = true
    · have he : occupiedSlots (x :: row) = x :: occupiedSlots row := by simp [occupiedSlots, hx]
      rw [he, List.map_cons, List.nodup_cons]
      refine ⟨fun hm => ?_, ih'⟩
      obtain ⟨y, hy, hgy⟩ := List.mem_map.1 hm
      obtain ⟨hy1, hy2⟩ := mem_occupiedSlots.1 hy
      obtain ⟨k, hk, rfl⟩ := List.getElem_of_mem hy1
      rw [← slotAt_eq_getElem hk] at hy2 hgy
      have := h 0 (k + 1) hx hy2 hgy.symm
      omega
    · have he : occupiedSlots (x :: row) = occupiedSlots row := by simp [occupiedSlots, hx]
      rw [he]; exact ih'

theorem RowShape.count {c : Cfg} {row : List Slot} {n : Nat} (h : RowShape c row n) :
    (occupiedSlots row).length = n := by
  have hf : occupiedFirst row = true := occupiedFirst_of_valid_iff h.valid
  have hle := occupiedSlots_length_le row
  by_contra hne
  rcases Nat.lt_or_gt_of_ne hne with hlt | hlt
  · have h1 := (valid_iff_lt_occupied hf (occupiedSlots row).length).1
      ((h.valid _ (by have := h.le; omega)).2 hlt)
    omega
  · have h1 := (h.valid n (by omega)).1 ((valid_iff_lt_occupied hf n).2 hlt)
    omega

/-- The rules of a row in the invariant's own words, from the slot-by-slot ones. -/
theorem RowShape.rules {c : Cfg} {row : List Slot} {n : Nat} (h : RowShape c row n) :
    row.length = c.ways ∧ occupiedFirst row = true ∧ (heldTags row).Nodup ∧
    (lruActive c = true → (ranks row).Perm (List.range (occupied row))) := by
  have hn := h.count
  have hval : ∀ j, (slotAt row j).valid = true → j < n := fun j hj => (h.valid j (lt_of_valid hj)).1 hj
  refine ⟨h.len, occupiedFirst_of_valid_iff h.valid,
    nodup_map_occupiedSlots fun j k hj hk => h.tags j (hval j hj) k (hval k hk), fun hl => ?_⟩
  have hnd : (ranks row).Nodup := nodup_map_occupiedSlots fun j k hj hk he =>
    h.rankInj hl j (hval j hj) k (hval k hk) (BitVec.eq_of_toNat_eq he)
  rw [occupied_eq_length, hn]
  refine (List.subperm_of_subset hnd fun x hx => ?_).perm_of_length_le (by simp [ranks, hn])
  obtain ⟨y, hy, rfl⟩ := List.mem_map.1 hx
  obtain ⟨hy1, hy2⟩ := mem_occupiedSlots.1 hy
  obtain ⟨k, hk, rfl⟩ := List.getElem_of_mem hy1
  rw [← slotAt_eq_getElem hk] at hy2 ⊢
  exact List.mem_range.2 (h.rankLt hl k (hval k hy2))

/-- And back. -/
theorem rowShape_of_rules {c : Cfg} {row : List Slot} (h1 : row.length = c.ways) (h2 : occupiedFirst row = true)
    (h3 : (heldTags row).Nodup) (h4 : lruActive c = true → (ranks row).Perm (List.range (occupied row))) :
    RowShape c row (occupied row) := by
  have hval := valid_iff_lt_occupied h2
  rw [occupied_eq_length] at *
  refine ⟨h1, occupiedSlots_length_le row, fun j _ => hval j, fun j hj k hk he => ?_, fun hl j hj => ?_,
    fun hl j hj k hk he => ?_⟩
  · exact slot_injective h3 ((hval j).2 hj) ((hval k).2 hk) he
  · have hv := (hval j).2 hj
    exact rank_lt (by rw [occupied_eq_length]; exact h4 hl) (mem_occupiedSlots.2 ⟨slotAt_mem (lt_of_valid hv), hv⟩)
  · exact slot_injective (g := fun sl => sl.accessSeq.toNat) (ranks_nodup (by rw [occupied_eq_length]; exact h4 hl))
      ((hval j).2 hj) ((hval k).2 hk) (congrArg BitVec.toNat he)

theorem Inv.rowShape {s : State} (h : Inv s) {i : Nat} (hi : i < s.cfg.sets) :
    RowShape s.cfg (s.row i) (occupied (s.row i)) := by
  obtain ⟨-, h1, h2, h3, h4, -⟩ := h.rowOk hi
  exact rowShape_of_rules h1 h2 h3 h4

theorem Inv.occupied_le {s : State} (h : Inv s) (he : s.cfgError = none) (i : Nat) : occupied (s.row i) ≤ 2 ^ 31 := by
  have h1 := h.row_length i
  have h2 := h.ways_le he
  have h3 := occupiedSlots_length_le (s.row i)
  rw [occupied_eq_length]
  omega

/-! ### TOUCH -/

theorem RowShape.touch {c : Cfg} {row : List Slot} {n w : Nat} (h : RowShape c row n) (hn : n ≤ 2 ^ 31) (hw : w < n) :
    RowShape c (touchRow row w) n := by
  have hlen : (touchRow row w).length = row.length := by simp [touchRow]
  have hle := h.le
  have hat : ∀ j < n, slotAt (touchRow row w) j =
      if j = w then { slotAt row j with accessSeq := 0#32 }
      else if (slotAt row j).accessSeq < (slotAt row w).accessSeq then (slotAt row j).aged else slotAt row j := by
    intro j hj
    rw [slotAt_touchRow (by omega), (h.valid j (by omega)).2 hj]
    simp
  have htag : ∀ j < n, (slotAt (touchRow row w) j).tag = (slotAt row j).tag := by
    intro j hj; rw [hat j hj]; split_ifs <;> rfl
  refine ⟨hlen ▸ h.len, by omega, fun j hj => ?_, fun j hj k hk he => ?_, fun hl j hj => ?_, fun hl j hj k hk he => ?_⟩
  · rw [hlen] at hj
    rw [← h.valid j hj, slotAt_touchRow hj]
    split_ifs <;> rfl
  · rw [htag j hj, htag k hk] at he
    exact h.tags j hj k hk he
  · have h1 := h.rankLt hl j hj
    have h2 := h.rankLt hl w hw
    rw [hat j hj]
    split_ifs with hjw hlt
    · simp; omega
    · rw [aged_toNat h1 hn]; rw [BitVec.lt_def] at hlt; omega
    · exact h1
  · have hj1 := h.rankLt hl j hj
    have hk1 := h.rankLt hl k hk
    rw [hat j hj, hat k hk] at he
    have he' := congrArg BitVec.toNat he
    have hinj := h.rankInj hl
    by_cases hjw : j = w <;> by_cases hkw : k = w
    · omega
    · exfalso
      simp only [hjw, hkw, if_true, if_false] at he'
      split_ifs at he' with hlt
      · rw [aged_toNat hk1 hn] at he'; simp at he'
      · rw [BitVec.lt_def] at hlt
        have : (slotAt row k).accessSeq = (slotAt row w).accessSeq := BitVec.eq_of_toNat_eq (by simp at he'; omega)
        exact hkw (hinj k hk w hw this)
    · exfalso
      simp only [hjw, hkw, if_true, if_false] at he'
      split_ifs at he' with hlt
      · rw [aged_toNat hj1 hn] at he'; simp at he'
      · rw [BitVec.lt_def] at hlt
        have : (slotAt row j).accessSeq = (slotAt row w).accessSeq := BitVec.eq_of_toNat_eq (by simp at he'; omega)
        exact hjw (hinj j hj w hw this)
    · simp only [hjw, hkw, if_false] at he'
      apply hinj j hj k hk
      apply BitVec.eq_of_toNat_eq
      have hjne : (slotAt row j).accessSeq.toNat ≠ (slotAt row w).accessSeq.toNat := fun hh =>
        hjw (hinj j hj w hw (BitVec.eq_of_toNat_eq hh))
      have hkne : (slotAt row k).accessSeq.toNat ≠ (slotAt row w).accessSeq.toNat := fun hh =>
        hkw (hinj k hk w hw (BitVec.eq_of_toNat_eq hh))
      simp only [BitVec.lt_def] at he'
      split_ifs at he' with hl1 hl2 hl2
      · rw [aged_toNat hj1 hn, aged_toNat hk1 hn] at he'; omega
      · rw [aged_toNat hj1 hn] at he'; omega
      · rw [aged_toNat hk1 hn] at he'; omega
      · exact he'

/-- A slot changed in its dirty bit and data only leaves the row rules as they are. -/
theorem RowShape.set_same {c : Cfg} {row : List Slot} {n w : Nat} (h : RowShape c row n) {x : Slot}
    (hv : x.valid = (slotAt row w).valid) (ht : x.tag = (slotAt row w).tag)
    (ha : x.accessSeq = (slotAt row w).accessSeq) : RowShape c (row.set w x) n := by
  have hlen : (row.set w x).length = row.length := by simp
  have hat : ∀ j, (slotAt (row.set w x) j).valid = (slotAt row j).valid ∧ (slotAt (row.set w x) j).tag = (slotAt row j).tag ∧
      (slotAt (row.set w x) j).accessSeq = (slotAt row j).accessSeq := by
    intro j
    rw [slotAt_set]
    split_ifs with hjw
    · obtain ⟨rfl, -⟩ := hjw; exact ⟨hv, ht, ha⟩
    · exact ⟨rfl, rfl, rfl⟩
  refine ⟨hlen ▸ h.len, hlen ▸ h.le, fun j hj => ?_, fun j hj k hk he => ?_, fun hl j hj => ?_, fun hl j hj k hk he => ?_⟩
  · rw [(hat j).1]; exact h.valid j (hlen ▸ hj)
  · rw [(hat j).2.1, (hat k).2.1] at he; exact h.tags j hj k hk he
  · rw [(hat j).2.2]; exact h.rankLt hl j hj
  · rw [(hat j).2.2, (hat k).2.2] at he; exact h.rankInj hl j hj k hk he

/-! ### The installs -/

/-- The slot an install takes, while the set has room and when it is full. -/
theorem installSlot_cases {s : State} (h : Inv s) (hd : Dims s.cfg) {i : Nat} (hi : i < s.cfg.sets) :
    (installSlot s i = occupied (s.row i) ∧ occupied (s.row i) < s.cfg.ways ∧ (s.victim i).valid = false) ∨
    (occupied (s.row i) = s.cfg.ways ∧ installSlot s i < s.cfg.ways ∧ (s.victim i).valid = true ∧
      (lruActive s.cfg = true → ∀ j < s.cfg.ways, j ≠ installSlot s i →
        (slotAt (s.row i) j).accessSeq.toNat < (s.victim i).accessSeq.toNat)) := by
  have hs := h.rowShape hi
  have hlt := installSlot_lt h hd i
  have hlen := hs.len
  have hle := hs.le
  by_cases hroom : occupied (s.row i) < s.cfg.ways
  · left
    have hw : installSlot s i = occupied (s.row i) := by
      unfold installSlot
      split_ifs with h1
      · omega
      · rfl
    refine ⟨hw, hroom, ?_⟩
    unfold State.victim
    rw [State.slot_def, hw, ← Bool.not_eq_true, hs.valid _ (by omega)]
    omega
  · right
    have hfull : occupied (s.row i) = s.cfg.ways := by omega
    refine ⟨hfull, hlt, ?_, fun hl j hj hjw => ?_⟩
    · unfold State.victim
      rw [State.slot_def, hs.valid _ (by omega)]
      omega
    · obtain ⟨-, -, -, -, hdense, -⟩ := h.rowOk hi
      obtain ⟨hp, h1⟩ := lruActive_iff.1 hl
      have hw : installSlot s i = victimLru (s.row i) := by
        unfold installSlot; rw [if_neg (by omega), if_neg hroom, if_pos hp]
      have hne : s.row i ≠ [] := by intro h0; rw [h0] at hlen; simp at hlen; omega
      unfold State.victim
      rw [State.slot_def, hw]
      exact victimLru_top (hdense hl) (by rw [← occupied_eq_length]; omega) hne (by omega) (by rw [← hw]; exact hjw)

/-- The row rules after an install of a tag the set does not hold, at the slot ALLOCATE takes. -/
theorem RowShape.install {s : State} (h : Inv s) (he : s.cfgError = none) {i : Nat} (hi : i < s.cfg.sets) {x : Slot}
    (hv : x.valid = true) (ha : x.accessSeq = 0#32) (ht : lookup (s.row i) x.tag = none) :
    ∃ n, RowShape s.cfg (installedRow s.cfg (s.row i) (installSlot s i) x) n ∧
      n = (if occupied (s.row i) < s.cfg.ways then occupied (s.row i) + 1 else s.cfg.ways) := by
  have hd := h.dims he
  have hs := h.rowShape hi
  have hlt := installSlot_lt h hd i
  have hlen := hs.len
  have hle := hs.le
  have hn31 := h.occupied_le he i
  have hlen' : (installedRow s.cfg (s.row i) (installSlot s i) x).length = (s.row i).length := by simp
  have hnew : ∀ j < s.cfg.ways, (slotAt (s.row i) j).valid = true → (slotAt (s.row i) j).tag ≠ x.tag := by
    intro j hj hjv hjt
    exact lookup_eq_none.1 ht _ (slotAt_mem (by omega)) ⟨hjv, hjt⟩
  -- slot j of the new row
  have hat : ∀ j < s.cfg.ways, slotAt (installedRow s.cfg (s.row i) (installSlot s i) x) j =
      if j = installSlot s i then x else if lruActive s.cfg && (slotAt (s.row i) j).valid then (slotAt (s.row i) j).aged
        else slotAt (s.row i) j := fun j hj => slotAt_installedRow (by omega)
  have hold : ∀ j < s.cfg.ways, j ≠ installSlot s i →
      (slotAt (installedRow s.cfg (s.row i) (installSlot s i) x) j).valid = (slotAt (s.row i) j).valid ∧
      (slotAt (installedRow s.cfg (s.row i) (installSlot s i) x) j).tag = (slotAt (s.row i) j).tag := by
    intro j hj hjw
    rw [hat j hj, if_neg hjw]
    split <;> exact ⟨rfl, rfl⟩
  have hnewslot : slotAt (installedRow s.cfg (s.row i) (installSlot s i) x) (installSlot s i) = x := by
    rw [hat _ hlt, if_pos rfl]
  -- how many blocks there are after it, and which
  set n := (if occupied (s.row i) < s.cfg.ways then occupied (s.row i) + 1 else s.cfg.ways) with hn
  have hcase := installSlot_cases h hd hi
  have hnle : n ≤ s.cfg.ways := by rw [hn]; split_ifs <;> omega
  have holdv : ∀ j < n, j ≠ installSlot s i → (slotAt (s.row i) j).valid = true ∧ j < occupied (s.row i) := by
    intro j hj hjw
    have : j < occupied (s.row i) := by
      rcases hcase with ⟨h1, h2, -⟩ | ⟨h1, -⟩
      · rw [hn, if_pos h2] at hj; omega
      · omega
    exact ⟨(hs.valid j (by omega)).2 this, this⟩
  have hrank : lruActive s.cfg = true → ∀ j < n, j ≠ installSlot s i →
      (slotAt (installedRow s.cfg (s.row i) (installSlot s i) x) j).accessSeq.toNat =
        (slotAt (s.row i) j).accessSeq.toNat + 1 ∧ (slotAt (s.row i) j).accessSeq.toNat + 1 < n := by
    intro hl j hj hjw
    obtain ⟨hjv, hjo⟩ := holdv j hj hjw
    have h1 := hs.rankLt hl j hjo
    rw [hat j (by omega), if_neg hjw, hl, hjv]
    refine ⟨aged_toNat h1 hn31, ?_⟩
    rcases hcase with ⟨h2, h3, -⟩ | ⟨h2, -, hvv, h4⟩
    · rw [hn, if_pos h3]; omega
    · have h5 := h4 hl j (by omega) hjw
      have h6 := hs.rankLt hl (installSlot s i) (by omega)
      unfold State.victim at h5
      rw [State.slot_def] at h5
      rw [hn, if_neg (by omega)]
      omega
  refine ⟨n, ⟨by rw [hlen', hlen], by omega, fun j hj => ?_, fun j hj k hk hjk => ?_, fun hl j hj => ?_,
    fun hl j hj k hk hjk => ?_⟩, rfl⟩
  · rw [hlen', hlen] at hj
    by_cases hjw : j = installSlot s i
    · rw [hjw, hnewslot, hv]
      simp only [true_iff]
      rcases hcase with ⟨h1, h2, -⟩ | ⟨h1, -⟩
      · rw [hn, if_pos h2]; omega
      · rw [hn, if_neg (by omega)]; omega
    · rw [(hold j hj hjw).1, hs.valid j (by omega)]
      rcases hcase with ⟨h1, h2, -⟩ | ⟨h1, -⟩
      · rw [hn, if_pos h2]; omega
      · rw [hn, if_neg (by omega)]; omega
  · by_cases hjw : j = installSlot s i <;> by_cases hkw : k = installSlot s i
    · omega
    · exfalso
      rw [hjw, hnewslot, (hold k (by omega) hkw).2] at hjk
      exact hnew k (by omega) (holdv k hk hkw).1 hjk.symm
    · exfalso
      rw [hkw, hnewslot, (hold j (by omega) hjw).2] at hjk
      exact hnew j (by omega) (holdv j hj hjw).1 hjk
    · rw [(hold j (by omega) hjw).2, (hold k (by omega) hkw).2] at hjk
      exact hs.tags j (holdv j hj hjw).2 k (holdv k hk hkw).2 hjk
  · by_cases hjw : j = installSlot s i
    · rw [hjw, hnewslot, ha]; simp; omega
    · rw [(hrank hl j hj hjw).1]; exact (hrank hl j hj hjw).2
  · have hjk' := congrArg BitVec.toNat hjk
    by_cases hjw : j = installSlot s i <;> by_cases hkw : k = installSlot s i
    · omega
    · exfalso; rw [hjw, hnewslot, ha, (hrank hl k hk hkw).1] at hjk'; simp at hjk'
    · exfalso; rw [hkw, hnewslot, ha, (hrank hl j hj hjw).1] at hjk'; simp at hjk'
    · rw [(hrank hl j hj hjw).1, (hrank hl k hk hkw).1] at hjk'
      exact hs.rankInj hl j (holdv j hj hjw).2 k (holdv k hk hkw).2 (BitVec.eq_of_toNat_eq (by omega))

end Sys2Proof.Machine
end

