-- ==== Sys2Proof/Laws/Blocks.lean ====
section
/-! SUPPORT. Blocks of memory byte by byte: which addresses a block, a store and a write-back cover. -/

namespace Sys2Proof.Machine

theorem base_bound {c : Cfg} (h : Dims c) {t : Tag} {i : Nat} (ht : t.toNat < 2 ^ c.tagBits) (hi : i < c.sets) :
    (recompose c t i).toNat + c.bytes ≤ 2 ^ 32 := by
  rw [recompose_toNat h ht hi, ← h.span, pow_add]
  have h1 : (t.toNat + 1) * c.sets ≤ 2 ^ c.tagBits * c.sets := Nat.mul_le_mul_right _ ht
  rw [Nat.add_mul, one_mul] at h1
  have h2 : (t.toNat * c.sets + i + 1) * c.bytes ≤ 2 ^ c.tagBits * c.sets * c.bytes := Nat.mul_le_mul_right _ (by omega)
  rw [Nat.add_mul, one_mul] at h2
  rw [← h.bytes, ← h.sets]
  calc _ ≤ _ := h2
    _ = _ := by ring

/-- The addresses of a block are those that decode to its tag and index. -/
theorem in_block_iff {c : Cfg} (h : Dims c) {t : Tag} {i : Nat} (ht : t.toNat < 2 ^ c.tagBits) (hi : i < c.sets)
    (x : Address) : (x - recompose c t i).toNat < c.bytes ↔
      (decodeAddress c x).tag = t ∧ (decodeAddress c x).index = i := by
  have hb := base_bound h ht hi
  constructor
  · intro hk
    have hx : x.toNat = (recompose c t i).toNat + (x - recompose c t i).toNat := by bv_omega
    rw [decode_in_block h ht hi hk hx]
    exact ⟨rfl, rfl⟩
  · rintro ⟨rfl, rfl⟩
    have hx := toNat_eq_base_add_offset h x
    have ho := decodeAddress_offset_lt h x
    have : (x - recompose c (decodeAddress c x).tag (decodeAddress c x).index).toNat = (decodeAddress c x).offset := by
      bv_omega
    omega

theorem block_offset {c : Cfg} (h : Dims c) (x : Address) :
    (x - recompose c (decodeAddress c x).tag (decodeAddress c x).index).toNat = (decodeAddress c x).offset := by
  have hx := toNat_eq_base_add_offset h x
  have ho := decodeAddress_offset_lt h x
  bv_omega

theorem block_address {c : Cfg} (h : Dims c) (x : Address) :
    recompose c (decodeAddress c x).tag (decodeAddress c x).index + BitVec.ofNat 32 (decodeAddress c x).offset = x := by
  have hx := toNat_eq_base_add_offset h x
  have ho := decodeAddress_offset_lt h x
  apply BitVec.eq_of_toNat_eq
  have := x.isLt
  have : (decodeAddress c x).offset < 2 ^ 32 := by omega
  rw [BitVec.toNat_add, BitVec.toNat_ofNat, Nat.mod_eq_of_lt this, ← hx]
  omega

theorem data_eq_readBytes {c : Cfg} (h : Dims c) {t : Tag} {i : Nat} (ht : t.toNat < 2 ^ c.tagBits) (hi : i < c.sets)
    {m : List Host.Cell} {data : List Byte} (hl : data.length = c.bytes) :
    data = Memory.readBytes m (recompose c t i) c.bytes ↔
      ∀ x, (decodeAddress c x).tag = t → (decodeAddress c x).index = i →
        data.getD (decodeAddress c x).offset 0#8 = Memory.read m x := by
  constructor
  · intro he x h1 h2
    subst h1 h2
    rw [he, Memory.readBytes_getD _ _ _ (decodeAddress_offset_lt h x), block_address h]
  · intro hx
    apply List.ext_getElem (by rw [hl]; simp)
    intro k h1 h2
    have hk : k < c.bytes := by omega
    have hb := base_bound h ht hi
    have hxk : (recompose c t i + BitVec.ofNat 32 k).toNat = (recompose c t i).toNat + k := by bv_omega
    have hdec := decode_in_block h ht hi hk hxk
    have := hx (recompose c t i + BitVec.ofNat 32 k) (by rw [hdec]) (by rw [hdec])
    rw [hdec] at this
    simp only at this
    have e1 := Memory.readBytes_getD (m := m) (recompose c t i) c.bytes k hk
    rw [← this] at e1
    rw [List.getD_eq_getElem _ _ h1, List.getD_eq_getElem _ _ h2] at e1
    exact e1.symm

/-- The bytes of a store inside one block. -/
theorem store_range {c : Cfg} (h : Dims c) {a x : Address} {n : Nat} (hn : a.toNat % c.bytes + n ≤ c.bytes) :
    (x - a).toNat < n ↔ (decodeAddress c x).tag = (decodeAddress c a).tag ∧
      (decodeAddress c x).index = (decodeAddress c a).index ∧
      (decodeAddress c a).offset ≤ (decodeAddress c x).offset ∧
      (decodeAddress c x).offset < (decodeAddress c a).offset + n := by
  have ha := toNat_eq_base_add_offset h a
  have hta := decodeAddress_tag_lt h a
  have hia := decodeAddress_index_lt h a
  have hb := base_bound h hta hia
  have hoa := decodeAddress_offset h a
  constructor
  · intro hk
    have hx : x.toNat = (recompose c (decodeAddress c a).tag (decodeAddress c a).index).toNat +
        ((decodeAddress c a).offset + (x - a).toNat) := by bv_omega
    rw [decode_in_block h hta hia (by omega) hx]
    exact ⟨rfl, rfl, by simp, by simp; omega⟩
  · rintro ⟨h1, h2, h3, h4⟩
    have hx := toNat_eq_base_add_offset h x
    rw [h1, h2] at hx
    have hox := decodeAddress_offset_lt h x
    bv_omega

theorem store_offset {c : Cfg} (h : Dims c) {a x : Address} {n : Nat} (hn : a.toNat % c.bytes + n ≤ c.bytes)
    (hx : (x - a).toNat < n) : (x - a).toNat = (decodeAddress c x).offset - (decodeAddress c a).offset := by
  obtain ⟨h1, h2, h3, h4⟩ := (store_range h hn).1 hx
  have e1 := toNat_eq_base_add_offset h x
  have e2 := toNat_eq_base_add_offset h a
  rw [h1, h2] at e1
  bv_omega

/-- Memory after the write-back of a dirty victim, byte by byte. -/
theorem read_memAfterEviction {s : State} (h : Inv s) (hd : Dims s.cfg) {i : Nat} (hi : i < s.cfg.sets)
    (hda : s.params.dataArray = true) (x : Address) :
    Memory.read (s.memAfterEviction i) x =
      if s.victimDirty i = true ∧ (decodeAddress s.cfg x).tag = (s.victim i).tag ∧ (decodeAddress s.cfg x).index = i then
        (s.victim i).data.getD (decodeAddress s.cfg x).offset 0#8
      else Memory.read s.mem x := by
  unfold State.memAfterEviction
  rw [hda, Bool.true_and]
  by_cases hv : s.victimDirty i = true
  · rw [if_pos hv]
    have hvalid : (s.victim i).valid = true := by
      unfold State.victimDirty at hv; simp only [Bool.and_eq_true] at hv; exact hv.1.1
    obtain ⟨-, -, -, -, -, hok⟩ := h.rowOk hi
    have hmem : s.victim i ∈ s.row i := slotAt_mem (lt_of_valid hvalid)
    obtain ⟨ht, -, -, hlen, -⟩ := hok _ hmem hvalid
    rw [hda, if_pos rfl] at hlen
    rw [Memory.read_writeBytes h.memCanonical _ _ (by rw [hlen]; have := hd.bytes_le; omega), hlen]
    have hiff := in_block_iff hd ht hi x
    by_cases hx : (decodeAddress s.cfg x).tag = (s.victim i).tag ∧ (decodeAddress s.cfg x).index = i
    · rw [if_pos (hiff.2 hx), if_pos ⟨hv, hx⟩, ← hx.1]
      have := block_offset hd x
      rw [hx.2] at this
      rw [this]
    · rw [if_neg (fun hk => hx (hiff.1 hk)), if_neg (by tauto)]
  · rw [if_neg hv, if_neg (by tauto)]

theorem victimDirty_wt {s : State} (hwt : s.cfg.writeThrough = true) (i : Nat) : s.victimDirty i = false := by
  unfold State.victimDirty; rw [hwt]; simp

theorem memAfterEviction_clean {s : State} {i : Nat} (hv : s.victimDirty i = false) : s.memAfterEviction i = s.mem := by
  unfold State.memAfterEviction; rw [hv]; simp

end Sys2Proof.Machine
end

