-- ==== Sys2Proof/Laws/Outcome.lean ====
section
/-! SUPPORT. `next_cases`: all that a LOAD or STORE that gives a next state can have done, with its outcome record. -/

namespace Sys2Proof.Machine

/-- Whether a request writes memory itself where it finds or installs its block. -/
abbrev StoresThrough (i : Instr) (s : State) : Prop := i.kind = .store ∧ s.cfg.writeThrough = true

/-- The dirty bit a request gives to the block it touches or installs. -/
def dirties (i : Instr) (s : State) : Bool := decide (i.kind = .store) && !s.cfg.writeThrough

/-- The outcome record of a hit at slot `w`. -/
def hitRecord (i : Instr) (s : State) (w : Nat) : OutcomeRecord :=
  { set := (decoded i s).index, tag := (decoded i s).tag, hit := true, slot := some w, victimTag := none, wroteBack := false
    cost := if StoresThrough i s then s.params.cost.memWrite + s.params.cost.access else s.params.cost.access
    events := if StoresThrough i s then [.write i.address] else [] }

/-- The outcome record of a miss that installs. -/
def installRecord (i : Instr) (s : State) : OutcomeRecord :=
  { set := (decoded i s).index, tag := (decoded i s).tag, hit := false, slot := some (installSlot s (decoded i s).index)
    victimTag := if (s.victim (decoded i s).index).valid then some (s.victim (decoded i s).index).tag else none
    wroteBack := s.victimDirty (decoded i s).index, cost := s.missCost (decoded i s).index
    events := s.writebackEvents (decoded i s).index ++ [.fill (blockBase s.cfg i.address)] ++
      (if StoresThrough i s then [.write i.address] else []) }

/-- The outcome record of a STORE that misses without write-allocate. -/
def directRecord (i : Instr) (s : State) : OutcomeRecord :=
  { set := (decoded i s).index, tag := (decoded i s).tag, hit := false, slot := none, victimTag := none, wroteBack := false
    cost := s.params.cost.memWrite, events := [.write i.address] }

/-- The row of the request's set with slot `w` touched where the LRU path is active. -/
def touchedRow (i : Instr) (s : State) (w : Nat) : List Slot :=
  if lruActive s.cfg then touchRow (s.row (decoded i s).index) w else s.row (decoded i s).index

@[simp] theorem touchedRow_length (i : Instr) (s : State) (w : Nat) :
    (touchedRow i s w).length = (s.row (decoded i s).index).length := by
  unfold touchedRow; split <;> simp [touchRow]

/-- A hit. -/
def Hit (i : Instr) (s t : State) : Prop :=
  ∃ w dat, lookup (s.row (decoded i s).index) (decoded i s).tag = some w ∧ t.outcome = some (hitRecord i s w) ∧
    t.row (decoded i s).index = (touchedRow i s w).set w
      { slotAt (s.row (decoded i s).index) w with
        accessSeq := if lruActive s.cfg then 0#32 else (slotAt (s.row (decoded i s).index) w).accessSeq
        dirty := (slotAt (s.row (decoded i s).index) w).dirty || dirties i s
        data := dat }

/-- A miss that installs the block. -/
def Installs (i : Instr) (s t : State) : Prop :=
  lookup (s.row (decoded i s).index) (decoded i s).tag = none ∧ (i.kind = .store → s.cfg.writeAllocate = true) ∧
  t.outcome = some (installRecord i s) ∧
  ∃ x : Slot, x.valid = true ∧ x.tag = (decoded i s).tag ∧ x.accessSeq = 0#32 ∧ x.loadSeq = s.opCounter.setWidth 32 ∧
    x.dirty = dirties i s ∧
    t.row (decoded i s).index = installedRow s.cfg (s.row (decoded i s).index) (installSlot s (decoded i s).index) x

/-- A STORE that misses without write-allocate. -/
def GoesDirect (i : Instr) (s t : State) : Prop :=
  lookup (s.row (decoded i s).index) (decoded i s).tag = none ∧ i.kind = .store ∧ s.cfg.writeAllocate = false ∧
  t.outcome = some (directRecord i s) ∧ t.row (decoded i s).index = s.row (decoded i s).index

/-- The row and the record of the effect, whatever the counters then do. -/
theorem outcome_cases {i : Instr} {s t : State} (h : Inv s) (hr : Ready i.kind i.address s)
    (hrow : t.row (decoded i s).index = requestRow i s)
    (hout : t.outcome = some ((requestEffect i s).2.record (decoded i s) (requestEffect i s).1)) :
    Hit i s t ∨ Installs i s t ∨ GoesDirect i s t := by
  have hd := h.dims hr.1
  have hi : (decoded i s).index < s.cfg.sets := decodeAddress_index_lt hd _
  have hbase : recompose s.cfg (decoded i s).tag (decoded i s).index = blockBase s.cfg i.address :=
    recompose_decode hd i.address
  unfold Hit Installs GoesDirect
  rw [hrow, hout]
  simp only [Option.some.injEq]
  cases i with
  | load a =>
    cases hl : lookup (s.row (decoded (.load a) s).index) (decoded (.load a) s).tag with
    | some w =>
      obtain ⟨hw, -⟩ := lookup_eq_some.1 hl
      refine .inl ⟨w, (slotAt (s.row (decoded (.load a) s).index) w).data, rfl, ?_, ?_⟩
      · simp only [requestEffect, hl, loadHit]; rfl
      · simp only [requestRow, hl]
        have hs : slotAt (touchedRow (.load a) s w) w = _ := set_touchRow_eq hw s.cfg
        change touchedRow (.load a) s w = _
        apply row_ext (by simp)
        intro j _
        rw [slotAt_set]
        split
        · rename_i hj
          rw [hj.1, hs]; simp [dirties, Instr.kind]
        · rfl
    | none =>
      refine .inr (.inl ⟨rfl, (fun hh => by cases hh), ?_, ?_⟩)
      · simp only [requestEffect, hl, loadMiss]
        rw [allocate_spec h hd hi, hbase]
        simp [Effect.record, installRecord, StoresThrough, Instr.kind, Instr.address]
      · simp only [requestRow, hl]
        exact ⟨_, rfl, rfl, rfl, rfl, rfl, rfl⟩
  | store a =>
    cases hl : lookup (s.row (decoded (.store a) s).index) (decoded (.store a) s).tag with
    | some w =>
      refine .inl ⟨w, if s.params.dataArray then
        putBytes (slotAt (s.row (decoded (.store a) s).index) w).data (decoded (.store a) s).offset s.req.wdata
        else (slotAt (s.row (decoded (.store a) s).index) w).data, rfl, ?_, ?_⟩
      · simp only [requestEffect, hl, storeHit]
        cases hwt : s.cfg.writeThrough <;>
          simp [Effect.record, hitRecord, StoresThrough, hwt, storeHitThroughCost, storeHitBackCost, Instr.kind, Instr.address]
      · simp only [requestRow, hl, touchedRow, dirties, Instr.kind, decide_true, Bool.true_and]
    | none =>
      refine .inr ?_
      by_cases hwa : s.cfg.writeAllocate = true
      · refine .inl ⟨rfl, fun _ => hwa, ?_, ?_⟩
        · simp only [requestEffect, hl, storeMiss, hwa, if_true, storeMissAllocate]
          rw [allocate_spec h hd hi, hbase]
          cases hwt : s.cfg.writeThrough <;>
            simp [Effect.record, installRecord, StoresThrough, hwt, Instr.kind, Instr.address]
        · simp only [requestRow, hl, hwa, if_true]
          exact ⟨_, rfl, rfl, rfl, rfl, rfl, rfl⟩
      · refine .inr ⟨rfl, rfl, by simpa using hwa, ?_, ?_⟩
        · simp only [requestEffect, hl, storeMiss, hwa, storeMissDirect]; rfl
        · simp only [requestRow, hl, hwa]; rfl

/-- All that a request that gives a next state has done. -/
theorem next_cases {i : Instr} {s t : State} (h : Inv s) (hx : exec i s = .next t) :
    Ready i.kind i.address s ∧ (Hit i s t ∨ Installs i s t ∨ GoesDirect i s t) ∧
    (∀ j, j ≠ (decoded i s).index → t.row j = s.row j) ∧ t.mem = requestMem i s ∧
    Sparse.wf (freeRow s.cfg) t.rows = true ∧
    t.params = s.params ∧ t.cfg = s.cfg ∧ t.cfgError = s.cfgError ∧ t.req = s.req ∧ t.pending = s.pending ∧
    ∃ r o, t.resp = some r ∧ t.outcome = some o ∧ r.hit = o.hit ∧
      (s.params.onOverflow = .refuse → CountersFit i.kind o.hit o.cost s ∧
        t.stat = s.stat.after i.kind o.hit o.cost ∧ t.opCounter = s.opCounter + 1#64) := by
  obtain ⟨hr, st, n, rfl, hc⟩ := exec_next hx
  obtain ⟨ho, hm, hw, hrow⟩ := requestEffect_spec h hr
  refine ⟨hr, outcome_cases h hr (by rw [State.row_completed, hrow, if_pos rfl]) rfl,
    fun j hj => by rw [State.row_completed, hrow, if_neg hj], hm, hw, ho.params, ho.cfg, ho.cfgError, ho.req, ho.pending,
    _, _, rfl, rfl, rfl, fun hov => ?_⟩
  obtain ⟨⟨f1, f2, f3⟩, rfl, rfl⟩ := hc (by rw [ho.params]; exact hov)
  rw [ho.opCounter] at f1
  rw [ho.stat] at f2 f3
  refine ⟨⟨f1, f2, f3⟩, ?_, ?_⟩
  · rw [State.completed_stat, ho.stat]; rfl
  · rw [State.completed_opCounter, ho.opCounter]

end Sys2Proof.Machine
end

