-- ==== Sys2Proof/Laws/PerInstr.lean ====
section
/-! SUPPORT. Statements about every instruction as syntax, made constructor by constructor. -/

/-- A bit of the word of a LOAD. -/
theorem Sys2Proof.getLsbD_encode_load (a : Sys2Proof.Address) (j : Nat) :
    (Sys2Proof.encode (.load a)).getLsbD j = a.getLsbD j := by
  change ((0#1 : BitVec 1) ++ a).getLsbD j = _
  rw [BitVec.getLsbD_append]
  split
  · rfl
  · rw [BitVec.getLsbD_of_ge a j (by omega)]; simp

/-- A bit of the word of a STORE. -/
theorem Sys2Proof.getLsbD_encode_store (a : Sys2Proof.Address) (j : Nat) :
    (Sys2Proof.encode (.store a)).getLsbD j = (decide (j = 32) || a.getLsbD j) := by
  change ((1#1 : BitVec 1) ++ a).getLsbD j = _
  rw [BitVec.getLsbD_append]
  split
  · rename_i h; rw [decide_eq_false (by omega), Bool.false_or]
  · rw [BitVec.getLsbD_of_ge a j (by omega), Bool.or_false, BitVec.getLsbD_one]
    by_cases h : j = 32 <;> simp [h]; omega

/-- The word of an instruction carries its address in bits 31:0 and its opcode in bit 32, the match pattern under the mask
of its row of the opcode table (30_encoding.md R92, R94). -/
def Sys2Proof.Laws.Opcode.Statement (i : Sys2Proof.Instr) : Prop :=
  i.wf = true ∧ Sys2Proof.reqAddress (Sys2Proof.encode i) = i.address ∧
  (Sys2Proof.encode i) &&& 0x100000000#33 =
    (match i.kind with
      | .load => 0x000000000#33
      | .store => 0x100000000#33)

theorem Sys2Proof.Laws.Opcode.load (address : Sys2Proof.Address) :
    Sys2Proof.Laws.Opcode.Statement (.load address) := by
  refine ⟨rfl, BitVec.eq_of_getLsbD_eq fun j hj => ?_, BitVec.eq_of_getLsbD_eq fun j hj => ?_⟩
  · rw [Sys2Proof.reqAddress, BitVec.getLsbD_extractLsb', Nat.zero_add, Sys2Proof.getLsbD_encode_load]
    simp [hj, Sys2Proof.Instr.address]
  · rw [show (0x100000000#33) = BitVec.twoPow 33 32 from rfl, BitVec.getLsbD_and, Sys2Proof.getLsbD_encode_load]
    by_cases h : j = 32
    · subst h; simp [Sys2Proof.Instr.kind]
    · simp [Ne.symm h, Sys2Proof.Instr.kind]

theorem Sys2Proof.Laws.Opcode.store (address : Sys2Proof.Address) :
    Sys2Proof.Laws.Opcode.Statement (.store address) := by
  refine ⟨rfl, BitVec.eq_of_getLsbD_eq fun j hj => ?_, BitVec.eq_of_getLsbD_eq fun j hj => ?_⟩
  · rw [Sys2Proof.reqAddress, BitVec.getLsbD_extractLsb', Nat.zero_add, Sys2Proof.getLsbD_encode_store]
    simp [hj, show j ≠ 32 by omega, Sys2Proof.Instr.address]
  · rw [show (0x100000000#33) = BitVec.twoPow 33 32 from rfl, BitVec.getLsbD_and, Sys2Proof.getLsbD_encode_store]
    by_cases h : j = 32
    · subst h; simp [Sys2Proof.Instr.kind]
    · simp [h, Ne.symm h, Sys2Proof.Instr.kind]
end

