-- ==== Sys2Proof/Laws/RequestRules.lean ====
section
/-! SUPPORT. The row and the memory a request leaves obey the rules of the invariant: the row rules, the slot rules, and
memory outside the request's set. -/

namespace Sys2Proof.Machine

/-- Byte by byte, the memory a request leaves, in a set other than the request's: as before. -/
theorem requestMem_other {s : State} {i : Instr} (h : Inv s) (hr : Ready i.kind i.address s)
    (hda : s.params.dataArray = true) {x : Address} (hx : (decodeAddress s.cfg x).index ≠ (decoded i s).index) :
    Memory.read (requestMem i s) x = Memory.read s.mem x := by
  have hd := h.dims hr.1
  have hi : (decoded i s).index < s.cfg.sets := decodeAddress_index_lt hd _
  have he : Memory.read (s.memAfterEviction (decoded i s).index) x = Memory.read s.mem x := by
    rw [read_memAfterEviction h hd hi hda, if_neg (by tauto)]
  have hst : ∀ a m, i = .store a → Memory.wf m = true →
      Memory.read (Memory.writeBytes m a s.req.wdata) x = Memory.read m x := by
    intro a m hia hm
    subst hia
    obtain ⟨hwf, hin⟩ := hr.2 hda
    have hlen : s.req.wdata.length = s.req.size := by
      unfold Sideband.wf at hwf; simp [Instr.kind] at hwf; exact hwf.2
    have hb := hd.bytes_le
    rw [Memory.read_writeBytes hm _ _ (by rw [hlen]; omega), hlen, if_neg]
    intro hlt
    exact hx ((store_range hd hin).1 hlt).2.1
  have hwf2 := memAfterEviction_wf h.memCanonical (decoded i s).index
  cases i with
  | load a =>
    cases hl : lookup (s.row (decoded (.load a) s).index) (decoded (.load a) s).tag with
    | some w => simp only [requestMem, hl]
    | none => simp only [requestMem, hl]; exact he
  | store a =>
    cases hl : lookup (s.row (decoded (.store a) s).index) (decoded (.store a) s).tag with
    | some w =>
      simp only [requestMem, hl]
      split_ifs
      · exact hst a _ rfl h.memCanonical
      · rfl
    | none =>
      simp only [requestMem, hl]
      split_ifs
      · rw [hst a _ rfl hwf2]; exact he
      · exact he
      · exact hst a _ rfl h.memCanonical

/-- The invariant after a change of one row and of memory, from the rules of that row and the memory outside its set. -/
theorem inv_of_row {s t : State} (h : Inv s) {i : Nat} {row : List Slot} {n : Nat}
    (hcfg : t.cfg = s.cfg) (herr : t.cfgError = s.cfgError) (hpar : t.params = s.params) (hne : s.cfgError = none)
    (hi : i < s.cfg.sets) (hrows : Sparse.wf (freeRow s.cfg) t.rows = true)
    (hrow : ∀ j, t.row j = if j = i then row else s.row j) (hshape : RowShape s.cfg row n)
    (hslots : ∀ sl ∈ row, SlotOk t i sl) (hmem : Memory.wf t.mem = true)
    (hother : s.params.dataArray = true → ∀ x, (decodeAddress s.cfg x).index ≠ i →
      Memory.read t.mem x = Memory.read s.mem x)
    (hcount : t.params.onOverflow = .refuse → t.opCounter.toNat =
      t.stat.loadHits.toNat + t.stat.loadMisses.toNat + t.stat.storeHits.toNat + t.stat.storeMisses.toNat) :
    Inv t := by
  refine ⟨?_, ?_, ?_, ?_, ?_, hmem, hcount⟩
  · rw [herr, hcfg]; exact h.checked
  · rw [herr, hcfg]; exact h.bounded
  · rw [herr]; intro hh; exact absurd hne hh
  · rw [hcfg]; exact hrows
  · intro e he
    have hre : t.row e.1 = e.2 := by
      unfold State.row; rw [hcfg]; exact Sparse.read_of_mem hrows he
    by_cases hei : e.1 = i
    · rw [hrow, if_pos hei] at hre
      rw [← hre, hei]
      obtain ⟨h1, h2, h3, h4⟩ := hshape.rules
      refine ⟨?_, ?_, h2, h3, ?_, hslots⟩
      · rw [hcfg]; exact hi
      · rw [hcfg]; exact h1
      · rw [hcfg]; exact h4
    · rw [hrow, if_neg hei] at hre
      have hd := h.dims hne
      have hlt : e.1 < s.cfg.sets := by
        by_contra hge
        have hout := h.row_out hge
        rw [hout] at hre
        obtain ⟨k, v⟩ := e
        have : v ≠ freeRow s.cfg := by
          clear hre hout hge hei
          generalize t.rows = m at *
          clear hrow
          induction m with
          | nil => cases he
          | cons y m ih =>
            obtain ⟨k', v'⟩ := y
            obtain ⟨h1, h2, h3⟩ := Sparse.wf_cons.1 hrows
            rcases List.mem_cons.1 he with he | he
            · cases he; exact h1
            · exact ih h3 he
        exact this hre.symm
      obtain ⟨h1, h2, h3, h4, h5, h6⟩ := h.rowOk hlt
      rw [hre] at h2 h3 h4 h5 h6
      refine ⟨by rw [hcfg]; exact h1, by rw [hcfg]; exact h2, h3, h4, by rw [hcfg]; exact h5, fun sl hsl hv => ?_⟩
      obtain ⟨g1, g2, g3, g4, g5⟩ := h6 sl hsl hv
      rw [hcfg, hpar]
      refine ⟨g1, g2, g3, g4, fun hda hdirty => ?_⟩
      rw [hda, if_pos rfl] at g4
      refine (data_eq_readBytes hd g1 h1 g4).2 fun x hx1 hx2 => ?_
      rw [hother hda x (by rw [hx2]; exact hei)]
      exact (data_eq_readBytes hd g1 h1 g4).1 (g5 hda hdirty) x hx1 hx2

/-- A slot that differs only in its rank, on the LRU path, in a state whose memory agrees on its block. -/
theorem slotOk_of {s t : State} {i : Nat} {x y : Slot} (hd : Dims s.cfg) (hi : i < s.cfg.sets) (hx : SlotOk s i x)
    (hcfg : t.cfg = s.cfg) (hpar : t.params = s.params) (hv : y.valid = x.valid) (ht : y.tag = x.tag)
    (hdt : y.dirty = x.dirty) (hda : y.data = x.data) (ha : lruActive s.cfg = false → y.accessSeq = x.accessSeq)
    (hmem : s.params.dataArray = true → x.valid = true → x.dirty = false →
      ∀ z, (decodeAddress s.cfg z).index = i → (decodeAddress s.cfg z).tag = x.tag →
      Memory.read t.mem z = Memory.read s.mem z) : SlotOk t i y := by
  intro hyv
  have hxv := hv ▸ hyv
  obtain ⟨g1, g2, g3, g4, g5⟩ := hx hxv
  rw [hcfg, hpar, ht, hdt, hda]
  refine ⟨g1, g2, fun hl => by rw [ha hl]; exact g3 hl, g4, fun h1 h2 => ?_⟩
  rw [h1, if_pos rfl] at g4
  refine (data_eq_readBytes hd g1 hi g4).2 fun z hz1 hz2 => ?_
  rw [hmem h1 hxv h2 z hz2 hz1]
  exact (data_eq_readBytes hd g1 hi g4).1 (g5 h1 h2) z hz1 hz2

/-- The bytes a STORE writes to memory. -/
theorem store_write {s : State} {a : Address} (hr : Ready .store a s) (hd : Dims s.cfg) (hda : s.params.dataArray = true)
    {m : List Host.Cell} (hm : Memory.wf m = true) (x : Address) :
    Memory.read (Memory.writeBytes m a s.req.wdata) x =
      if (x - a).toNat < s.req.size then s.req.wdata.getD (x - a).toNat 0#8 else Memory.read m x := by
  obtain ⟨hwf, hin⟩ := hr.2 hda
  have hlen : s.req.wdata.length = s.req.size := by
    unfold Sideband.wf at hwf; simp at hwf; exact hwf.2
  have hb := hd.bytes_le
  rw [Memory.read_writeBytes hm _ _ (by rw [hlen]; omega), hlen]

/-- The side-band of a STORE that is served. -/
theorem wdata_len {s : State} {a : Address} (hr : Ready .store a s) (hda : s.params.dataArray = true) :
    s.req.wdata.length = s.req.size ∧ a.toNat % s.cfg.bytes + s.req.size ≤ s.cfg.bytes := by
  obtain ⟨hwf, hin⟩ := hr.2 hda
  unfold Sideband.wf at hwf; simp at hwf; exact ⟨hwf.2, hin⟩

theorem mem_row {row : List Slot} {sl : Slot} (h : sl ∈ row) : ∃ j < row.length, sl = slotAt row j := by
  obtain ⟨k, hk, rfl⟩ := List.getElem_of_mem h
  exact ⟨k, hk, (slotAt_eq_getElem hk).symm⟩

/-- A byte of a block row that a STORE's data is put over. -/
theorem put_byte {s : State} {a : Address} (hr : Ready .store a s) (hd : Dims s.cfg) (hda : s.params.dataArray = true)
    {row : List Byte} (hl : row.length = s.cfg.bytes) {x : Address}
    (h1 : (decodeAddress s.cfg x).tag = (decodeAddress s.cfg a).tag)
    (h2 : (decodeAddress s.cfg x).index = (decodeAddress s.cfg a).index) :
    (putBytes row (decodeAddress s.cfg a).offset s.req.wdata).getD (decodeAddress s.cfg x).offset 0#8 =
      if (x - a).toNat < s.req.size then s.req.wdata.getD (x - a).toNat 0#8
      else row.getD (decodeAddress s.cfg x).offset 0#8 := by
  obtain ⟨hlen, hin⟩ := wdata_len hr hda
  rw [putBytes_getD (by rw [decodeAddress_offset hd, hl, hlen]; exact hin), hlen]
  by_cases hk : (x - a).toNat < s.req.size
  · have h3 := (store_range hd hin).1 hk
    rw [if_pos ⟨h3.2.2.1, h3.2.2.2⟩, if_pos hk, store_offset hd hin hk]
  · rw [if_neg hk, if_neg]
    intro h3
    exact hk ((store_range hd hin).2 ⟨h1, h2, h3⟩)

theorem put_len {s : State} {a : Address} (hr : Ready .store a s) (hd : Dims s.cfg) (hda : s.params.dataArray = true)
    {row : List Byte} (hl : row.length = s.cfg.bytes) :
    (putBytes row (decodeAddress s.cfg a).offset s.req.wdata).length = s.cfg.bytes := by
  obtain ⟨hlen, hin⟩ := wdata_len hr hda
  rw [putBytes_length, hl]
  rw [decodeAddress_offset hd, hl, hlen]; exact hin

/-- The slot rules after an install. -/
theorem slots_install {s t : State} (h : Inv s) (hne : s.cfgError = none) {i : Nat} (hi : i < s.cfg.sets) {x : Slot}
    (hcfg : t.cfg = s.cfg) (hpar : t.params = s.params) (hx : SlotOk t i x)
    (hlook : lookup (s.row i) x.tag = none)
    (hmem : s.params.dataArray = true →
      ∀ z, (decodeAddress s.cfg z).index = i → (decodeAddress s.cfg z).tag ≠ x.tag →
      ((s.victim i).valid = true → (decodeAddress s.cfg z).tag ≠ (s.victim i).tag) →
      Memory.read t.mem z = Memory.read s.mem z) :
    ∀ sl ∈ installedRow s.cfg (s.row i) (installSlot s i) x, SlotOk t i sl := by
  intro sl hsl
  have hd := h.dims hne
  have hsh := h.rowShape hi
  obtain ⟨j, hj, rfl⟩ := mem_row hsl
  have hj' : j < (s.row i).length := by simpa using hj
  rw [slotAt_installedRow hj']
  by_cases hjw : j = installSlot s i
  · rw [if_pos hjw]; exact hx
  · rw [if_neg hjw]
    obtain ⟨-, -, -, -, -, hok⟩ := h.rowOk hi
    have ho := hok _ (slotAt_mem hj')
    have key : s.params.dataArray = true → (slotAt (s.row i) j).valid = true → (slotAt (s.row i) j).dirty = false →
        ∀ z, (decodeAddress s.cfg z).index = i → (decodeAddress s.cfg z).tag = (slotAt (s.row i) j).tag →
        Memory.read t.mem z = Memory.read s.mem z := by
      intro hda hv _ z hz1 hz2
      refine hmem hda z hz1 ?_ fun hvv hzz => ?_
      · intro hh
        exact lookup_eq_none.1 hlook _ (slotAt_mem hj') ⟨hv, by rw [← hz2, hh]⟩
      · apply hjw
        have hwl : installSlot s i < (s.row i).length := by rw [hsh.len]; exact installSlot_lt h hd i
        apply hsh.tags j ((hsh.valid j hj').1 hv) (installSlot s i) ((hsh.valid _ hwl).1 hvv)
        rw [← hz2, hzz]; rfl
    split
    · rename_i hl
      simp only [Bool.and_eq_true] at hl
      exact slotOk_of hd hi ho hcfg hpar rfl rfl rfl rfl (fun hh => by rw [hl.1] at hh; cases hh) key
    · exact slotOk_of hd hi ho hcfg hpar rfl rfl rfl rfl (fun _ => rfl) key

theorem victimDirty_valid {s : State} {i : Nat} (hv : s.victimDirty i = true) : (s.victim i).valid = true := by
  unfold State.victimDirty at hv; simp only [Bool.and_eq_true] at hv; exact hv.1.1

/-- The slot rules after a request. -/
theorem requestRow_slots {s t : State} {i : Instr} (h : Inv s) (hr : Ready i.kind i.address s)
    (hcfg : t.cfg = s.cfg) (hpar : t.params = s.params) (htm : t.mem = requestMem i s) :
    ∀ sl ∈ requestRow i s, SlotOk t (decoded i s).index sl := by
  have hd := h.dims hr.1
  have hi : (decoded i s).index < s.cfg.sets := decodeAddress_index_lt hd _
  have htag : (decoded i s).tag.toNat < 2 ^ s.cfg.tagBits := decodeAddress_tag_lt hd _
  obtain ⟨-, -, -, -, -, hok⟩ := h.rowOk hi
  have hwf2 := memAfterEviction_wf h.memCanonical (decoded i s).index
  -- memory after the eviction, in this set, away from the victim
  have hev : s.params.dataArray = true → ∀ z, (decodeAddress s.cfg z).index = (decoded i s).index →
      ((s.victim (decoded i s).index).valid = true →
        (decodeAddress s.cfg z).tag ≠ (s.victim (decoded i s).index).tag) →
      Memory.read (s.memAfterEviction (decoded i s).index) z = Memory.read s.mem z := by
    intro hda z hz hzt
    rw [read_memAfterEviction h hd hi hda, if_neg]
    rintro ⟨hv, hz2, -⟩
    exact hzt (victimDirty_valid hv) hz2
  cases i with
  | load a =>
    cases hl : lookup (s.row (decoded (.load a) s).index) (decoded (.load a) s).tag with
    | some w =>
      simp only [requestRow, requestMem, hl] at htm ⊢
      intro sl hsl
      by_cases hlru : lruActive s.cfg = true
      · rw [if_pos hlru] at hsl
        obtain ⟨j, hj, rfl⟩ := mem_row hsl
        have hj' : j < (s.row (decoded (.load a) s).index).length := by simpa [touchRow] using hj
        rw [slotAt_touchRow hj']
        have ho := hok _ (slotAt_mem hj')
        have ha : ∀ {y : Slot}, lruActive s.cfg = false →
            y.accessSeq = (slotAt (s.row (decoded (.load a) s).index) j).accessSeq :=
          fun hh => by rw [hlru] at hh; cases hh
        split_ifs <;> exact slotOk_of hd hi ho hcfg hpar rfl rfl rfl rfl ha (fun _ _ _ _ _ _ => by rw [htm])
      · rw [if_neg hlru] at hsl
        exact slotOk_of hd hi (hok _ hsl) hcfg hpar rfl rfl rfl rfl (fun _ => rfl) (fun _ _ _ _ _ _ => by rw [htm])
    | none =>
      simp only [requestRow, requestMem, hl] at htm ⊢
      refine slots_install h hr.1 hi hcfg hpar ?_ hl ?_
      · intro _
        rw [hcfg, hpar, htm]
        refine ⟨htag, fun _ => by simp [newSlot, installDirty], fun _ => rfl, ?_, fun hda _ => ?_⟩
        · simp only [newSlot]; split <;> simp
        · simp only [newSlot, hda, if_true]
      · intro hda z hz1 _ hz3
        rw [htm]; exact hev hda z hz1 hz3
  | store a =>
    have hr' : Ready .store a s := hr
    cases hl : lookup (s.row (decoded (.store a) s).index) (decoded (.store a) s).tag with
    | some w =>
      obtain ⟨hw, hwv, hwt, -⟩ := lookup_eq_some.1 hl
      simp only [requestRow, requestMem, hl] at htm ⊢
      have hmem : s.params.dataArray = true → ∀ z, (decodeAddress s.cfg z).tag ≠ (decoded (.store a) s).tag →
          Memory.read t.mem z = Memory.read s.mem z := by
        intro hda z hz
        rw [htm]
        split_ifs
        · rw [store_write hr' hd hda h.memCanonical, if_neg]
          intro hk
          exact hz ((store_range hd (wdata_len hr' hda).2).1 hk).1
        · rfl
      have hsh := h.rowShape hi
      have hother : ∀ j, j ≠ w → ∀ hj' : j < (s.row (decoded (.store a) s).index).length, ∀ y : Slot,
          y.valid = (slotAt (s.row (decoded (.store a) s).index) j).valid →
          y.tag = (slotAt (s.row (decoded (.store a) s).index) j).tag →
          y.dirty = (slotAt (s.row (decoded (.store a) s).index) j).dirty →
          y.data = (slotAt (s.row (decoded (.store a) s).index) j).data →
          (lruActive s.cfg = false → y.accessSeq = (slotAt (s.row (decoded (.store a) s).index) j).accessSeq) →
          SlotOk t (decoded (.store a) s).index y := by
        intro j hjw hj' y h1 h2 h3 h4 h5
        refine slotOk_of hd hi (hok _ (slotAt_mem hj')) hcfg hpar h1 h2 h3 h4 h5 fun hda hv _ z _ hz2 => hmem hda z ?_
        rw [hz2]; intro hh
        exact hjw (hsh.tags j ((hsh.valid j hj').1 hv) w ((hsh.valid w hw).1 hwv) (by rw [hh, hwt]))
      intro sl hsl
      obtain ⟨j, hj, rfl⟩ := mem_row hsl
      have hlen' : (if lruActive s.cfg = true then touchRow (s.row (decoded (.store a) s).index) w
          else s.row (decoded (.store a) s).index).length = (s.row (decoded (.store a) s).index).length := by
        split <;> simp [touchRow]
      have hj' : j < (s.row (decoded (.store a) s).index).length := by rw [List.length_set, hlen'] at hj; exact hj
      rw [slotAt_set, hlen']
      by_cases hjw : j = w
      · rw [if_pos ⟨hjw, hw⟩]
        obtain ⟨g1, g2, g3, g4, g5⟩ := hok _ (slotAt_mem hw) hwv
        intro _
        rw [hcfg, hpar]
        refine ⟨g1, fun hwt' => by simp [g2 hwt', hwt'], fun hh => by simp [hh, g3 hh], ?_, fun hda hdirty => ?_⟩
        · by_cases hda : s.params.dataArray = true
          · simp only [hda, if_true] at g4 ⊢
            exact put_len hr' hd hda g4
          · simp only [hda] at g4 ⊢
            exact g4
        · simp only [hda, if_true] at g4 ⊢
          simp only [Bool.or_eq_false_iff, Bool.not_eq_false'] at hdirty
          simp only [hda, hdirty.2, Bool.and_self, if_true] at htm
          refine (data_eq_readBytes hd g1 hi (put_len hr' hd hda g4)).2 fun x hx1 hx2 => ?_
          rw [put_byte hr' hd hda g4 (hx1.trans hwt) hx2, htm, store_write hr' hd hda h.memCanonical,
            (data_eq_readBytes hd g1 hi g4).1 (g5 hda hdirty.1) x hx1 hx2]
      · rw [if_neg (by tauto)]
        by_cases hlru : lruActive s.cfg = true
        · rw [if_pos hlru, slotAt_touchRow hj', if_neg hjw]
          split_ifs <;> exact hother j hjw hj' _ rfl rfl rfl rfl (fun hh => absurd hh (by simp [hlru]))
        · rw [if_neg hlru]
          exact hother j hjw hj' _ rfl rfl rfl rfl (fun _ => rfl)
    | none =>
      by_cases hwa : s.cfg.writeAllocate = true
      · simp only [requestRow, requestMem, hl, hwa, if_true] at htm ⊢
        refine slots_install h hr.1 hi hcfg hpar ?_ hl ?_
        · intro _
          rw [hcfg, hpar, htm]
          refine ⟨htag, fun hwt => by simp [newSlot, installDirty, hwt], fun _ => rfl, ?_, fun hda hdirty => ?_⟩
          · by_cases hda : s.params.dataArray = true
            · simp only [hda, if_true]
              exact put_len hr' hd hda (by simp)
            · simp only [hda]; simp
          · simp only [newSlot, installDirty] at hdirty
            have hwt : s.cfg.writeThrough = true := by simpa using hdirty
            simp only [hda, hwt, Bool.and_self, if_true, memAfterEviction_clean (victimDirty_wt hwt _)]
            refine (data_eq_readBytes hd htag hi (put_len hr' hd hda (by simp))).2 fun x hx1 hx2 => ?_
            rw [put_byte hr' hd hda (by simp) hx1 hx2, store_write hr' hd hda h.memCanonical]
            rw [(data_eq_readBytes (c := s.cfg) hd htag hi (by simp)).1 rfl x hx1 hx2]
        · intro hda z hz1 hz2 hz3
          rw [htm]
          split_ifs
          · rw [store_write hr' hd hda hwf2, if_neg]
            · exact hev hda z hz1 hz3
            · intro hk
              exact hz2 ((store_range hd (wdata_len hr' hda).2).1 hk).1
          · exact hev hda z hz1 hz3
      · simp only [requestRow, requestMem, hl, hwa, if_false, Bool.false_eq_true] at htm ⊢
        intro sl hsl
        refine slotOk_of hd hi (hok _ hsl) hcfg hpar rfl rfl rfl rfl (fun _ => rfl) fun hda hv _ z _ hz2 => ?_
        rw [htm, if_pos hda, store_write hr' hd hda h.memCanonical, if_neg]
        intro hk
        exact lookup_eq_none.1 hl _ hsl ⟨hv, by rw [← hz2]; exact ((store_range hd (wdata_len hr' hda).2).1 hk).1⟩

/-- The row rules after a request. -/
theorem requestRow_shape {s : State} {i : Instr} (h : Inv s) (hr : Ready i.kind i.address s) :
    ∃ n, RowShape s.cfg (requestRow i s) n := by
  have hd := h.dims hr.1
  have hi : (decoded i s).index < s.cfg.sets := decodeAddress_index_lt hd _
  have hsh := h.rowShape hi
  have htouch : ∀ w, (slotAt (s.row (decoded i s).index) w).valid = true →
      RowShape s.cfg (if lruActive s.cfg then touchRow (s.row (decoded i s).index) w else s.row (decoded i s).index)
        (occupied (s.row (decoded i s).index)) := by
    intro w hw
    split
    · exact hsh.touch (h.occupied_le hr.1 _) ((hsh.valid w (lt_of_valid hw)).1 hw)
    · exact hsh
  cases i with
  | load a =>
    cases hl : lookup (s.row (decoded (.load a) s).index) (decoded (.load a) s).tag with
    | some w =>
      simp only [requestRow, hl]
      exact ⟨_, htouch w (lookup_eq_some.1 hl).2.1⟩
    | none =>
      simp only [requestRow, hl]
      obtain ⟨n, hn, -⟩ := RowShape.install h hr.1 hi (x := newSlot s (s.memAfterEviction (decoded (.load a) s).index)
        (decoded (.load a) s).index (decoded (.load a) s).tag .load) rfl rfl hl
      exact ⟨n, hn⟩
  | store a =>
    cases hl : lookup (s.row (decoded (.store a) s).index) (decoded (.store a) s).tag with
    | some w =>
      simp only [requestRow, hl]
      obtain ⟨hw, hv, ht, -⟩ := lookup_eq_some.1 hl
      have hs := set_touchRow_eq hw s.cfg
      refine ⟨_, (htouch w hv).set_same ?_ ?_ ?_⟩ <;> rw [hs]
    | none =>
      simp only [requestRow, hl]
      split
      · obtain ⟨n, hn, -⟩ := RowShape.install h hr.1 hi (x :=
          { newSlot s (s.memAfterEviction (decoded (.store a) s).index)
            (decoded (.store a) s).index (decoded (.store a) s).tag .store with
          data := if s.params.dataArray then
            putBytes (Memory.readBytes (s.memAfterEviction (decoded (.store a) s).index)
              (recompose s.cfg (decoded (.store a) s).tag (decoded (.store a) s).index) s.cfg.bytes)
              (decoded (.store a) s).offset s.req.wdata else [] }) rfl rfl hl
        exact ⟨n, hn⟩
      · exact ⟨_, hsh⟩

end Sys2Proof.Machine
end

