-- ==== Sys2Proof/Laws/TraceText.lean ====
section
/-! SUPPORT. The text form: what the tokenizer makes of a line of fields separated by spaces. -/

namespace Sys2Proof.Machine

theorem splitSpaces_ne_nil (line : List Char) : splitSpaces line ≠ [] := by
  cases line with
  | nil => simp [splitSpaces]
  | cons c cs => unfold splitSpaces; split <;> [simp; split <;> simp]

/-- A space starts a new piece. -/
theorem splitSpaces_space (cs : List Char) : splitSpaces (' ' :: cs) = [] :: splitSpaces cs := by
  obtain ⟨f, fs, h⟩ := List.exists_cons_of_ne_nil (splitSpaces_ne_nil cs)
  simp [splitSpaces, h]

theorem splitSpaces_spaces (n : Nat) (cs : List Char) :
    splitSpaces (List.replicate n ' ' ++ cs) = List.replicate n [] ++ splitSpaces cs := by
  induction n with
  | zero => rfl
  | succ n ih => simp [List.replicate_succ, splitSpaces_space, ih]

/-- Characters other than spaces join the first piece. -/
theorem splitSpaces_append {f : List Char} (hf : ' ' ∉ f) (cs : List Char) :
    splitSpaces (f ++ cs) = (f ++ (splitSpaces cs).head (splitSpaces_ne_nil cs)) :: (splitSpaces cs).tail := by
  induction f with
  | nil => simp
  | cons c f ih =>
    simp only [List.mem_cons, not_or] at hf
    have : c ≠ ' ' := fun h => hf.1 h.symm
    simp [splitSpaces, ih hf.2, this]

theorem fieldsLine_cons (op : List Char) (g : Nat × List Char) (rest : List (Nat × List Char)) :
    fieldsLine op (g :: rest) = op ++ ' ' :: (List.replicate g.1 ' ' ++ fieldsLine g.2 rest) := by
  simp [fieldsLine, List.replicate_succ]

/-- The pieces of a line of fields: the fields, with an empty piece for each surplus space. -/
theorem splitSpaces_fieldsLine {op : List Char} (hop : ' ' ∉ op) {rest : List (Nat × List Char)}
    (h : ∀ g ∈ rest, ' ' ∉ g.2) :
    splitSpaces (fieldsLine op rest) = op :: rest.flatMap fun g => List.replicate g.1 [] ++ [g.2] := by
  induction rest generalizing op with
  | nil => simpa [fieldsLine, splitSpaces] using splitSpaces_append hop []
  | cons g rest ih =>
    rw [fieldsLine_cons, splitSpaces_append hop]
    simp [splitSpaces_space, splitSpaces_spaces, ih (h g (by simp)) fun x hx => h x (by simp [hx])]

/-- What `parseLine` looks at in a line of fields: no tab, a field at either end, and the fields. -/
theorem pieces_fieldsLine {op : List Char} {rest : List (Nat × List Char)} (hop : IsField op) (h : ∀ g ∈ rest, IsField g.2) :
    (fieldsLine op rest).contains '\t' = false ∧
    ((splitSpaces (fieldsLine op rest)).head?.getD []).isEmpty = false ∧
    ((splitSpaces (fieldsLine op rest)).getLast?.getD []).isEmpty = false ∧
    (splitSpaces (fieldsLine op rest)).filter (fun f => !f.isEmpty) = op :: rest.map Prod.snd := by
  rw [splitSpaces_fieldsLine hop.2.1 fun g hg => (h g hg).2.1]
  refine ⟨?_, by simpa using hop.1, ?_, ?_⟩
  · simp only [fieldsLine, List.contains_eq_mem, decide_eq_false_iff_not, List.mem_append, List.mem_flatMap,
      List.mem_replicate, not_or, not_exists, not_and]
    exact ⟨hop.2.2, fun g hg => ⟨fun _ => by decide, (h g hg).2.2⟩⟩
  · rcases List.eq_nil_or_concat rest with rfl | ⟨init, g, rfl⟩
    · simpa using hop.1
    · have := (h g (by simp)).1
      simpa [List.getLast?_cons, List.getLast?_append] using this
  · rw [List.filter_cons_of_pos (by simpa using hop.1)]
    congr 1
    induction rest with
    | nil => rfl
    | cons g rest ih =>
      have := (h g (by simp)).1
      simp [List.filter_append, this, ih fun x hx => h x (by simp [hx])]

/-- A line of one field (60_exceptions.md R265). -/
theorem parseLine_field {op : List Char} (hop : IsField op) :
    parseLine (fieldsLine op []) = (if (opKind op).isSome then .error .te3 else .error .te1) := by
  obtain ⟨h1, h2, h3, h4⟩ := pieces_fieldsLine (rest := []) hop (by simp)
  unfold parseLine
  cases hk : opKind op <;>
    simp only [h1, h2, h3, h4, hk, Bool.or_self, Bool.false_eq_true, if_false, List.map_nil, Option.isSome_none,
      Option.isSome_some, if_true]

/-- A line of two fields or more (30_encoding.md R97, R99; 60_exceptions.md R265). -/
theorem parseLine_fields {op hex : List Char} {n : Nat} {more : List (Nat × List Char)} (hop : IsField op)
    (h : ∀ g ∈ (n, hex) :: more, IsField g.2) :
    parseLine (fieldsLine op ((n, hex) :: more)) =
      match opKind op, parseHex hex with
      | none, _ => .error .te1
      | some _, .error e => .error e
      | some _, .unspecified => .unspecified
      | some k, .ok a => if more.length ≤ 1 then .ok (instrOf k a) else .unspecified := by
  obtain ⟨h1, h2, h3, h4⟩ := pieces_fieldsLine hop h
  unfold parseLine
  cases hk : opKind op <;> cases hp : parseHex hex <;>
    simp only [h1, h2, h3, h4, hk, hp, Bool.or_self, Bool.false_eq_true, if_false, List.map_cons, List.length_map]

/-- A line with a tab, or with no field at its start or its end, is refused (30_encoding.md R99). -/
theorem parseLine_refused {line : List Char}
    (h : line = [] ∨ '\t' ∈ line ∨ line.head? = some ' ' ∨ line.getLast? = some ' ') :
    parseLine line = .unspecified := by
  have hlast : line.getLast? = some ' ' → (splitSpaces line).getLast? = some [] := by
    intro hl
    obtain ⟨init, rfl⟩ := List.getLast?_eq_some_iff.1 hl
    clear hl h
    induction init with
    | nil => rfl
    | cons c cs ih =>
      obtain ⟨f, fs, hf⟩ := List.exists_cons_of_ne_nil (splitSpaces_ne_nil (cs ++ [' ']))
      rw [hf] at ih
      by_cases hc : c = ' '
      · simp [splitSpaces, hf, hc, ih]
      · have hfs : fs ≠ [] := by
          intro hnil
          have h1 : (splitSpaces (cs ++ [' '])).length = 1 := by rw [hf, hnil]; rfl
          have h2 : ∀ l : List Char, 2 ≤ (splitSpaces (l ++ [' '])).length := by
            intro l
            induction l with
            | nil => decide
            | cons x l ihl =>
              obtain ⟨g, gs, hg⟩ := List.exists_cons_of_ne_nil (splitSpaces_ne_nil (l ++ [' ']))
              rw [hg] at ihl
              by_cases hx : x = ' ' <;> simp [splitSpaces, hg, hx] at ihl ⊢
              omega
          have := h2 cs
          omega
        obtain ⟨g, gs, rfl⟩ := List.exists_cons_of_ne_nil hfs
        simpa [splitSpaces, hf, hc, List.getLast?_cons_cons] using ih
  unfold parseLine
  rcases h with rfl | h | h | h
  · rfl
  · simp [h]
  · obtain ⟨cs, rfl⟩ := List.head?_eq_some_iff.1 h
    simp [splitSpaces_space]
  · simp [hlast h]

/-- The value of hex digits read one by one is that of the digits as a numeral. -/
theorem hexValue_eq {ds : List Char} {digits : List Nat} (h : ds.map hexDigit = digits.map some) (acc : Nat) :
    hexValue acc ds = some (acc * 16 ^ digits.length + Nat.ofDigits 16 digits.reverse) := by
  induction ds generalizing digits acc with
  | nil =>
    cases digits with
    | nil => simp [hexValue]
    | cons d digits => simp at h
  | cons c cs ih =>
    cases digits with
    | nil => simp at h
    | cons d digits =>
      simp only [List.map_cons, List.cons.injEq] at h
      simp only [hexValue, h.1, ih h.2, List.reverse_cons, Nat.ofDigits_append, Nat.ofDigits_singleton, List.length_reverse,
        List.length_cons, pow_succ]
      congr 1; ring

/-- A character that is no hex digit spoils the value. -/
theorem hexValue_none {ds : List Char} (h : ∃ c ∈ ds, hexDigit c = none) (acc : Nat) : hexValue acc ds = none := by
  induction ds generalizing acc with
  | nil => simp at h
  | cons c cs ih =>
    unfold hexValue
    cases hc : hexDigit c with
    | none => rfl
    | some d =>
      obtain ⟨x, hx, hn⟩ := h
      rcases List.mem_cons.1 hx with rfl | hx
      · rw [hn] at hc; cases hc
      · exact ih ⟨x, hx, hn⟩ _

end Sys2Proof.Machine
end

