-- ==== Sys2Proof/Tests/Slice0.lean ====
section
/-! SUPPORT. Small tests with expected results from spec/95_test_vectors.md, and for each statement with hypotheses a
witness that meets them all. -/

namespace Sys2Proof.Tests

open Sys2Proof Sys2Proof.Machine

/-! ### Helpers -/

/-- The outcome is a next state with the property. -/
def gives (o : Host.Outcome State Fault Refusal) (p : State → Bool) : Bool :=
  match o with
  | .next t => p t
  | .fault _ => false
  | .refused _ => false

/-- The outcome is that refusal. -/
def refusedWith (o : Host.Outcome State Fault Refusal) (r : Refusal) : Bool :=
  match o with
  | .refused x => decide (x = r)
  | .next _ => false
  | .fault _ => false

/-- A slot as the vectors write it: `valid, tag, dirty, loadSeq, accessSeq`; here always occupied. -/
def sl (tag : Nat) (dirty : Bool) (loadSeq accessSeq : Nat) (data : List Byte) : Slot :=
  { valid := true, dirty := dirty, tag := BitVec.ofNat 32 tag, loadSeq := BitVec.ofNat 32 loadSeq,
    accessSeq := BitVec.ofNat 32 accessSeq, data := data }

/-- One set of blocks of 4 bytes. -/
def oneSet (ways : Int) (writeAllocate writeThrough : Bool) (p : Policy) : Cfg :=
  { numSets := 1, numBlocksPerSet := ways, blockSize := 4, writeAllocate := writeAllocate, writeThrough := writeThrough,
    evictionPolicy := p }

/-- A state with one row in set 0, after `n` operations that were all load misses. -/
def oneRow (c : Cfg) (row : List Slot) (n : Nat) : State :=
  { State.reset with
    cfg := c, rows := [(0, row)], opCounter := BitVec.ofNat 64 n
    stat := { Stat.zero with loadMisses := BitVec.ofNat 64 n } }

/-- The same with the data array, memory and a request's side-band. -/
def withData (s : State) (mem : List Host.Cell) (sb : Sideband) : State :=
  { s with params := { Params.default with dataArray := true }, mem := mem, req := sb }

/-! ### What is well formed, and what is not -/

theorem test_wellFormed_accepts_every_address :
    (Instr.load 0x00000000#32).wf = true ∧ (Instr.store 0xFFFFFFFF#32).wf = true := by decide

theorem test_wellFormed_refuses_size_zero :
    Sideband.wf .load { size := 0, wdata := [] } = false ∧ Sideband.wf .store { size := 0, wdata := [] } = false := by decide

theorem test_wellFormed_refuses_wrong_wdata_length :
    Sideband.wf .store { size := 2, wdata := [1#8] } = false ∧
    Sideband.wf .store { size := 1, wdata := [1#8, 2#8] } = false := by decide

theorem test_wellFormed_accepts_side_bands :
    Sideband.wf .load { size := 4, wdata := [] } = true ∧
    Sideband.wf .store { size := 2, wdata := [1#8, 2#8] } = true := by decide

theorem test_malformed_side_band_is_refused :
    refusedWith (exec (.store 0#32) (withData State.reset [] { size := 2, wdata := [1#8] })) .sidebandMalformed = true := by
  decide

/-! ### Decoding: words written out bit by bit from 30_encoding.md R93 (kind in bit 32, address in bits 31:0) -/

theorem test_decode_load_word :
    decodeReq 0b000000000000000000000000100000100#33 = .load 0x00000104#32 := by decide

theorem test_decode_store_word :
    decodeReq 0b111011110101011011011111011101111#33 = .store 0xDEADBEEF#32 := by decide

theorem test_decodeTableWord_reads_both_rows :
    decodeTableWord 40 0x000000008 = some (.load 0x00000008#32) ∧
    decodeTableWord 40 0x1FFFFFFFF = some (.store 0xFFFFFFFF#32) := by decide

theorem test_decode_rejects_what_is_no_request_word : decodeTableWord 40 0x200000000 = none := by decide

theorem test_withFetchWord_runs_the_word :
    gives (step (State.reset.withFetchWord 40 0x100000004)) (fun t => decide
      (t.outcome = some { set := 0, tag := 1#32, hit := false, slot := some 0, victimTag := none, wroteBack := false,
                          cost := 101, events := [.fill 4#32] } ∧ t.pending = [])) = true := by decide

/-! ### 95_test_vectors.md section 2, DECODE -/

theorem test_decodeAddress_vectors :
    decodeAddress { oneSet 2 true false .lru with numSets := 256, blockSize := 16 } 0xDEADBEEF#32 =
      { tag := 0xDEADB#32, index := 238, offset := 0xF } ∧
    decodeAddress { oneSet 2 true false .lru with numSets := 65536, blockSize := 32768 } 0x7FFFFFFF#32 =
      { tag := 0#32, index := 65535, offset := 0x7FFF } ∧
    decodeAddress (oneSet 2 true false .lru) 0xDEADBEEF#32 = { tag := 0x37AB6FBB#32, index := 0, offset := 3 } := by decide

/-! ### Section 6: one LOAD and one STORE each on a set before and after (V1, V5, V12, V13) -/

theorem test_load_hit_V1 :
    gives (exec (.load 2#32) (oneRow (oneSet 2 true false .lru) [sl 0 false 0 1 [], sl 1 false 1 0 []] 7)) (fun t => decide
      (t.row 0 = [sl 0 false 0 0 [], sl 1 false 1 1 []] ∧ t.opCounter = 8#64 ∧ t.stat.loadHits = 1#64)) = true := by decide

theorem test_load_miss_dirty_victim_V5 :
    gives (exec (.load 8#32) (oneRow (oneSet 2 true false .lru) [sl 0 true 0 1 [], sl 1 false 1 0 []] 7)) (fun t => decide
      (t.row 0 = [sl 2 false 7 0 [], sl 1 false 1 1 []] ∧
       t.outcome = some { set := 0, tag := 2#32, hit := false, slot := some 0, victimTag := some 0#32, wroteBack := true,
                          cost := 201, events := [.writeback 0#32, .fill 8#32] })) = true := by decide

theorem test_store_miss_allocate_through_V12 :
    gives (exec (.store 9#32) (oneRow (oneSet 2 true true .lru) [sl 0 false 0 1 [], sl 1 false 1 0 []] 7)) (fun t => decide
      (t.row 0 = [sl 2 false 7 0 [], sl 1 false 1 1 []] ∧
       t.outcome = some { set := 0, tag := 2#32, hit := false, slot := some 0, victimTag := some 0#32, wroteBack := false,
                          cost := 101, events := [.fill 8#32, .write 9#32] })) = true := by decide

theorem test_store_miss_direct_V13 :
    gives (exec (.store 8#32) (oneRow (oneSet 2 false true .lru) [sl 0 false 0 1 [], sl 1 false 1 0 []] 7)) (fun t => decide
      (t.row 0 = [sl 0 false 0 1 [], sl 1 false 1 0 []] ∧ t.stat.storeMisses = 1#64 ∧ t.stat.totalCycles = 100#64 ∧
       t.outcome.map (fun o => o.events) = some [.write 8#32])) = true := by decide

/-! ### Sections 3, 4, 7 -/

theorem test_touch_vector :
    ranks (touchRow [sl 0 false 0 5 [], sl 1 false 0 2 [], sl 2 false 0 7 [], sl 3 false 0 0 [], sl 4 false 0 3 [],
      sl 5 false 0 6 [], sl 6 false 0 1 [], sl 7 false 0 4 []] 4) = [5, 3, 7, 1, 0, 6, 2, 4] := by decide

theorem test_victim_vectors :
    victimLru [sl 0 false 0 1 [], sl 1 false 0 0 [], sl 2 false 0 3 [], sl 3 false 0 2 []] = 2 ∧
    victimFifo [sl 0 false 6 0 [], sl 1 false 1 0 [], sl 2 false 2 0 [], sl 3 false 3 0 []] = 1 ∧
    victimLru [sl 0 false 0 1 [], sl 1 false 0 1 []] = 0 ∧ victimFifo [sl 0 false 5 0 [], sl 1 false 5 0 []] = 0 := by decide

theorem test_packed_configurations :
    unpackCfg 0x28402#19 = oneSet 2 true false .lru ∧ packCfg (oneSet 2 true false .fifo) = some 0x48402#19 ∧
    configError (unpackCfg 0x28441#19) = some .ce4 ∧ configError (unpackCfg 0x00044#19) = some .ce5 ∧
    configError (unpackCfg 0x68444#19) = some .ce6 := by decide

/-- 30_encoding.md R101: `policy = 3` with one way, otherwise the one-block cache G10. -/
theorem test_packed_reserved_policy :
    configError (unpackCfg 0x08002#19) = none ∧ configError (unpackCfg 0x68002#19) = some .ce6 := by decide

/-- 00_scope.md R13: the same malformed trace before the first operation and after two. -/
theorem test_trace_error_only_before_the_first_operation :
    step { State.reset with pending := [.trace [['q']]] } = .fault (.traceFormat .te1) ∧
    refusedWith (step { oneRow (oneSet 2 true false .lru) [sl 0 false 0 1 [], sl 1 false 1 0 []] 2 with
      pending := [.trace [['q']]] }) .traceErrorAfterFirstOperation = true :=
  ⟨rfl, by decide⟩

theorem test_configuration_bound_X1 :
    refusedWith (step { State.reset with pending := [.resetPacked 0x2843F#19] }) .cfgOutOfBounds = true := by decide

theorem test_text_lines :
    parseLine ['s', ' ', '0', 'x', 'd', 'e', 'a', 'd', 'b', 'e', 'e', 'f', ' ', '4'] = .ok (.store 0xDEADBEEF#32) ∧
    parseLine ['L', ' ', '0', 'x', '1', '0'] = .error .te1 ∧ parseLine ['l', ' ', '0', 'x'] = .error .te2 ∧
    parseLine ['l'] = .error .te3 := by decide

theorem test_event_words :
    (MemEvent.writeback 0x100#32).toWord = 0x100000100#34 ∧ (MemEvent.write 0xDEADBEEF#32).toWord = 0x2DEADBEEF#34 := by
  decide

/-! ### Witnesses: for each statement with hypotheses, inputs that meet them all -/

/-- A full two-way set under LRU and write-back with the data array: block 1 dirty and least recent, block 2 clean. -/
def full (sb : Sideband) : State :=
  withData (oneRow (oneSet 2 true false .lru) [sl 1 true 0 1 [1#8, 2#8, 3#8, 4#8], sl 2 false 1 0 [0x5A#8, 0#8, 0#8, 0#8]] 2)
    [(8, 0x5A#8)] sb

/-- The same set under write-through, with and without write-allocate; both blocks clean. -/
def through (writeAllocate : Bool) (p : Policy) (sb : Sideband) : State :=
  withData (oneRow (oneSet 2 writeAllocate true p)
    [sl 1 false 0 (if p = .lru then 1 else 0) [0#8, 0#8, 0#8, 0#8], sl 2 false 1 0 [0x5A#8, 0#8, 0#8, 0#8]] 2)
    [(8, 0x5A#8)] sb

/-- Two ways, one of them occupied. -/
def half (p : Policy) : State := oneRow (oneSet 2 true false p) [sl 1 true 0 0 [], Slot.free] 1

/-- Direct-mapped, one dirty block. -/
def direct : State := oneRow (oneSet 1 true false .none) [sl 1 true 0 0 []] 1

/-- One byte of data. -/
def byte (b : Byte) : Sideband := { size := 1, wdata := [b] }

theorem inv_reset : Inv State.reset :=
  ⟨by decide, by decide, by decide, by decide, by decide, by decide, by decide⟩

theorem inv_full : Inv (full (byte 7#8)) :=
  ⟨by decide, by decide, by decide, by decide, by decide, by decide, by decide⟩

theorem inv_through_allocate : Inv (through true .lru (byte 7#8)) :=
  ⟨by decide, by decide, by decide, by decide, by decide, by decide, by decide⟩

theorem inv_through_direct : Inv (through false .fifo (byte 7#8)) :=
  ⟨by decide, by decide, by decide, by decide, by decide, by decide, by decide⟩

theorem inv_half (p : Policy) (h : p = .lru ∨ p = .fifo) : Inv (half p) := by
  rcases h with rfl | rfl <;>
    exact ⟨by decide, by decide, by decide, by decide, by decide, by decide, by decide⟩

theorem inv_direct : Inv direct :=
  ⟨by decide, by decide, by decide, by decide, by decide, by decide, by decide⟩

/-- From a decided outcome to a next state. -/
theorem next_of_gives {o : Host.Outcome State Fault Refusal} {p : State → Bool} (h : gives o p = true) :
    ∃ t, o = .next t ∧ p t = true := by
  cases o with
  | next t => exact ⟨t, rfl, h⟩
  | fault f => cases h
  | refused r => cases h

/-- From a decided outcome to a next state and its outcome record. -/
theorem record_of_gives {x : Host.Outcome State Fault Refusal} {p : OutcomeRecord → Bool}
    (h : gives x (fun t => (t.outcome.map p).getD false) = true) :
    ∃ t o, x = .next t ∧ t.outcome = some o ∧ p o = true := by
  obtain ⟨t, ht, hp⟩ := next_of_gives h
  cases ho : t.outcome with
  | none => rw [ho] at hp; cases hp
  | some o => rw [ho] at hp; exact ⟨t, o, ht, ho, hp⟩

theorem witness_PackedConfigRoundTrip :
    (∃ c : Cfg, (∃ e < 32, c.numSets = 2 ^ e) ∧ (∃ e < 32, c.numBlocksPerSet = 2 ^ e) ∧ (∃ e < 32, c.blockSize = 2 ^ e) ∧
      c.evictionPolicy ≠ .invalid) ∧
    ∃ c : Cfg, (∃ e < 32, c.numSets = 2 ^ e) ∧ (∃ e < 32, c.numBlocksPerSet = 2 ^ e) ∧ (∃ e < 32, c.blockSize = 2 ^ e) ∧
      c.evictionPolicy = .invalid :=
  ⟨⟨{ oneSet (2 ^ 31) true false .lru with blockSize := 2 ^ 30 },
      ⟨0, by decide, by decide⟩, ⟨31, by decide, rfl⟩, ⟨30, by decide, rfl⟩, by decide⟩,
    ⟨oneSet 1 true false .invalid, ⟨0, by decide, rfl⟩, ⟨0, by decide, rfl⟩, ⟨2, by decide, rfl⟩, rfl⟩⟩

theorem witness_MemoryEventWords : (0x300000000#34).extractLsb' 32 2 = 3#2 := by decide

theorem witness_TextLineRoundTrip : ∃ field : List Char, field ≠ [] ∧ ' ' ∉ field ∧ '\t' ∉ field :=
  ⟨['4'], by decide, by decide, by decide⟩

/-- Legal configurations, one at the bound `offsetBits + indexBits = 31` and one with `2^31` ways; for DecodeAddressFields,
DecodeAddressRanges, DecodeAddressRecomposes, DecodeAddressCorners and ResetEmptiesTheCache. -/
theorem witness_legal_configurations :
    legalCfg Config.resetCfg = true ∧ legalCfg { oneSet 2 true false .lru with numSets := 65536, blockSize := 32768 } = true ∧
    legalCfg { oneSet 2 true false .fifo with numSets := 536870912 } = true ∧
    legalCfg { oneSet 2147483648 true false .lru with blockSize := 2147483648 } = true := by decide

theorem witness_DecodeAddressRecomposes :
    ∃ (c : Cfg) (t : Tag) (i : Nat), legalCfg c = true ∧ t.toNat < 2 ^ c.tagBits ∧ i < c.sets ∧ t.toNat + 1 = 2 ^ c.tagBits ∧
      i + 1 = c.sets :=
  ⟨{ oneSet 2 true false .lru with numSets := 256, blockSize := 16 }, 0xFFFFF#32, 255, by decide⟩

theorem witness_DecodeAddressCorners :
    (legalCfg (oneSet 2 true false .lru) = true ∧ (oneSet 2 true false .lru).blockSize = 4 ∧
      (oneSet 2 true false .lru).numSets = 1) ∧
    (∃ c : Cfg, legalCfg c = true ∧ c.offsetBits + c.indexBits = 31) ∧
    ∃ a b : Address, a ≠ b ∧ a.toNat / (oneSet 2 true false .lru).bytes = b.toNat / (oneSet 2 true false .lru).bytes :=
  ⟨by decide, ⟨{ oneSet 2 true false .lru with numSets := 536870912 }, by decide⟩, ⟨8#32, 11#32, by decide⟩⟩

theorem witness_OneSetDecode :
    (oneSet 2 true false .lru).numSets = 1 ∧ (oneSet 2 true false .lru).blockSize = 2 ^ 2 ∧
    ∃ c : Cfg, c.numSets = 1 ∧ c.blockSize = 2 ^ 31 :=
  ⟨rfl, by decide, { oneSet 2 true false .lru with blockSize := 2147483648 }, by decide⟩

theorem witness_ConfigurationErrorCodes :
    (¬∃ e : Nat, ({ Config.resetCfg with numSets := 0 } : Cfg).numSets = 2 ^ e) ∧
    (∃ e : Nat, Config.resetCfg.numSets = 2 ^ e) ∧ (∃ e : Nat, Config.resetCfg.numBlocksPerSet = 2 ^ e) ∧
    (∃ e : Nat, Config.resetCfg.blockSize = 2 ^ e) ∧
    (¬∃ e : Nat, ({ Config.resetCfg with numBlocksPerSet := 0 } : Cfg).numBlocksPerSet = 2 ^ e) ∧
    ¬∃ e : Nat, ({ Config.resetCfg with blockSize := 0 } : Cfg).blockSize = 2 ^ e := by
  have h : ¬∃ e : Nat, (0 : Int) = 2 ^ e := fun ⟨e, he⟩ => absurd he.symm (by positivity)
  exact ⟨h, ⟨0, rfl⟩, ⟨1, rfl⟩, ⟨2, rfl⟩, h, h⟩

theorem witness_LegalConfigurationsAccepted :
    (∃ c : Cfg, (∃ e : Nat, c.numSets = 2 ^ e) ∧ (∃ e : Nat, 2 ≤ e ∧ c.blockSize = 2 ^ e) ∧ c.numBlocksPerSet = 1 ∧
      c.evictionPolicy = .none ∧ c.writeAllocate = true ∧ c.writeThrough = false) ∧
    (∃ c : Cfg, (∃ e : Nat, c.numSets = 2 ^ e) ∧ (∃ e : Nat, 2 ≤ e ∧ c.blockSize = 2 ^ e) ∧ 1 < c.numBlocksPerSet ∧
      (∃ e : Nat, c.numBlocksPerSet = 2 ^ e) ∧ c.evictionPolicy = .fifo ∧ c.writeAllocate = false ∧
      c.writeThrough = true) ∧
    configError (oneSet 2 true true .lru) = none :=
  ⟨⟨oneSet 1 true false .none, ⟨0, rfl⟩, ⟨2, by decide, rfl⟩, rfl, rfl, rfl, rfl⟩,
    ⟨oneSet 2 false true .fifo, ⟨0, rfl⟩, ⟨2, by decide, rfl⟩, by decide, ⟨1, rfl⟩, rfl, rfl, rfl⟩, by decide⟩

theorem witness_ResetEmptiesTheCache :
    (∃ (s : State) (w : BitVec 19), legalCfg (unpackCfg w) = true ∧ s.pending = .resetPacked w :: []) ∧
    ∃ (s : State) (c : Cfg), legalCfg c = true ∧ s.pending = .reset c :: [] :=
  ⟨⟨{ full (byte 7#8) with pending := [.resetPacked 0x28402#19] }, 0x28402#19, by decide, rfl⟩,
    ⟨{ full (byte 7#8) with pending := [.reset (oneSet 2 true true .fifo)] }, oneSet 2 true true .fifo, by decide, rfl⟩⟩

/-- An abstract and a packed CFG (95_test_vectors.md 7.3) with an error, and a state in which an error is asserted. -/
theorem witness_IllegalConfigurationIsReported :
    (∃ s : State, configError (oneSet 3 true false .lru) = some .ce2 ∧ s.pending = [.reset (oneSet 3 true false .lru)]) ∧
    (∃ s : State, configError (unpackCfg 0x68444#19) = some .ce6 ∧ s.pending = [.resetPacked 0x68444#19]) ∧
    ∃ s : State, s.cfgError = some .ce2 ∧ s.pending = [.trace [['l', ' ', '0', 'x', '0']]] :=
  ⟨⟨{ State.reset with pending := [.reset (oneSet 3 true false .lru)] }, by decide⟩,
    ⟨{ State.reset with pending := [.resetPacked 0x68444#19] }, by decide⟩,
    ⟨{ State.reset with cfgError := some .ce2, pending := [.trace [['l', ' ', '0', 'x', '0']]] }, rfl, rfl⟩⟩

theorem witness_OutOfBoundsConfigurationRefused :
    (∃ c : Cfg, configError c = none ∧ 31 < c.offsetBits + c.indexBits) ∧
    (∃ c : Cfg, configError c = none ∧ 2 ^ 31 < c.ways) ∧
    (∃ s : State, s.pending = [.reset (oneSet 4294967296 true false .lru)]) ∧
    ∃ s : State, configError (unpackCfg 0x083C2#19) = none ∧
      31 < (unpackCfg 0x083C2#19).offsetBits + (unpackCfg 0x083C2#19).indexBits ∧
      s.pending = [.resetPacked 0x083C2#19] :=
  ⟨⟨{ oneSet 2 true false .lru with numSets := 2, blockSize := 2147483648 }, by decide⟩,
    ⟨oneSet 4294967296 true false .lru, by decide⟩,
    ⟨{ State.reset with pending := [.reset (oneSet 4294967296 true false .lru)] }, rfl⟩,
    ⟨{ State.reset with pending := [.resetPacked 0x083C2#19] }, by decide⟩⟩

theorem witness_ConfigurationChangeRefused :
    oneSet 2 true false .fifo ≠ State.reset.cfg ∧
    ∃ t, step (State.reset.withFetchWord 40 4) = .next t ∧
      (∀ c rest, (State.reset.withFetchWord 40 4).pending ≠ .reset c :: rest) ∧
      ∀ w rest, (State.reset.withFetchWord 40 4).pending ≠ .resetPacked w :: rest := by
  obtain ⟨t, ht, -⟩ := next_of_gives (o := step (State.reset.withFetchWord 40 4)) (p := fun _ => true) (by decide)
  have hp : (State.reset.withFetchWord 40 4).pending = [.request 4#33 Sideband.oneByte] := by decide
  refine ⟨by decide, t, ht, ?_, ?_⟩ <;> intro _ _ h <;> rw [hp] at h <;> cases h

theorem witness_BadLineStopsTheWholeTrace :
    State.reset.cfgError = none ∧ ['q', ' ', '0', 'x', '4'] ∈ [['l', ' ', '0', 'x', '0'], ['q', ' ', '0', 'x', '4']] ∧
    parseLine ['q', ' ', '0', 'x', '4'] = .error .te1 ∧
    List.Forall₂ (fun line i => parseLine line = .ok i) [['l', ' ', '0', 'x', '0']] [Instr.load 0#32] ∧
    (∀ x ∈ [['l', ' ', '0', 'x', '0']], ∃ i, parseLine x = .ok i) ∧
    ∃ s : State, s.cfgError = none ∧ s.pending = [.trace [['l', ' ', '0', 'x', '0'], ['q', ' ', '0', 'x', '4']]] :=
  ⟨by decide, by decide, by decide, .cons (by decide) .nil,
    fun x hx => ⟨.load 0#32, by rw [List.mem_singleton.1 hx]; decide⟩,
    ⟨{ State.reset with pending := [.trace [['l', ' ', '0', 'x', '0'], ['q', ' ', '0', 'x', '4']]] }, rfl, rfl⟩⟩

theorem witness_StepServesThePresentedRequest :
    (∃ s : State, s.pending = [.request 0x1DEADBEEF#33 (byte 7#8)]) ∧
    (∃ s : State, s.pending = [.request (encode (.load 8#32)) (byte 7#8)]) ∧ State.reset.pending = [] :=
  ⟨⟨{ State.reset with pending := [.request 0x1DEADBEEF#33 (byte 7#8)] }, rfl⟩,
    ⟨{ State.reset with pending := [.request (encode (.load 8#32)) (byte 7#8)] }, rfl⟩, rfl⟩

/-- LoadHitResult; also LoadIsTransparent's premises but for the next state. -/
theorem witness_LoadHitResult :
    Inv (full (byte 7#8)) ∧ Ready .load 8#32 (full (byte 7#8)) ∧
    lookup ((full (byte 7#8)).row (decodeAddress (full (byte 7#8)).cfg 8#32).index)
      (decodeAddress (full (byte 7#8)).cfg 8#32).tag = some 1 ∧
    CountersFit .load true (full (byte 7#8)).params.cost.access (full (byte 7#8)) :=
  ⟨inv_full, by decide, by decide, by decide⟩

theorem witness_LoadMissResult :
    Inv (full (byte 7#8)) ∧ Ready .load 12#32 (full (byte 7#8)) ∧ installSlot (full (byte 7#8)) 0 = 0 ∧
    decodeAddress (full (byte 7#8)).cfg 12#32 = { tag := 3#32, index := 0, offset := 0 } ∧
    lookup ((full (byte 7#8)).row 0) 3#32 = none ∧
    CountersFit .load false ((full (byte 7#8)).missCost 0) (full (byte 7#8)) :=
  ⟨inv_full, by decide, by decide, by decide, by decide, by decide⟩

theorem witness_StoreHitWriteBackResult :
    Inv (full (byte 7#8)) ∧ Ready .store 7#32 (full (byte 7#8)) ∧ (full (byte 7#8)).cfg.writeThrough = false ∧
    decodeAddress (full (byte 7#8)).cfg 7#32 = { tag := 1#32, index := 0, offset := 3 } ∧
    lookup ((full (byte 7#8)).row 0) 1#32 = some 0 ∧
    CountersFit .store true (full (byte 7#8)).params.cost.access (full (byte 7#8)) :=
  ⟨inv_full, by decide, by decide, by decide, by decide, by decide⟩

theorem witness_StoreHitWriteThroughResult :
    Inv (through true .lru (byte 7#8)) ∧ Ready .store 7#32 (through true .lru (byte 7#8)) ∧
    (through true .lru (byte 7#8)).cfg.writeThrough = true ∧
    decodeAddress (through true .lru (byte 7#8)).cfg 7#32 = { tag := 1#32, index := 0, offset := 3 } ∧
    lookup ((through true .lru (byte 7#8)).row 0) 1#32 = some 0 ∧
    CountersFit .store true 101 (through true .lru (byte 7#8)) :=
  ⟨inv_through_allocate, by decide, by decide, by decide, by decide, by decide⟩

theorem witness_StoreMissAllocateResult :
    (Inv (full (byte 7#8)) ∧ Ready .store 12#32 (full (byte 7#8)) ∧ (full (byte 7#8)).cfg.writeAllocate = true ∧
      lookup ((full (byte 7#8)).row 0) 3#32 = none ∧
      CountersFit .store false ((full (byte 7#8)).missCost 0) (full (byte 7#8))) ∧
    Inv (through true .lru (byte 7#8)) ∧ Ready .store 12#32 (through true .lru (byte 7#8)) ∧
      (through true .lru (byte 7#8)).cfg.writeAllocate = true ∧ lookup ((through true .lru (byte 7#8)).row 0) 3#32 = none ∧
      CountersFit .store false ((through true .lru (byte 7#8)).missCost 0) (through true .lru (byte 7#8)) :=
  ⟨⟨inv_full, by decide, by decide, by decide, by decide⟩, inv_through_allocate, by decide, by decide, by decide, by decide⟩

theorem witness_StoreMissDirectResult :
    Inv (through false .fifo (byte 7#8)) ∧ Ready .store 12#32 (through false .fifo (byte 7#8)) ∧
    (through false .fifo (byte 7#8)).cfg.writeAllocate = false ∧
    decodeAddress (through false .fifo (byte 7#8)).cfg 12#32 = { tag := 3#32, index := 0, offset := 0 } ∧
    lookup ((through false .fifo (byte 7#8)).row 0) 3#32 = none ∧
    CountersFit .store false 100 (through false .fifo (byte 7#8)) :=
  ⟨inv_through_direct, by decide, by decide, by decide, by decide, by decide⟩

theorem witness_RequestsComplete :
    Inv (full (byte 7#8)) ∧ Ready .load 8#32 (full (byte 7#8)) ∧ Ready .store 12#32 (full (byte 7#8)) ∧
    ∀ k hit, CountersFit k hit (2 * ((full (byte 7#8)).params.cost.perByte * (full (byte 7#8)).cfg.bytes) +
      (full (byte 7#8)).params.cost.memWrite + (full (byte 7#8)).params.cost.access) (full (byte 7#8)) := by
  refine ⟨inv_full, by decide, by decide, fun k hit => ?_⟩
  cases k <;> cases hit <;> decide

/-- A LOAD miss with a dirty victim: for RequestsTouchOneSet, RequestsMemoryFrame, CostTable, EventTable,
OneCounterPerRequest, DirtyBitRule, DirtyEvictionDifference, EvictionOnlyFromAFullSet and LoadIsTransparent. -/
theorem witness_load_evicting :
    Inv (full (byte 7#8)) ∧ (full (byte 7#8)).params.cost = Cost.table ∧ (full (byte 7#8)).params.onOverflow = .refuse ∧
    (full (byte 7#8)).params.dataArray = true ∧
    ∃ t o r, exec (.load 12#32) (full (byte 7#8)) = .next t ∧ t.outcome = some o ∧ t.resp = some r ∧
      o.wroteBack = true ∧ o.slot = some 0 ∧ o.hit = false ∧ o.victimTag = some 1#32 := by
  refine ⟨inv_full, by decide, by decide, by decide, ?_⟩
  obtain ⟨t, ht, hp⟩ := next_of_gives (o := exec (.load 12#32) (full (byte 7#8)))
    (p := fun t => t.resp.isSome && (t.outcome.map fun (o : OutcomeRecord) => decide
      (o.wroteBack = true ∧ o.slot = some 0 ∧ o.hit = false ∧ o.victimTag = some 1#32)).getD false) (by decide)
  cases ho : t.outcome with
  | none => rw [ho] at hp; simp at hp
  | some o =>
    cases hr : t.resp with
    | none => rw [hr] at hp; simp at hp
    | some r =>
      rw [ho] at hp
      simp only [Option.map_some, Option.getD_some, Bool.and_eq_true, decide_eq_true_eq] at hp
      exact ⟨t, o, r, ht, ho, hr, hp.2⟩

/-- A STORE that writes memory, for the same statements and StoreIsTransparent. -/
theorem witness_store_through :
    Inv (through false .fifo (byte 7#8)) ∧ (through false .fifo (byte 7#8)).params.dataArray = true ∧
    ∃ t o, exec (.store 12#32) (through false .fifo (byte 7#8)) = .next t ∧ t.outcome = some o ∧
      decide (MemEvent.write 12#32 ∈ o.events) = true := by
  obtain ⟨t, o, h⟩ := record_of_gives (x := exec (.store 12#32) (through false .fifo (byte 7#8)))
    (p := fun o => decide (MemEvent.write 12#32 ∈ o.events)) (by decide)
  exact ⟨inv_through_direct, by decide, t, o, h⟩

/-- A set with room, on the LRU and the FIFO path: for EvictionOnlyFromAFullSet's second clause, LruFollowsTheTextbook,
FifoFollowsTheTextbook and LoadSeqStaysFresh. -/
theorem witness_textbooks :
    (Inv (half .lru) ∧ lruActive (half .lru).cfg = true ∧
      OrderedBy (fun sl => sl.accessSeq) ((half .lru).row 0) [1#32] ∧
      ∃ t o, exec (.load 8#32) (half .lru) = .next t ∧ t.outcome = some o ∧ decide (o.set = 0) = true) ∧
    Inv (half .fifo) ∧ LoadSeqFresh (half .fifo) ∧ (half .fifo).cfg.evictionPolicy = .fifo ∧
      (half .fifo).opCounter.toNat < 2 ^ 32 ∧ occupied ((half .fifo).row 0) < (half .fifo).cfg.ways ∧
      OrderedBy (fun sl => sl.loadSeq) ((half .fifo).row 0) [1#32] ∧
      ∃ t o, exec (.store 8#32) (half .fifo) = .next t ∧ t.outcome = some o ∧ decide (o.set = 0) = true :=
  ⟨⟨inv_half _ (.inl rfl), by decide, ⟨[sl 1 true 0 0 []], by decide, by decide, by decide⟩,
      record_of_gives (p := fun o => decide (o.set = 0)) (by decide)⟩,
    inv_half _ (.inr rfl), by decide, by decide, by decide, by decide,
    ⟨[sl 1 true 0 0 []], by decide, by decide, by decide⟩, record_of_gives (p := fun o => decide (o.set = 0)) (by decide)⟩

theorem witness_CounterOverflowRefused :
    ∃ (s t0 : State) (o : OutcomeRecord), s.params.onOverflow = .refuse ∧
      exec (.load 8#32) { s with opCounter := 0#64, stat := Stat.zero } = .next t0 ∧ t0.outcome = some o ∧
      decide (¬CountersFit .load o.hit o.cost s) = true := by
  obtain ⟨t, o, h1, h2, h3⟩ := record_of_gives
    (x := exec (.load 8#32) { half .lru with opCounter := 0#64, stat := Stat.zero })
    (p := fun o => decide (¬CountersFit .load o.hit o.cost
      { half .lru with stat := { Stat.zero with totalCycles := BitVec.allOnes 64 - 100#64 } })) (by decide)
  exact ⟨{ half .lru with stat := { Stat.zero with totalCycles := BitVec.allOnes 64 - 100#64 } }, t, o, rfl, h1, h2, h3⟩

theorem witness_CounterOverflowRefused_fits :
    ∃ (s t0 : State) (o : OutcomeRecord), s.params.onOverflow = .refuse ∧
      exec (.load 8#32) { s with opCounter := 0#64, stat := Stat.zero } = .next t0 ∧ t0.outcome = some o ∧
      decide (CountersFit .load o.hit o.cost s) = true := by
  obtain ⟨t, o, h1, h2, h3⟩ := record_of_gives
    (x := exec (.load 8#32) { half .lru with opCounter := 0#64, stat := Stat.zero })
    (p := fun o => decide (CountersFit .load o.hit o.cost
      { half .lru with stat := { Stat.zero with totalCycles := BitVec.allOnes 64 - 101#64 } })) (by decide)
  exact ⟨{ half .lru with stat := { Stat.zero with totalCycles := BitVec.allOnes 64 - 101#64 } }, t, o, rfl, h1, h2, h3⟩

theorem witness_SnapshotValues :
    (State.reset.cfgError = none ∧ ({ State.reset with cfgError := some .ce1 } : State).cfgError ≠ none) ∧
    Inv (half .lru) ∧ (half .lru).params.onOverflow = .refuse ∧ (half .lru).stat.loadMisses = 1#64 :=
  ⟨by decide, inv_half _ (.inl rfl), rfl, rfl⟩

theorem witness_LookupFindsTheTag :
    List.Forall₂ (fun x y => x.valid = y.valid ∧ (x.valid = true → x.tag = y.tag))
      [sl 1 true 0 0 [], Slot.free] [sl 1 false 5 3 [], { Slot.free with tag := 9#32 }] :=
  .cons ⟨rfl, fun _ => rfl⟩ (.cons ⟨rfl, fun h => by cases h⟩ .nil)

theorem witness_FreeSlotTakenIsTheLowest :
    Inv (half .lru) ∧ 0 < (half .lru).cfg.sets ∧ occupied ((half .lru).row 0) < (half .lru).cfg.ways ∧
    1 < (half .lru).cfg.ways :=
  ⟨inv_half _ (.inl rfl), by decide, by decide, by decide⟩

theorem witness_ReplacedTagLeaves :
    Inv (full (byte 7#8)) ∧ 0 < (full (byte 7#8)).cfg.sets ∧ ((full (byte 7#8)).slot 0 1).valid = true ∧
    lookup ((full (byte 7#8)).row 0) 3#32 = none :=
  ⟨inv_full, by decide, by decide, by decide⟩

theorem witness_InstallsChangeOneBlock : Inv (full (byte 7#8)) ∧ 0 < (full (byte 7#8)).cfg.sets :=
  ⟨inv_full, by decide⟩

theorem witness_TouchUpdatesRanks : (slotAt [sl 0 false 0 1 [], sl 1 false 1 0 []] 0).valid = true := by decide

theorem witness_victims : ([sl 0 false 0 1 [], sl 1 false 1 0 []] : List Slot) ≠ [] := by decide

theorem witness_LruVictimHasTheTopRank :
    Inv (full (byte 7#8)) ∧ lruActive (full (byte 7#8)).cfg = true ∧ 0 < (full (byte 7#8)).cfg.sets ∧
    occupied ((full (byte 7#8)).row 0) = (full (byte 7#8)).cfg.ways :=
  ⟨inv_full, by decide, by decide, by decide⟩

theorem witness_PolicyIgnoredWithOneWay :
    direct.cfg.numBlocksPerSet = 1 ∧ ∃ t, exec (.load 8#32) direct = .next t ∧ decide (t.outcome.isSome = true) = true :=
  ⟨rfl, next_of_gives (p := fun t => decide (t.outcome.isSome = true)) (by decide)⟩

theorem witness_CrossingAccessRefused :
    (∃ s : State, s.cfgError = none ∧ s.params.dataArray = true ∧ s.req.wf .load = true ∧
      s.cfg.bytes < (11#32 : Address).toNat % s.cfg.bytes + s.req.size) ∧
    legalCfg Config.resetCfg = true ∧ (8#32 : Address).toNat % 4 = 0 :=
  ⟨⟨full { size := 2, wdata := [] }, by decide⟩, by decide, by decide⟩

theorem witness_StepKeepsTheInvariant :
    Inv { full (byte 7#8) with pending := [.request 12#33 (byte 7#8)] } ∧
    ∃ t, step { full (byte 7#8) with pending := [.request 12#33 (byte 7#8)] } = .next t ∧
      decide (t.outcome.isSome = true) = true :=
  ⟨⟨by decide, by decide, by decide, by decide, by decide, by decide, by decide⟩,
    next_of_gives (p := fun t => decide (t.outcome.isSome = true)) (by decide)⟩

theorem witness_LoadSeqStaysFresh :
    Inv { half .fifo with pending := [.request 8#33 (byte 7#8)] } ∧
    LoadSeqFresh { half .fifo with pending := [.request 8#33 (byte 7#8)] } ∧
    (half .fifo).params.onOverflow = .refuse ∧
    ∃ t, step { half .fifo with pending := [.request 8#33 (byte 7#8)] } = .next t ∧
      decide (t.outcome.isSome = true) = true :=
  ⟨⟨by decide, by decide, by decide, by decide, by decide, by decide, by decide⟩, by decide, by decide,
    next_of_gives (p := fun t => decide (t.outcome.isSome = true)) (by decide)⟩

theorem witness_FreeSlotFieldsUnobservable :
    ∃ s' : State, s' ≠ half .lru ∧ Inv (half .lru) ∧ AgreeOnOccupied (half .lru) s' ∧
      Sparse.wf (freeRow s'.cfg) s'.rows = true ∧
      ∃ t, exec (.load 8#32) (half .lru) = .next t ∧ decide (t.outcome.isSome = true) = true := by
  refine ⟨{ half .lru with rows := [(0, [sl 1 true 0 0 [], { Slot.free with tag := 9#32, dirty := true }])] }, by decide,
    inv_half _ (.inl rfl), ⟨rfl, fun i => ?_⟩, by decide,
    next_of_gives (p := fun t => decide (t.outcome.isSome = true)) (by decide)⟩
  cases i with
  | zero => exact .cons ⟨rfl, fun _ => rfl⟩ (.cons ⟨rfl, fun h => by cases h⟩ .nil)
  | succ i => exact .cons ⟨rfl, fun _ => rfl⟩ (.cons ⟨rfl, fun _ => rfl⟩ .nil)

theorem witness_RunIsTransparent :
    ∃ (s t : State) (earlier : List (Instr × Sideband)), earlier.length = 1 ∧ Inv s ∧ s.rows = [] ∧
      s.params.dataArray = true ∧ s.pending = requestsOf (earlier ++ [(.load 8#32, byte 7#8)]) ∧
      Host.Core.run core (earlier.length + 1) s = .next t := by
  obtain ⟨t, ht, -⟩ := next_of_gives (p := fun _ => true) (o := Host.Core.run core 2
    { withData State.reset [] Sideband.empty with
      pending := requestsOf [(.store 8#32, byte 0x5A#8), (.load 8#32, byte 7#8)] }) (by decide)
  exact ⟨_, t, [(.store 8#32, byte 0x5A#8)], rfl,
    ⟨by decide, by decide, by decide, by decide, by decide, by decide, by decide⟩, rfl, rfl, rfl, ht⟩

/-- A legal CFG at the bound of R9, and a state of the invariant with a set that is listed. -/
theorem witness_DerivedParameters :
    legalCfg { oneSet 2 true false .fifo with numSets := 536870912 } = true ∧ Inv (half .fifo) ∧
    (half .fifo).rows.length = 1 :=
  ⟨by decide, inv_half _ (.inr rfl), rfl⟩

/-- One line for each clause: refused, TE1, TE3, TE2 by its prefix, a tail ignored, the largest address and one above it. -/
theorem witness_TextLineOutcomes :
    ([' ', 'l'] : List Char).head? = some ' ' ∧ IsField ['q'] ∧ IsField ['l'] ∧
    (IsField ['1', '0'] ∧ ['1', '0'].take 2 ≠ ['0', 'x'] ∧ ['1', '0'].take 2 ≠ ['0', 'X']) ∧
    (IsField ['0', 'X', '1'] ∧ ['0', 'X', '1'].take 2 = ['0', 'X']) ∧
    (IsField ['0', 'x', 'g'] ∧ hexDigit 'g' = none) ∧
    (IsField "0xffffffff".toList ∧ "ffffffff".toList.map hexDigit = (List.replicate 8 15).map some ∧
      Nat.ofDigits 16 (List.replicate 8 15) = 2 ^ 32 - 1) ∧
    "100000000".toList.map hexDigit = (1 :: List.replicate 8 0).map some ∧
    Nat.ofDigits 16 (1 :: List.replicate 8 0).reverse = 2 ^ 32 := by decide

theorem witness_ErrorsPrecedeTheFirstOperation :
    step { State.reset with pending := [.trace [['l']]] } = .fault (.traceFormat .te3) ∧
    ∃ t, step { State.reset with pending := [.resetPacked 0x68444#19] } = .next t ∧
      decide (t.cfgError ≠ State.reset.cfgError) = true :=
  ⟨rfl, next_of_gives (p := fun t => decide (t.cfgError ≠ State.reset.cfgError)) (by decide)⟩

end Sys2Proof.Tests
end

section
/-! Proofs for spec/00_scope.md: the parameters derived from CFG (R10), the refusal of a CFG beyond the bounds (R9), and
that errors precede the first operation (R13). -/

namespace Sys2Proof.Machine

/-! ### The dimensions of a legal CFG -/

theorem inBounds_iff {c : Cfg} : inBounds c = true ↔ c.offsetBits + c.indexBits ≤ 31 ∧ c.ways ≤ 2 ^ 31 := by
  simp [inBounds]

theorem legalCfg_iff {c : Cfg} : legalCfg c = true ↔ configError c = none ∧ inBounds c = true := by
  simp [legalCfg]

/-- The three dimensions of a CFG without error, as the integers the environment presents. -/
theorem dimensions_eq_two_pow {c : Cfg} (h : configError c = none) :
    c.blockSize = 2 ^ c.offsetBits ∧ c.numSets = 2 ^ c.indexBits ∧ c.numBlocksPerSet = 2 ^ c.wayBits := by
  obtain ⟨hsets, hways, hbytes, -⟩ := configError_eq_none.1 h
  exact ⟨(of_decide_eq_true hbytes).symm, (of_decide_eq_true hsets).symm, (of_decide_eq_true hways).symm⟩

/-- The natural numbers the model computes with are the dimensions presented. -/
theorem natCast_dimensions {c : Cfg} (h : configError c = none) :
    (c.bytes : Int) = c.blockSize ∧ (c.sets : Int) = c.numSets ∧ (c.ways : Int) = c.numBlocksPerSet := by
  obtain ⟨hbytes, hsets, hways⟩ := dimensions_eq_two_pow h
  refine ⟨Int.toNat_of_nonneg ?_, Int.toNat_of_nonneg ?_, Int.toNat_of_nonneg ?_⟩
  · rw [hbytes]; positivity
  · rw [hsets]; positivity
  · rw [hways]; positivity

theorem natCast_totalSlots {c : Cfg} (h : configError c = none) :
    (c.totalSlots : Int) = c.numSets * c.numBlocksPerSet := by
  obtain ⟨-, hsets, hways⟩ := natCast_dimensions h
  rw [Cfg.totalSlots, Nat.cast_mul, hsets, hways]

theorem natCast_dataCapacity {c : Cfg} (h : configError c = none) :
    (c.dataCapacity : Int) = c.numSets * c.numBlocksPerSet * c.blockSize := by
  rw [Cfg.dataCapacity, Nat.cast_mul, natCast_totalSlots h, (natCast_dimensions h).1]

/-- Every set has a row of `numBlocksPerSet` slots, so that all rows together have the total slots of R10. -/
theorem Inv.sum_row_length {s : State} (h : Inv s) :
    ((List.range s.cfg.sets).map fun i => (s.row i).length).sum = s.cfg.totalSlots := by
  simp only [h.row_length, List.map_const', List.length_range, List.sum_replicate, smul_eq_mul, Cfg.totalSlots]

/-! ### Reset -/

/-- A reset presented next, with the abstract or the packed CFG, is what the step serves. -/
theorem step_of_reset {c : Cfg} {s : State} {rest : List EnvEvent}
    (h : s.pending = .reset c :: rest ∨ ∃ w, s.pending = .resetPacked w :: rest ∧ c = unpackCfg w) :
    step s = applyReset c (s.popped rest) := by
  rcases h with hp | ⟨w, hp, rfl⟩
  · simp only [step, hp]
  · simp only [step, hp]

theorem applyReset_of_not_inBounds {c : Cfg} (he : configError c = none) (hb : ¬inBounds c = true) (s : State) :
    applyReset c s = .refused .cfgOutOfBounds := by
  rcases applyReset_cases c s with ⟨hr, -⟩ | ⟨-, hin⟩
  · exact hr
  · exact absurd (hin he) hb

/-- After a reset no slot is occupied (10_state.md R45). -/
theorem slot_afterReset_valid (s : State) (c : Cfg) (e : Option ConfigError) (i w : Nat) :
    ((s.afterReset c e).slot i w).valid = false := by
  simp [Slot.free]

/-- Only a reset changes `cfg_error`. -/
theorem reset_of_cfgError_ne {s t : State} (h : step s = .next t) (hne : t.cfgError ≠ s.cfgError) :
    ∃ c rest, t = (s.popped rest).afterReset c (configError c) := by
  rcases step_cases h with ⟨-, rfl⟩ | ⟨c, rest, -, ht, -⟩ | ⟨w, sb, rest, -, hx⟩ | ⟨rest, -, rfl⟩ |
    ⟨lines, rest, is, -, -, -, rfl⟩
  · exact absurd rfl hne
  · exact ⟨c, rest, ht⟩
  · exact absurd (exec_sameSetting hx).cfgError hne
  · exact absurd (State.popped_cfgError s rest) hne
  · exact absurd (State.popped_cfgError s _) hne

end Sys2Proof.Machine

/-! ### The statements -/

namespace Sys2Proof.Proofs

open Sys2Proof.Machine

/-- Settles O57: the dimensions of a legal CFG are powers of two whose exponents the check and the bounds of R9 limit, and
each row has one slot for each way. -/
theorem derivedParameters : Obligations.DerivedParameters := by
  unfold Obligations.DerivedParameters
  refine ⟨fun c hc => ?_, fun s hs => hs.sum_row_length⟩
  obtain ⟨he, hb⟩ := legalCfg_iff.1 hc
  obtain ⟨hbytes, hsets, hways⟩ := dimensions_eq_two_pow he
  have hoffset : 2 ≤ c.offsetBits := (dims_of_legal he hb).offsetBits
  have htotal : c.offsetBits + c.indexBits ≤ 31 := (dims_of_legal he hb).total
  have htag : c.tagBits = 32 - c.offsetBits - c.indexBits := rfl
  exact ⟨hbytes, hoffset, by omega, hsets, by omega, by omega, by omega, by omega, hways, natCast_totalSlots he,
    natCast_dataCapacity he⟩

/-- Settles O59: only a malformed trace makes a step fault, and only a reset changes `cfg_error`. -/
theorem errorsPrecedeTheFirstOperation : Obligations.ErrorsPrecedeTheFirstOperation := by
  unfold Obligations.ErrorsPrecedeTheFirstOperation
  constructor
  · intro s f h
    obtain ⟨lines, rest, e, hp, hcount, herr, -, hf⟩ := step_fault h
    exact ⟨hcount, herr, lines, rest, e, hp, hf⟩
  · intro s t h hne
    obtain ⟨c, rest, rfl⟩ := reset_of_cfgError_ne h hne
    exact ⟨rfl, rfl, slot_afterReset_valid _ _ _⟩

/-- Settles O17: a CFG that breaks a bound of R9 is not in bounds, and the reset of one without error is then refused. -/
theorem outOfBoundsConfigurationRefused : Obligations.OutOfBoundsConfigurationRefused := by
  unfold Obligations.OutOfBoundsConfigurationRefused
  intro c s rest he hbound hp
  have hb : ¬inBounds c = true := fun h => by
    obtain ⟨hspan, hways⟩ := inBounds_iff.1 h
    omega
  rw [step_of_reset hp, applyReset_of_not_inBounds he hb]

end Sys2Proof.Proofs
end

section
/-! Proofs for spec/10_state.md: the counters (R36, R40, R42), the dirty rule (R29), the state after reset (R45), and that
every step keeps the invariant. -/

namespace Sys2Proof.Machine

/-! ### What a request leaves to `complete`, from any state -/

/-- The counters, and the parameters their advance reads, are the same. -/
structure SameCounters (s t : State) : Prop where
  params : t.params = s.params
  opCounter : t.opCounter = s.opCounter
  stat : t.stat = s.stat

theorem replaceSlot_sameCounters (s : State) (i w : Nat) (t : Tag) (k : Kind) :
    SameCounters s (replaceSlot s i w t k).st := by
  unfold replaceSlot
  simp only
  split <;> constructor <;> simp

theorem allocate_sameCounters (s : State) (i : Nat) (t : Tag) (k : Kind) : SameCounters s (allocate s i t k).st := by
  change SameCounters s (place s i t k).st
  unfold place
  split_ifs
  · exact replaceSlot_sameCounters ..
  · exact ⟨rfl, rfl, rfl⟩
  · exact replaceSlot_sameCounters ..
  · exact replaceSlot_sameCounters ..

/-- No path of a request moves a counter: that is left to `complete`. -/
theorem requestEffect_sameCounters (i : Instr) (s : State) : SameCounters s (requestEffect i s).2.st := by
  unfold requestEffect
  split
  · constructor <;> simp [loadHit]
  · exact allocate_sameCounters ..
  · simp only [storeHit]
    split <;> constructor <;> simp
  · rename_i a _
    obtain ⟨hparams, hop, hstat⟩ := allocate_sameCounters s (decoded (.store a) s).index (decoded (.store a) s).tag .store
    simp only [storeMiss, storeMissAllocate, storeMissDirect]
    split_ifs <;> constructor <;> simp [hparams, hop, hstat]

/-! ### The counters of a request that completes -/

theorem Stat.counter_after (st : Stat) (k k' : Kind) (hit hit' : Bool) (cost : Nat) :
    (st.after k hit cost).counter k' hit' = st.counter k' hit' + if k' = k ∧ hit' = hit then 1#64 else 0#64 := by
  cases k <;> cases hit <;> cases k' <;> cases hit' <;> simp [Stat.after, Stat.counter]

/-- Where the counter of the kind and outcome has room, the four counters advance as numbers. -/
theorem Stat.counter_after_toNat {st : Stat} {k : Kind} {hit : Bool} (hfit : (st.counter k hit).toNat + 1 < 2 ^ 64)
    (cost : Nat) (k' : Kind) (hit' : Bool) :
    ((st.after k hit cost).counter k' hit').toNat =
      (st.counter k' hit').toNat + if k' = k ∧ hit' = hit then 1 else 0 := by
  rw [Stat.counter_after]
  split
  · rename_i hsame
    obtain ⟨rfl, rfl⟩ := hsame
    exact addCount_toNat hfit
  · simp

/-- Under ON_OVERFLOW = refuse a request completes only where its counters fit, and advances them as numbers (10_state.md
R36, R40). -/
theorem exec_next_counters {i : Instr} {s t : State} {r : Response} (hov : s.params.onOverflow = .refuse)
    (hx : exec i s = .next t) (hr : t.resp = some r) :
    (∀ k hit, (t.stat.counter k hit).toNat =
      (s.stat.counter k hit).toNat + if k = i.kind ∧ hit = r.hit then 1 else 0) ∧
    t.opCounter.toNat = s.opCounter.toNat + 1 := by
  obtain ⟨-, st, n, rfl, hc⟩ := exec_next hx
  obtain ⟨hparams, hop, hstat⟩ := requestEffect_sameCounters i s
  obtain ⟨⟨fitOp, fitCounter, -⟩, rfl, rfl⟩ := hc (by rw [hparams]; exact hov)
  rw [State.completed_resp, Option.some_inj] at hr
  subst hr
  rw [hop] at fitOp
  rw [hstat] at fitCounter
  rw [State.completed_stat, State.completed_opCounter, hop, hstat]
  exact ⟨Stat.counter_after_toNat fitCounter _, addCount_toNat fitOp⟩

/-- The loads and the stores counted grow with the operations (10_state.md R40). -/
theorem exec_next_totals {i : Instr} {s t : State} (hov : s.params.onOverflow = .refuse) (hx : exec i s = .next t) :
    t.stat.loadHits.toNat + t.stat.loadMisses.toNat =
      s.stat.loadHits.toNat + s.stat.loadMisses.toNat + (if i.kind = .load then 1 else 0) ∧
    t.stat.storeHits.toNat + t.stat.storeMisses.toNat =
      s.stat.storeHits.toNat + s.stat.storeMisses.toNat + (if i.kind = .store then 1 else 0) := by
  obtain ⟨r, hr⟩ : ∃ r, t.resp = some r := by
    obtain ⟨-, st, n, rfl, -⟩ := exec_next hx
    exact ⟨_, State.completed_resp ..⟩
  obtain ⟨hcount, -⟩ := exec_next_counters hov hx hr
  have loadHits := hcount .load true
  have loadMisses := hcount .load false
  have storeHits := hcount .store true
  have storeMisses := hcount .store false
  simp only [Stat.counter] at loadHits loadMisses storeHits storeMisses
  rw [loadHits, loadMisses, storeHits, storeMisses]
  cases i <;> cases r.hit <;> simp [Instr.kind] <;> omega

/-! ### The counters have no say in the outcome and the cost (10_state.md R42) -/

/-- The state with every counter at 0. -/
def State.uncounted (s : State) : State := { s with opCounter := 0#64, stat := Stat.zero }

theorem allocate_uncounted_cost (s : State) (i : Nat) (t : Tag) (k : Kind) :
    (allocate s.uncounted i t k).cost = (allocate s i t k).cost := by
  have hrow : s.uncounted.row i = s.row i := rfl
  have hcfg : s.uncounted.cfg = s.cfg := rfl
  have hplace : (place s.uncounted i t k).cost = (place s i t k).cost := by
    unfold place
    rw [hrow, hcfg]
    split_ifs <;> rfl
  unfold allocate
  simp only [hplace]
  rfl

theorem requestEffect_uncounted (i : Instr) (s : State) :
    (requestEffect i s.uncounted).1 = (requestEffect i s).1 ∧
    (requestEffect i s.uncounted).2.cost = (requestEffect i s).2.cost := by
  have hrow : ∀ j, s.uncounted.row j = s.row j := fun _ => rfl
  have hdec : decoded i s.uncounted = decoded i s := rfl
  have hcfg : s.uncounted.cfg = s.cfg := rfl
  have hparams : s.uncounted.params = s.params := rfl
  cases i with
  | load a =>
    cases hl : lookup (s.row (decoded (.load a) s).index) (decoded (.load a) s).tag with
    | some w =>
      simp only [requestEffect, hrow, hdec, hl]
      exact ⟨trivial, rfl⟩
    | none =>
      simp only [requestEffect, hrow, hdec, hl]
      exact ⟨trivial, allocate_uncounted_cost ..⟩
  | store a =>
    cases hl : lookup (s.row (decoded (.store a) s).index) (decoded (.store a) s).tag with
    | some w =>
      simp only [requestEffect, hrow, hdec, hl, storeHit, hcfg, hparams]
      refine ⟨trivial, ?_⟩
      split <;> rfl
    | none =>
      simp only [requestEffect, hrow, hdec, hl, storeMiss, storeMissAllocate, hcfg]
      refine ⟨trivial, ?_⟩
      split_ifs
      · exact allocate_uncounted_cost ..
      · exact allocate_uncounted_cost ..
      · rfl

/-! ### Every step keeps the invariant -/

theorem Inv.popped {s : State} (h : Inv s) (rest : List EnvEvent) : Inv (s.popped rest) :=
  ⟨h.checked, h.bounded, h.idleOnError, h.rowsCanonical, h.rowsOk, h.memCanonical, h.counted⟩

theorem Inv.latch {s : State} (h : Inv s) (sb : Sideband) : Inv (s.latch sb) :=
  ⟨h.checked, h.bounded, h.idleOnError, h.rowsCanonical, h.rowsOk, h.memCanonical, h.counted⟩

/-- A reset that is not refused establishes the invariant, whatever stood before but the memory. -/
theorem inv_afterReset {s : State} (hmem : Memory.wf s.mem = true) {c : Cfg}
    (hb : configError c = none → inBounds c = true) : Inv (s.afterReset c (configError c)) where
  checked := rfl
  bounded := hb
  idleOnError _ := ⟨rfl, rfl, rfl⟩
  rowsCanonical := rfl
  rowsOk e he := by simp at he
  memCanonical := hmem
  counted _ := rfl

/-- The rows after a request that completes: that of its set, and every other as before. -/
theorem exec_next_row {i : Instr} {s t : State} (h : Inv s) (hx : exec i s = .next t) (j : Nat) :
    t.row j = if j = (decoded i s).index then requestRow i s else s.row j := by
  obtain ⟨hready, st, n, rfl, -⟩ := exec_next hx
  obtain ⟨-, -, -, hrow⟩ := requestEffect_spec h hready
  rw [State.row_completed, hrow]

/-- A LOAD or STORE that gives a next state keeps the invariant: the row rules and the slot rules hold of the one row it
leaves, memory is as before outside its set, and the counters advance together. -/
theorem exec_keeps_inv {i : Instr} {s t : State} (h : Inv s) (hx : exec i s = .next t) : Inv t := by
  obtain ⟨hready, -, -, hmem, hrows, hparams, hcfg, herr, -, -, r, -, hresp, -⟩ := next_cases h hx
  obtain ⟨n, hshape⟩ := requestRow_shape h hready
  refine inv_of_row h hcfg herr hparams hready.1 (decodeAddress_index_lt (h.dims hready.1) _) hrows
    (exec_next_row h hx) hshape (requestRow_slots h hready hcfg hparams hmem) ?_
    (fun hda x hout => ?_) fun hov => ?_
  · rw [hmem]; exact requestMem_wf h.memCanonical i
  · rw [hmem]; exact requestMem_other h hready hda hout
  · rw [hparams] at hov
    have hsum := h.counted hov
    obtain ⟨-, hop⟩ := exec_next_counters hov hx hresp
    obtain ⟨hloads, hstores⟩ := exec_next_totals hov hx
    have hone : (if i.kind = .load then 1 else 0) + (if i.kind = .store then 1 else 0) = 1 := by cases i <;> rfl
    omega

/-- Whatever is presented, a step to a next state keeps the invariant. -/
theorem step_keeps_inv {s t : State} (h : Inv s) (hstep : step s = .next t) : Inv t := by
  rcases step_cases hstep with ⟨-, rfl⟩ | ⟨c, rest, -, rfl, hb⟩ | ⟨w, sb, rest, -, hx⟩ | ⟨rest, -, rfl⟩ |
    ⟨lines, rest, is, -, -, -, rfl⟩
  · exact h
  · exact inv_afterReset (h.popped rest).memCanonical hb
  · exact exec_keeps_inv ((h.popped rest).latch sb) hx
  · exact h.popped rest
  · exact h.popped _

/-! ### The dirty bits a request leaves (10_state.md R29) -/

theorem dirty_slotAt_touchedRow (i : Instr) (s : State) (w j : Nat) :
    (slotAt (touchedRow i s w) j).dirty = (slotAt (s.row (decoded i s).index) j).dirty := by
  unfold touchedRow
  split
  · by_cases hj : j < (s.row (decoded i s).index).length
    · rw [slotAt_touchRow hj]
      split_ifs <;> rfl
    · rw [slotAt_of_le (by rw [touchRow_length]; omega), slotAt_of_le (by omega)]
  · rfl

theorem dirty_slotAt_installedRow {c : Cfg} {row : List Slot} {w j : Nat} {x : Slot} (hw : w < row.length) :
    (slotAt (installedRow c row w x) j).dirty = if j = w then x.dirty else (slotAt row j).dirty := by
  by_cases hj : j < row.length
  · rw [slotAt_installedRow hj]
    split_ifs <;> rfl
  · rw [slotAt_of_le (by rw [installedRow_length]; omega), slotAt_of_le (by omega), if_neg (by omega)]

end Sys2Proof.Machine

/-! ### The statements -/

namespace Sys2Proof.Proofs

open Sys2Proof.Machine

/-- Settles O51: a reset establishes the invariant, a request keeps it row by row, and nothing else touches its fields. -/
theorem stepKeepsTheInvariant : Obligations.StepKeepsTheInvariant := by
  unfold Obligations.StepKeepsTheInvariant
  intro s t h hstep
  exact step_keeps_inv h hstep

/-- Settles O32: `complete` advances one hit or miss counter, that of the request's kind and outcome, and `opCounter`. -/
theorem oneCounterPerRequest : Obligations.OneCounterPerRequest := by
  unfold Obligations.OneCounterPerRequest
  intro i s t r hov hx hr
  obtain ⟨hcount, hop⟩ := exec_next_counters hov hx hr
  obtain ⟨hloads, hstores⟩ := exec_next_totals hov hx
  exact ⟨hcount, hloads, hstores, hop⟩

/-- Settles O33: a request ends in `complete` with the outcome and the cost it has with all counters at 0, and `complete`
refuses exactly where a counter has no room. -/
theorem counterOverflowRefused : Obligations.CounterOverflowRefused := by
  unfold Obligations.CounterOverflowRefused
  intro i s t0 o hov hx ho
  obtain ⟨hready, st, n, rfl, -⟩ := exec_next (s := s.uncounted) hx
  rw [State.completed_outcome, Option.some_inj] at ho
  subst ho
  obtain ⟨hhit, hcost⟩ := requestEffect_uncounted i s
  obtain ⟨hparams, hop, hstat⟩ := requestEffect_sameCounters i s
  have hexec := exec_ready (i := i) (s := s) hready
  have hfit : CountersFit i.kind (requestEffect i s.uncounted).1 (requestEffect i s.uncounted).2.cost s ↔
      CountersFit i.kind (requestEffect i s).1 (requestEffect i s).2.cost (requestEffect i s).2.st := by
    rw [hhit, hcost, CountersFit, CountersFit, hop, hstat]
  constructor
  · intro h
    rw [hexec, complete_of_fit (hfit.1 h)]
    exact ⟨_, rfl⟩
  · intro h
    rw [hexec]
    exact complete_refused (by rw [hparams]; exact hov) fun h' => h (hfit.2 h')

/-- Settles O35: a hit sets the dirty bit of its slot at most, an install gives its slot that of the rule, and neither TOUCH
nor the aging of the other slots looks at it. -/
theorem dirtyBitRule : Obligations.DirtyBitRule := by
  unfold Obligations.DirtyBitRule
  intro i s t o h hx ho j w
  obtain ⟨hready, hcase, hothers, -⟩ := next_cases h hx
  have hset : o.set = (decoded i s).index := by
    obtain ⟨-, st, n, rfl, -⟩ := exec_next hx
    rw [State.completed_outcome, Option.some_inj] at ho
    rw [← ho]; rfl
  simp only [State.slot_def]
  by_cases hj : j = (decoded i s).index
  · subst hj
    rcases hcase with ⟨v, dat, hl, hout, hrow⟩ | ⟨-, -, hout, x, -, -, -, -, hdirty, hrow⟩ | ⟨-, -, -, hout, hrow⟩ <;>
      (rw [hout, Option.some_inj] at ho; subst ho; rw [hrow])
    · have hv : v < (s.row (decoded i s).index).length := (lookup_eq_some.1 hl).1
      rw [slotAt_set, touchedRow_length]
      by_cases hw : w = v
      · subst hw; simp [hitRecord, dirties, hv]
      · simp [hitRecord, hw, Ne.symm hw, dirty_slotAt_touchedRow]
    · have hlt : installSlot s (decoded i s).index < (s.row (decoded i s).index).length := by
        rw [h.row_length]; exact installSlot_lt h (h.dims hready.1) _
      rw [dirty_slotAt_installedRow hlt]
      by_cases hw : w = installSlot s (decoded i s).index
      · subst hw; simp [installRecord, hdirty, dirties]
      · simp [installRecord, hw, Ne.symm hw]
    · simp [directRecord]
  · rw [if_neg (by rw [hset]; tauto), hothers j hj]

/-- Settles O14: no row is listed after reset and every counter is 0 (10_state.md R45); the CFG the model names is legal by
the check itself. -/
theorem resetStateIsEmpty : Obligations.ResetStateIsEmpty := by
  unfold Obligations.ResetStateIsEmpty
  have hrow : ∀ i, State.reset.row i = freeRow State.reset.cfg := fun _ => rfl
  refine ⟨fun i w => ?_, rfl, rfl, rfl, by decide, rfl, fun _ => rfl⟩
  rw [State.slot_def, hrow, slotAt_freeRow]
  rfl

end Sys2Proof.Proofs
end

section
/-! Proofs for spec/10_state.md R46: a request run from two states that differ in unspecified fields of free slots only.
Each operation of a request keeps that relation, and what it reads of a slot it reads of an occupied one. -/

namespace Sys2Proof.Machine

/-! ### Slots and rows that agree where occupied -/

theorem sameWhereOccupied.refl (a : Slot) : sameWhereOccupied a a := ⟨rfl, fun _ => rfl⟩

/-- A change that keeps `valid` keeps the agreement. -/
theorem sameWhereOccupied.map {a b : Slot} (h : sameWhereOccupied a b) {f : Slot → Slot}
    (hf : ∀ sl, (f sl).valid = sl.valid) : sameWhereOccupied (f a) (f b) := by
  refine ⟨by rw [hf, hf]; exact h.1, fun hv => ?_⟩
  rw [h.2 (by rw [← hf]; exact hv)]

/-- Two rows that agree slot by slot in `valid`, and in everything where occupied. -/
abbrev RowsAgree (row row' : List Slot) : Prop := List.Forall₂ sameWhereOccupied row row'

theorem RowsAgree.slotAt {row row' : List Slot} (h : RowsAgree row row') (j : Nat) :
    sameWhereOccupied (slotAt row j) (slotAt row' j) := by
  induction h generalizing j with
  | nil => exact sameWhereOccupied.refl _
  | cons hx _ ih =>
    cases j with
    | zero => exact hx
    | succ j => exact ih j

theorem rowsAgree_of_slotAt {row row' : List Slot} (hlen : row.length = row'.length)
    (h : ∀ j < row.length, sameWhereOccupied (Machine.slotAt row j) (Machine.slotAt row' j)) : RowsAgree row row' := by
  refine List.forall₂_iff_get.2 ⟨hlen, fun j hj hj' => ?_⟩
  have hsame := h j hj
  rw [slotAt_eq_getElem hj, slotAt_eq_getElem hj'] at hsame
  exact hsame

theorem RowsAgree.mapIdx {row row' : List Slot} (h : RowsAgree row row') {f : Nat → Slot → Slot}
    (hf : ∀ j sl, (f j sl).valid = sl.valid) : RowsAgree (row.mapIdx f) (row'.mapIdx f) := by
  have hlen : row.length = row'.length := h.length_eq
  refine rowsAgree_of_slotAt (by simp [hlen]) fun j hj => ?_
  rw [List.length_mapIdx] at hj
  rw [slotAt_mapIdx hj, slotAt_mapIdx (hlen ▸ hj)]
  exact (h.slotAt j).map (hf j)

theorem RowsAgree.set {row row' : List Slot} (h : RowsAgree row row') (w : Nat) {x x' : Slot}
    (hx : sameWhereOccupied x x') : RowsAgree (row.set w x) (row'.set w x') := by
  have hlen : row.length = row'.length := h.length_eq
  refine rowsAgree_of_slotAt (by simp [hlen]) fun j _ => ?_
  rw [slotAt_set, slotAt_set, hlen]
  split
  · exact hx
  · exact h.slotAt j

/-- LOOKUP reads `valid`, and the tag where occupied (41_cache_store.md R141). -/
theorem RowsAgree.lookup {row row' : List Slot} (h : RowsAgree row row') (t : Tag) :
    lookup row' t = lookup row t := by
  induction h with
  | nil => rfl
  | @cons a b _ _ hab _ ih =>
    have hp : (b.valid && decide (b.tag = t)) = (a.valid && decide (a.tag = t)) := by
      cases hv : a.valid with
      | false => rw [← hab.1, hv]; rfl
      | true => rw [← hab.2 hv, hv]
    unfold Machine.lookup at ih ⊢
    rw [List.findIdx?_cons, List.findIdx?_cons, hp, ih]

theorem RowsAgree.occupied {row row' : List Slot} (h : RowsAgree row row') : occupied row' = occupied row := by
  induction h with
  | nil => rfl
  | cons hab _ ih =>
    unfold Machine.occupied at ih ⊢
    rw [List.countP_cons, List.countP_cons, ih, hab.1]

/-- Where no slot is free the rows are equal. -/
theorem RowsAgree.eq_of_full {row row' : List Slot} (h : RowsAgree row row') (hfull : ∀ sl ∈ row, sl.valid = true) :
    row' = row :=
  (row_ext h.length_eq fun j hj => (h.slotAt j).2 (hfull _ (slotAt_mem hj))).symm

theorem RowsAgree.touchRow {row row' : List Slot} (h : RowsAgree row row') {w : Nat}
    (hw : (Machine.slotAt row w).valid = true) : RowsAgree (touchRow row w) (touchRow row' w) := by
  unfold Machine.touchRow
  rw [← (h.slotAt w).2 hw]
  exact h.mapIdx fun j sl => by split_ifs <;> rfl

theorem RowsAgree.ageYounger {row row' : List Slot} (h : RowsAgree row row') {w : Nat}
    (hw : (Machine.slotAt row w).valid = true) : RowsAgree (ageYounger w row) (ageYounger w row') := by
  unfold Machine.ageYounger
  rw [← (h.slotAt w).2 hw]
  exact h.mapIdx fun j sl => by split_ifs <;> rfl

theorem RowsAgree.ageFirst {row row' : List Slot} (h : RowsAgree row row') (n : Nat) :
    RowsAgree (ageFirst n row) (ageFirst n row') :=
  h.mapIdx fun j sl => by split_ifs <;> rfl

/-! ### States that agree where occupied -/

/-- Two states that differ at most in fields of free slots, both slot arrays in canonical form. -/
structure Twins (s s' : State) : Prop where
  canonical : Sparse.wf (freeRow s.cfg) s.rows = true
  canonical' : Sparse.wf (freeRow s'.cfg) s'.rows = true
  agree : AgreeOnOccupied s s'

theorem Twins.rest {s s' : State} (h : Twins s s') : ∃ rows', s' = { s with rows := rows' } := ⟨_, h.agree.1⟩

theorem Twins.row {s s' : State} (h : Twins s s') (i : Nat) : RowsAgree (s.row i) (s'.row i) := h.agree.2 i

theorem Twins.cfg {s s' : State} (h : Twins s s') : s'.cfg = s.cfg := by rw [h.agree.1]

theorem Twins.params {s s' : State} (h : Twins s s') : s'.params = s.params := by rw [h.agree.1]

theorem Twins.req {s s' : State} (h : Twins s s') : s'.req = s.req := by rw [h.agree.1]

theorem Twins.mem {s s' : State} (h : Twins s s') : s'.mem = s.mem := by rw [h.agree.1]

theorem Twins.opCounter {s s' : State} (h : Twins s s') : s'.opCounter = s.opCounter := by rw [h.agree.1]

theorem Twins.stat {s s' : State} (h : Twins s s') : s'.stat = s.stat := by rw [h.agree.1]

theorem Twins.ready {s s' : State} (h : Twins s s') {k : Kind} {a : Address} (hr : Ready k a s) : Ready k a s' := by
  obtain ⟨rows', rfl⟩ := h.rest
  exact hr

theorem Twins.decoded {s s' : State} (h : Twins s s') (i : Instr) : decoded i s' = decoded i s := by
  unfold Machine.decoded
  rw [h.cfg]

theorem Twins.setRow {s s' : State} (h : Twins s s') (i : Nat) {row row' : List Slot} (hrow : RowsAgree row row') :
    Twins (s.setRow i row) (s'.setRow i row') where
  canonical := State.rowsCanonical_setRow h.canonical i row
  canonical' := State.rowsCanonical_setRow h.canonical' i row'
  agree := by
    refine ⟨?_, fun j => ?_⟩
    · obtain ⟨rows', rfl⟩ := h.rest
      rfl
    · rw [State.row_setRow h.canonical, State.row_setRow h.canonical']
      split
      · exact hrow
      · exact h.row j

theorem Twins.setMem {s s' : State} (h : Twins s s') (m : List Host.Cell) : Twins (s.setMem m) (s'.setMem m) where
  canonical := h.canonical
  canonical' := h.canonical'
  agree := by
    refine ⟨?_, h.row⟩
    obtain ⟨rows', rfl⟩ := h.rest
    rfl

theorem Twins.updateSlot {s s' : State} (h : Twins s s') (i w : Nat) {f : Slot → Slot}
    (hf : ∀ sl, (f sl).valid = sl.valid) : Twins (s.updateSlot i w f) (s'.updateSlot i w f) :=
  h.setRow i ((h.row i).set w (((h.row i).slotAt w).map hf))

theorem Twins.markDirty {s s' : State} (h : Twins s s') (i w : Nat) : Twins (s.markDirty i w) (s'.markDirty i w) :=
  h.updateSlot i w fun _ => rfl

theorem Twins.touch {s s' : State} (h : Twins s s') (i : Nat) {w : Nat} (hw : (slotAt (s.row i) w).valid = true) :
    Twins (s.touch i w) (s'.touch i w) := by
  unfold State.touch
  rw [h.cfg]
  split
  · exact h.setRow i ((h.row i).touchRow hw)
  · exact h

theorem Twins.storeDatum {s s' : State} (h : Twins s s') (i w o : Nat) :
    Twins (s.storeDatum i w o) (s'.storeDatum i w o) := by
  unfold State.storeDatum
  rw [h.params, h.req]
  split
  · exact h.updateSlot i w fun _ => rfl
  · exact h

theorem Twins.storeThrough {s s' : State} (h : Twins s s') (a : Address) :
    Twins (s.storeThrough a) (s'.storeThrough a) := by
  unfold State.storeThrough
  rw [h.params, h.req, h.mem]
  split
  · exact h.setMem _
  · exact h

theorem Twins.writeBack {s s' : State} (h : Twins s s') (i : Nat) (v : Slot) :
    Twins (s.writeBack i v) (s'.writeBack i v) := by
  unfold State.writeBack
  rw [h.params, h.mem, h.cfg]
  split
  · exact h.setMem _
  · exact h

theorem Twins.installedSlot {s s' : State} (h : Twins s s') (i : Nat) (t : Tag) (k : Kind) :
    s'.installedSlot i t k = s.installedSlot i t k := by
  obtain ⟨rows', rfl⟩ := h.rest
  rfl

/-- A LOAD reads the data of an occupied slot alike. -/
theorem Twins.readData {s s' : State} (h : Twins s s') {d : Decoded} {w : Nat}
    (hw : (slotAt (s.row d.index) w).valid = true) : s'.readData d w = s.readData d w := by
  unfold State.readData
  rw [h.params, h.req, State.slot_def, State.slot_def, ((h.row d.index).slotAt w).2 hw]

/-! ### Effects that agree where occupied -/

/-- Two effects with the same parts of the outcome record, whose states are twins. -/
structure EffectsAgree (e e' : Effect) : Prop where
  st : Twins e.st e'.st
  slot : e'.slot = e.slot
  victimTag : e'.victimTag = e.victimTag
  wroteBack : e'.wroteBack = e.wroteBack
  cost : e'.cost = e.cost
  events : e'.events = e.events

theorem EffectsAgree.record {e e' : Effect} (h : EffectsAgree e e') (d : Decoded) (hit : Bool) :
    e'.record d hit = e.record d hit := by
  unfold Effect.record
  rw [h.slot, h.victimTag, h.wroteBack, h.cost, h.events]

/-- An install over a slot that is occupied, or outside the LRU path: nothing is read of a victim that is free. -/
theorem Twins.replaceSlot {s s' : State} (h : Twins s s') (i w : Nat) (t : Tag) (k : Kind)
    (hlru : lruActive s.cfg = true → (slotAt (s.row i) w).valid = true) :
    EffectsAgree (replaceSlot s i w t k) (replaceSlot s' i w t k) := by
  have hvictim := (h.row i).slotAt w
  have hwb : writeBackNeeded s.cfg (slotAt (s'.row i) w) = writeBackNeeded s.cfg (slotAt (s.row i) w) := by
    unfold writeBackNeeded
    cases hv : (slotAt (s.row i) w).valid with
    | false => rw [← hvictim.1, hv]; rfl
    | true => rw [← hvictim.2 hv, hv]
  have hvalid : writeBackNeeded s.cfg (slotAt (s.row i) w) = true → (slotAt (s.row i) w).valid = true := fun hn => by
    simp only [writeBackNeeded, Bool.and_eq_true] at hn
    exact hn.1.1
  have hback : Twins (if writeBackNeeded s.cfg (slotAt (s.row i) w) then s.writeBack i (slotAt (s.row i) w) else s)
      (if writeBackNeeded s.cfg (slotAt (s.row i) w) then s'.writeBack i (slotAt (s'.row i) w) else s') := by
    split
    · rename_i hn
      rw [← hvictim.2 (hvalid hn)]
      exact h.writeBack i _
    · exact h
  have haged : RowsAgree (if lruActive s.cfg then ageYounger w (s.row i) else s.row i)
      (if lruActive s.cfg then ageYounger w (s'.row i) else s'.row i) := by
    split
    · rename_i hl
      exact (h.row i).ageYounger (hlru hl)
    · exact h.row i
  constructor <;> simp only [Machine.replaceSlot, h.cfg, h.params, hwb]
  · rw [hback.installedSlot]
    exact hback.setRow i (haged.set w (sameWhereOccupied.refl _))
  · rw [← hvictim.1]
    split
    · rename_i hv
      rw [← hvictim.2 hv]
    · rfl
  · split
    · rename_i hn
      rw [← hvictim.2 (hvalid hn)]
    · rfl

theorem Twins.installFresh {s s' : State} (h : Twins s s') (i : Nat) (t : Tag) (k : Kind) :
    EffectsAgree (installFresh s i t k) (installFresh s' i t k) := by
  constructor <;> simp only [Machine.installFresh, (h.row i).occupied, h.cfg, h.installedSlot]
  refine h.setRow i (RowsAgree.set ?_ _ (sameWhereOccupied.refl _))
  split
  · exact (h.row i).ageFirst _
  · exact h.row i

/-- The install ALLOCATE runs: a victim is searched in a full set only, where the two rows are equal. -/
theorem Twins.place {s s' : State} (h : Twins s s') (hinv : Inv s) (i : Nat) (t : Tag) (k : Kind) :
    EffectsAgree (place s i t k) (place s' i t k) := by
  have hlen := hinv.row_length i
  have hfull : ¬occupied (s.row i) < s.cfg.ways → ∀ sl ∈ s.row i, sl.valid = true := fun hroom sl hsl => by
    have hle := occupiedSlots_length_le (s.row i)
    rw [occupied_eq_length] at hroom
    exact valid_of_full (by omega) hsl
  have hne : lruActive s.cfg = true → s.row i ≠ [] := fun hl hnil => by
    have hways := (lruActive_iff.1 hl).2
    rw [hnil, List.length_nil] at hlen
    omega
  unfold Machine.place
  rw [h.cfg, (h.row i).occupied]
  split_ifs with hone hroom
  · exact h.replaceSlot i 0 t k fun hl => absurd (lruActive_iff.1 hl).2 (by omega)
  · exact h.installFresh i t k
  · rw [(h.row i).eq_of_full (hfull hroom)]
    exact h.replaceSlot i _ t k fun hl => hfull hroom _ (slotAt_mem (victimLru_lt (hne hl)))
  · rw [(h.row i).eq_of_full (hfull hroom)]
    exact h.replaceSlot i _ t k fun hl => hfull hroom _ (slotAt_mem (victimFifo_lt (hne hl)))

theorem Twins.allocate {s s' : State} (h : Twins s s') (hinv : Inv s) (i : Nat) (t : Tag) (k : Kind) :
    EffectsAgree (allocate s i t k) (allocate s' i t k) := by
  obtain ⟨hst, hslot, hvictim, hwrote, hcost, hevents⟩ := h.place hinv i t k
  refine ⟨hst, hslot, hvictim, hwrote, ?_, hevents⟩
  simp only [Machine.allocate, hcost, h.params, h.cfg]

theorem Twins.loadHit {s s' : State} (h : Twins s s') {d : Decoded} {w : Nat}
    (hw : (slotAt (s.row d.index) w).valid = true) : EffectsAgree (loadHit s d w) (loadHit s' d w) := by
  constructor <;> simp only [Machine.loadHit, h.params]
  exact h.touch _ hw

theorem Twins.storeHit {s s' : State} (h : Twins s s') (a : Address) {d : Decoded} {w : Nat}
    (hw : (slotAt (s.row d.index) w).valid = true) : EffectsAgree (storeHit s a d w) (storeHit s' a d w) := by
  have hst := (h.touch _ hw).storeDatum d.index w d.offset
  simp only [Machine.storeHit, h.cfg, h.params]
  split
  · exact ⟨hst.storeThrough a, rfl, rfl, rfl, rfl, rfl⟩
  · exact ⟨hst.markDirty _ w, rfl, rfl, rfl, rfl, rfl⟩

theorem Twins.storeMiss {s s' : State} (h : Twins s s') (hinv : Inv s) (a : Address) (d : Decoded) :
    EffectsAgree (storeMiss s a d) (storeMiss s' a d) := by
  obtain ⟨hst, hslot, hvictim, hwrote, hcost, hevents⟩ := h.allocate hinv d.index d.tag .store
  have hdatum := hst.storeDatum d.index ((Machine.allocate s d.index d.tag .store).slot.getD 0) d.offset
  simp only [Machine.storeMiss, storeMissAllocate, storeMissDirect, h.cfg, h.params, hslot]
  split_ifs
  · exact ⟨hdatum.storeThrough a, rfl, hvictim, hwrote, hcost, by simp only [hevents]⟩
  · exact ⟨hdatum, rfl, hvictim, hwrote, hcost, hevents⟩
  · exact ⟨h.storeThrough a, rfl, rfl, rfl, rfl, rfl⟩

/-! ### A whole request -/

/-- Both states take the same path with effects that agree. -/
theorem Twins.requestEffect {s s' : State} (h : Twins s s') (hinv : Inv s) (i : Instr) :
    (requestEffect i s').1 = (requestEffect i s).1 ∧ EffectsAgree (requestEffect i s).2 (requestEffect i s').2 := by
  have hdec := h.decoded i
  have hlookup := (h.row (Machine.decoded i s).index).lookup (Machine.decoded i s).tag
  cases hl : lookup (s.row (Machine.decoded i s).index) (Machine.decoded i s).tag with
  | some w =>
    have hw := (lookup_eq_some.1 hl).2.1
    cases i with
    | load a =>
      simp only [Machine.requestEffect, hdec, hlookup, hl]
      exact ⟨trivial, h.loadHit hw⟩
    | store a =>
      simp only [Machine.requestEffect, hdec, hlookup, hl]
      exact ⟨trivial, h.storeHit a hw⟩
  | none =>
    cases i with
    | load a =>
      simp only [Machine.requestEffect, hdec, hlookup, hl]
      exact ⟨trivial, h.allocate hinv _ _ _⟩
    | store a =>
      simp only [Machine.requestEffect, hdec, hlookup, hl]
      exact ⟨trivial, h.storeMiss hinv a _⟩

/-- The slot a LOAD reads its data from. -/
def loadSlot (a : Address) (s : State) : Nat :=
  (lookup (s.row (decoded (.load a) s).index) (decoded (.load a) s).tag).getD
    ((requestEffect (.load a) s).2.slot.getD 0)

/-- It is occupied once the LOAD has run: a slot hit stays so, and an install fills its slot. -/
theorem valid_loadSlot {a : Address} {s : State} (h : Inv s) (hr : Ready .load a s) :
    (slotAt ((requestEffect (.load a) s).2.st.row (decoded (.load a) s).index) (loadSlot a s)).valid = true := by
  obtain ⟨-, -, -, hrow⟩ := requestEffect_spec (i := .load a) h hr
  have hd := h.dims hr.1
  have hi : (decoded (.load a) s).index < s.cfg.sets := decodeAddress_index_lt hd _
  rw [hrow, if_pos rfl]
  cases hl : lookup (s.row (decoded (.load a) s).index) (decoded (.load a) s).tag with
  | some w =>
    obtain ⟨hw, hv, -⟩ := lookup_eq_some.1 hl
    simp only [requestRow, loadSlot, hl, Option.getD_some]
    rw [set_touchRow_eq hw]
    exact hv
  | none =>
    simp only [requestRow, loadSlot, requestEffect, loadMiss, hl, Option.getD_none]
    rw [allocate_spec h hd hi, Option.getD_some,
      slotAt_installedRow (by rw [h.row_length]; exact installSlot_lt h hd _), if_pos rfl]
    rfl

theorem Twins.requestData {s s' : State} (h : Twins s s') (hinv : Inv s) {i : Instr}
    (hr : Ready i.kind i.address s) : requestData i s' = requestData i s := by
  obtain ⟨-, heffect⟩ := h.requestEffect hinv i
  cases i with
  | store a => rfl
  | load a =>
    have hv := valid_loadSlot hinv hr
    simp only [Machine.requestData, h.decoded, (h.row _).lookup, heffect.slot]
    exact heffect.st.readData hv

/-- Effects that agree complete alike, in states that again agree. -/
theorem EffectsAgree.complete {e e' : Effect} (h : EffectsAgree e e') {k : Kind} {d : Decoded} {hit : Bool}
    {rdata : Option (List Byte)} {t : State} (hx : complete k d hit rdata e = .next t) :
    ∃ t', complete k d hit rdata e' = .next t' ∧ AgreeOnOccupied t t' := by
  unfold Machine.complete at hx ⊢
  simp only [h.st.params, h.st.stat, h.st.opCounter, h.cost, h.record] at hx ⊢
  split at hx
  · rename_i st n hst hn
    cases hx
    rw [hst, hn]
    refine ⟨_, rfl, ?_, h.st.row⟩
    obtain ⟨rows', hrest⟩ := h.st.rest
    rw [hrest]
    rfl
  · cases hx

end Sys2Proof.Machine

/-! ### The statement -/

namespace Sys2Proof.Proofs

open Sys2Proof.Machine

/-- Settles O53: the two states take the same path, the effects agree operation by operation, the data of a LOAD is read from
an occupied slot, and `complete` then does the same in both. -/
theorem freeSlotFieldsUnobservable : Obligations.FreeSlotFieldsUnobservable := by
  unfold Obligations.FreeSlotFieldsUnobservable
  intro i s s' t hinv hagree hcanonical hx
  have htwins : Twins s s' := ⟨hinv.rowsCanonical, hcanonical, hagree⟩
  have hready := (exec_next hx).1
  rw [exec_ready hready] at hx
  obtain ⟨hhit, heffect⟩ := htwins.requestEffect hinv i
  obtain ⟨t', ht', hagree'⟩ := heffect.complete hx
  have hx' : exec i s' = .next t' := by
    rw [exec_ready (htwins.ready hready), htwins.decoded, hhit, htwins.requestData hinv hready]
    exact ht'
  exact ⟨t', hx', hagree', exec_rowsCanonical hcanonical hx', by rw [hagree'.1], by rw [hagree'.1], by rw [hagree'.1]⟩

end Sys2Proof.Proofs
end

section
/-! Proofs for spec/20_memory.md: the events of a request (R70), the memory it leaves (R77, R78, R81), and the access that
crosses a block boundary (R76). -/

namespace Sys2Proof.Machine

/-! ### The memory a request leaves, byte by byte (20_memory.md R77, R78, R81) -/

/-- The byte at `x`, `b` before, once the data of a side-band is stored from `a` on. -/
def storedByte (sb : Sideband) (a x : Address) (b : Byte) : Byte :=
  if (x - a).toNat < sb.size then sb.wdata.getD (x - a).toNat 0#8 else b

/-- A served request stores inside its own block (20_memory.md R76). -/
theorem storedByte_of_other_block {k : Kind} {s : State} {a x : Address} (hr : Ready k a s) (hd : Dims s.cfg)
    (hda : s.params.dataArray = true)
    (hx : ¬((decodeAddress s.cfg x).tag = (decodeAddress s.cfg a).tag ∧
      (decodeAddress s.cfg x).index = (decodeAddress s.cfg a).index)) (b : Byte) :
    storedByte s.req a x b = b := by
  refine if_neg fun hlt => hx ?_
  obtain ⟨htag, hindex, -⟩ := (store_range hd (hr.2 hda).2).1 hlt
  exact ⟨htag, hindex⟩

theorem read_writeBytes_wdata {i : Instr} {s : State} (hr : Ready i.kind i.address s) (hd : Dims s.cfg)
    (hda : s.params.dataArray = true) (hk : i.kind = .store) {m : List Host.Cell} (hm : Memory.wf m = true) (x : Address) :
    Memory.read (Memory.writeBytes m i.address s.req.wdata) x = storedByte s.req i.address x (Memory.read m x) :=
  store_write (hk ▸ hr) hd hda hm x

section
variable {i : Instr} {s : State}

theorem requestMem_of_hit {w : Nat} (hl : lookup (s.row (decoded i s).index) (decoded i s).tag = some w) :
    requestMem i s =
      if s.params.dataArray = true ∧ StoresThrough i s then Memory.writeBytes s.mem i.address s.req.wdata else s.mem := by
  cases i with
  | load a => simp [requestMem, hl, StoresThrough, Instr.kind]
  | store a => simp [requestMem, hl, StoresThrough, Instr.kind, Instr.address]

theorem requestMem_of_install (hl : lookup (s.row (decoded i s).index) (decoded i s).tag = none)
    (hwa : i.kind = .store → s.cfg.writeAllocate = true) :
    requestMem i s =
      if s.params.dataArray = true ∧ StoresThrough i s then
        Memory.writeBytes (s.memAfterEviction (decoded i s).index) i.address s.req.wdata
      else s.memAfterEviction (decoded i s).index := by
  cases i with
  | load a => simp [requestMem, hl, StoresThrough, Instr.kind]
  | store a => simp [requestMem, hl, hwa rfl, StoresThrough, Instr.kind, Instr.address]

theorem requestMem_of_direct (hl : lookup (s.row (decoded i s).index) (decoded i s).tag = none)
    (hk : i.kind = .store) (hwa : s.cfg.writeAllocate = false) :
    requestMem i s =
      if s.params.dataArray = true then Memory.writeBytes s.mem i.address s.req.wdata else s.mem := by
  cases i with
  | load a => cases hk
  | store a => simp [requestMem, hl, hwa, Instr.address]

variable (h : Inv s) (hr : Ready i.kind i.address s) (hda : s.params.dataArray = true)
include h hr hda

theorem read_requestMem_of_hit {w : Nat} (hl : lookup (s.row (decoded i s).index) (decoded i s).tag = some w)
    (x : Address) :
    Memory.read (requestMem i s) x =
      if StoresThrough i s then storedByte s.req i.address x (Memory.read s.mem x) else Memory.read s.mem x := by
  rw [requestMem_of_hit hl]
  by_cases hst : StoresThrough i s
  · rw [if_pos ⟨hda, hst⟩, if_pos hst, read_writeBytes_wdata hr (h.dims hr.1) hda hst.1 h.memCanonical]
  · rw [if_neg fun hc => hst hc.2, if_neg hst]

theorem read_requestMem_of_install (hl : lookup (s.row (decoded i s).index) (decoded i s).tag = none)
    (hwa : i.kind = .store → s.cfg.writeAllocate = true) (x : Address) :
    Memory.read (requestMem i s) x =
      if StoresThrough i s then storedByte s.req i.address x (Memory.read (s.memAfterEviction (decoded i s).index) x)
      else Memory.read (s.memAfterEviction (decoded i s).index) x := by
  rw [requestMem_of_install hl hwa]
  by_cases hst : StoresThrough i s
  · rw [if_pos ⟨hda, hst⟩, if_pos hst,
      read_writeBytes_wdata hr (h.dims hr.1) hda hst.1 (memAfterEviction_wf h.memCanonical _)]
  · rw [if_neg fun hc => hst hc.2, if_neg hst]

theorem read_requestMem_of_direct (hl : lookup (s.row (decoded i s).index) (decoded i s).tag = none)
    (hk : i.kind = .store) (hwa : s.cfg.writeAllocate = false) (x : Address) :
    Memory.read (requestMem i s) x = storedByte s.req i.address x (Memory.read s.mem x) := by
  rw [requestMem_of_direct hl hk hwa, if_pos hda, read_writeBytes_wdata hr (h.dims hr.1) hda hk h.memCanonical]

end

/-- Without the data array no request writes memory (20_memory.md R77). -/
theorem requestMem_of_no_dataArray (i : Instr) {s : State} (hda : s.params.dataArray = false) :
    requestMem i s = s.mem := by
  have hevict : s.memAfterEviction (decoded i s).index = s.mem := by simp [State.memAfterEviction, hda]
  cases hl : lookup (s.row (decoded i s).index) (decoded i s).tag with
  | some w => rw [requestMem_of_hit hl, if_neg (by simp [hda])]
  | none =>
    by_cases hdirect : i.kind = .store ∧ s.cfg.writeAllocate = false
    · rw [requestMem_of_direct hl hdirect.1 hdirect.2, if_neg (by simp [hda])]
    · rw [requestMem_of_install hl fun hk => by simpa [hk] using hdirect, if_neg (by simp [hda]), hevict]

/-! ### The events a request records (20_memory.md R67, R68, R70) -/

/-- No slot is dirty under write-through (10_state.md R30), so no victim is. -/
theorem victim_clean_of_writeThrough {s : State} (h : Inv s) {i : Nat} (hi : i < s.cfg.sets)
    (hwt : s.cfg.writeThrough = true) (hv : (s.victim i).valid = true) : (s.victim i).dirty = false := by
  obtain ⟨-, -, -, -, -, hslots⟩ := h.rowOk hi
  obtain ⟨-, hclean, -⟩ := hslots _ (slotAt_mem (lt_of_valid hv)) hv
  exact hclean hwt

theorem writebackEvents_of_writeThrough {s : State} (hwt : s.cfg.writeThrough = true) (i : Nat) :
    s.writebackEvents i = [] := by
  simp [State.writebackEvents, victimDirty_wt hwt]

/-- An install emits no WRITE of its own: a WRITE in its record is that of write-through. -/
theorem write_mem_installRecord {i : Instr} {s : State} :
    MemEvent.write i.address ∈ (installRecord i s).events ↔ StoresThrough i s := by
  unfold installRecord State.writebackEvents
  by_cases hst : StoresThrough i s <;> cases s.victimDirty (decoded i s).index <;> simp [hst]

theorem write_mem_hitRecord {i : Instr} {s : State} {w : Nat} :
    MemEvent.write i.address ∈ (hitRecord i s w).events ↔ StoresThrough i s := by
  unfold hitRecord
  by_cases hst : StoresThrough i s <;> simp [hst]

/-- A byte outside the block of the WRITEBACK an install records is not written by the eviction (20_memory.md R78). -/
theorem read_memAfterEviction_of_not_writeback {i : Instr} {s : State} (h : Inv s) (hr : Ready i.kind i.address s)
    (hda : s.params.dataArray = true) {x : Address}
    (hx : MemEvent.writeback (blockBase s.cfg x) ∉ (installRecord i s).events) :
    Memory.read (s.memAfterEviction (decoded i s).index) x = Memory.read s.mem x := by
  have hd := h.dims hr.1
  have hi : (decoded i s).index < s.cfg.sets := decodeAddress_index_lt hd _
  rw [read_memAfterEviction h hd hi hda, if_neg]
  rintro ⟨hv, htag, hindex⟩
  have hbase : recompose s.cfg (s.victim (decoded i s).index).tag (decoded i s).index = blockBase s.cfg x := by
    rw [← recompose_decode hd x, htag, hindex]
  exact hx (by simp [installRecord, State.writebackEvents, hv, hbase])

/-- The memory a request leaves, from its record: the datum of a WRITE over what the WRITEBACK, if any, left. -/
theorem read_mem_of_next {i : Instr} {s t : State} {o : OutcomeRecord} (h : Inv s) (hx : exec i s = .next t)
    (ho : t.outcome = some o) (hda : s.params.dataArray = true) :
    ∃ m, (∀ x, MemEvent.writeback (blockBase s.cfg x) ∉ o.events → Memory.read m x = Memory.read s.mem x) ∧
      ∀ x, Memory.read t.mem x =
        if MemEvent.write i.address ∈ o.events then storedByte s.req i.address x (Memory.read m x)
        else Memory.read m x := by
  obtain ⟨hr, hcase, -, hmem, -⟩ := next_cases h hx
  rw [hmem]
  rcases hcase with ⟨w, -, hl, hout, -⟩ | ⟨hl, hwa, hout, -⟩ | ⟨hl, hk, hwa, hout, -⟩ <;>
    (rw [hout, Option.some_inj] at ho; subst ho)
  · refine ⟨s.mem, fun _ _ => rfl, fun x => ?_⟩
    simp only [read_requestMem_of_hit h hr hda hl, write_mem_hitRecord]
  · refine ⟨s.memAfterEviction (decoded i s).index, fun x => read_memAfterEviction_of_not_writeback h hr hda,
      fun x => ?_⟩
    simp only [read_requestMem_of_install h hr hda hl hwa, write_mem_installRecord]
  · refine ⟨s.mem, fun _ _ => rfl, fun x => ?_⟩
    rw [read_requestMem_of_direct h hr hda hl hk hwa, if_pos (by simp [directRecord])]

/-! ### Accesses and block boundaries (20_memory.md R76) -/

theorem exec_of_requestRefusal {i : Instr} {s : State} {r : Refusal}
    (h : requestRefusal i.kind i.address s = some r) : exec i s = .refused r := by
  cases i with
  | load a =>
    have hload : requestRefusal .load a s = some r := h
    simp only [exec, execLoad, hload]
  | store a =>
    have hstore : requestRefusal .store a s = some r := h
    simp only [exec, execStore, hstore]

/-- An aligned access stays inside the block when its size divides that of the block. -/
theorem mod_add_le_of_dvd {a bytes size : Nat} (hb : 0 < bytes) (ha : size ∣ a) (hs : size ∣ bytes) :
    a % bytes + size ≤ bytes := by
  obtain ⟨p, rfl⟩ := ha
  obtain ⟨q, rfl⟩ := hs
  have hq : 0 < q := Nat.pos_of_mul_pos_left hb
  calc size * p % (size * q) + size = size * (p % q + 1) := by rw [Nat.mul_mod_mul_left, Nat.mul_succ]
    _ ≤ size * q := Nat.mul_le_mul_left _ (Nat.mod_lt _ hq)

end Sys2Proof.Machine

/-! ### The statements -/

namespace Sys2Proof.Proofs

open Sys2Proof.Machine

/-- Settles O29: the effect of a request writes memory at the victim's block and, where it records a WRITE, at its own
bytes. -/
theorem requestsMemoryFrame : Obligations.RequestsMemoryFrame := by
  unfold Obligations.RequestsMemoryFrame
  intro i s t o h hx ho
  refine ⟨fun hda => ?_, fun hda x => ?_⟩
  · obtain ⟨-, -, -, hmem, -⟩ := next_cases h hx
    rw [hmem, requestMem_of_no_dataArray i hda]
  · obtain ⟨m, hframe, hread⟩ := read_mem_of_next h hx ho hda
    rw [hread]
    constructor
    · intro hwrite hlt
      rw [if_pos hwrite, storedByte, if_pos hlt]
    · intro hback hout
      rw [← hframe x hback]
      split
      · rename_i hwrite
        exact if_neg fun hlt => hout ⟨hwrite, hlt⟩
      · rfl

/-- Settles O31: the record is that of a hit, of an install or of a direct write, and under write-through the victim is
clean. -/
theorem eventTable : Obligations.EventTable := by
  unfold Obligations.EventTable
  intro i s t o d h hx ho hdec
  obtain ⟨hr, hcase, -⟩ := next_cases h hx
  have hd : d = decoded i s := hdec
  subst hd
  refine ⟨victim_clean_of_writeThrough h (decodeAddress_index_lt (h.dims hr.1) _), ?_⟩
  rcases hcase with ⟨w, -, -, hout, -⟩ | ⟨-, hwa, hout, -⟩ | ⟨-, hk, hwa, hout, -⟩ <;>
    (rw [hout, Option.some_inj] at ho; subst ho)
  · cases i <;> simp [hitRecord, StoresThrough, Instr.kind, Instr.address]
  · cases i with
    | load a => simp [installRecord, StoresThrough, Instr.kind, Instr.address]
    | store a =>
      have hwa := hwa rfl
      by_cases hwt : s.cfg.writeThrough = true
      · simp [installRecord, writebackEvents_of_writeThrough hwt, hwt, hwa, Instr.kind, Instr.address]
      · simp [installRecord, hwt, hwa, Instr.kind, Instr.address]
  · cases i with
    | load a => cases hk
    | store a => simp [directRecord, hwa, Instr.address]

/-- Settles O49: the crossing is looked at last of the refusals; sizes 1, 2 and 4 divide every block size of a legal CFG. -/
theorem crossingAccessRefused : Obligations.CrossingAccessRefused := by
  unfold Obligations.CrossingAccessRefused
  constructor
  · intro i s herr hda hwf hcross
    apply exec_of_requestRefusal
    simp [requestRefusal, insideBlock, herr, hda, hwf, hcross]
  · intro c a size hc hsize halign
    obtain ⟨he, hb⟩ := legalCfg_iff.1 hc
    have hd := dims_of_legal he hb
    have hfour : 4 ∣ c.bytes := by
      rw [hd.bytes]
      exact pow_dvd_pow 2 hd.offsetBits
    have hsize4 : size ∣ 4 := by rcases hsize with rfl | rfl | rfl <;> decide
    exact mod_add_le_of_dvd hd.bytes_pos (Nat.dvd_of_mod_eq_zero halign) (hsize4.trans hfour)

end Sys2Proof.Proofs
end

section
/-! Proofs for spec/20_memory.md R83: what a requester sees. A request changes the bytes seen exactly by the data of a STORE
at its own addresses (`exec_byteAt`), whether it hits, installs or goes to memory. -/

namespace Sys2Proof.Machine

/-! ### The byte seen at an address -/

theorem lookup_eq_none_iff_slotAt {row : List Slot} {t : Tag} :
    lookup row t = none ↔ ∀ j < row.length, (slotAt row j).valid = true → (slotAt row j).tag ≠ t := by
  rw [lookup_eq_none]
  constructor
  · intro hnone j hj hv ht
    exact hnone _ (slotAt_mem hj) ⟨hv, ht⟩
  · rintro hnone sl hsl ⟨hv, ht⟩
    obtain ⟨j, hj, rfl⟩ := mem_row hsl
    exact hnone j hj hv ht

/-- LOOKUP finds the one slot that holds a tag (10_state.md R33). -/
theorem lookup_of_holds {s : State} (h : Inv s) {i : Nat} (hi : i < s.cfg.sets) {t : Tag} {w : Nat}
    (hv : (slotAt (s.row i) w).valid = true) (ht : (slotAt (s.row i) w).tag = t) : lookup (s.row i) t = some w := by
  have hshape := h.rowShape hi
  have hlt : ∀ j, (slotAt (s.row i) j).valid = true → j < occupied (s.row i) := fun j hj =>
    (hshape.valid j (lt_of_valid hj)).1 hj
  cases hl : lookup (s.row i) t with
  | none => exact absurd ht (lookup_eq_none_iff_slotAt.1 hl w (lt_of_valid hv) hv)
  | some j =>
    obtain ⟨-, hjv, hjt, -⟩ := lookup_eq_some.1 hl
    rw [hshape.tags j (hlt j hjv) w (hlt w hv) (hjt.trans ht.symm)]

theorem byteAt_of_lookup {s : State} {x : Address} {w : Nat}
    (hl : lookup (s.row (decodeAddress s.cfg x).index) (decodeAddress s.cfg x).tag = some w) :
    s.byteAt x =
      (slotAt (s.row (decodeAddress s.cfg x).index) w).data.getD (decodeAddress s.cfg x).offset 0#8 := by
  simp only [State.byteAt, hl, State.slot_def]

theorem byteAt_of_absent {s : State} {x : Address}
    (hl : lookup (s.row (decodeAddress s.cfg x).index) (decodeAddress s.cfg x).tag = none) :
    s.byteAt x = Memory.read s.mem x := by
  simp only [State.byteAt, hl]

/-- A slot that holds the block of an address is the one whose byte is seen. -/
theorem byteAt_of_holds {s : State} (h : Inv s) (he : s.cfgError = none) {x : Address} {w : Nat}
    (hv : (slotAt (s.row (decodeAddress s.cfg x).index) w).valid = true)
    (ht : (slotAt (s.row (decodeAddress s.cfg x).index) w).tag = (decodeAddress s.cfg x).tag) :
    s.byteAt x =
      (slotAt (s.row (decodeAddress s.cfg x).index) w).data.getD (decodeAddress s.cfg x).offset 0#8 :=
  byteAt_of_lookup (lookup_of_holds h (decodeAddress_index_lt (h.dims he) x) hv ht)

theorem byteAt_of_no_rows {s : State} (hrows : s.rows = []) (x : Address) : s.byteAt x = Memory.read s.mem x := by
  have hfree : s.row (decodeAddress s.cfg x).index = freeRow s.cfg := by unfold State.row; rw [hrows]; rfl
  refine byteAt_of_absent (lookup_eq_none_iff_slotAt.2 fun j _ hv => ?_)
  rw [hfree, slotAt_freeRow] at hv
  cases hv

/-- The data row of a block in the cache has the length of a block (10_state.md R28). -/
theorem data_length_of_valid {s : State} (h : Inv s) (hda : s.params.dataArray = true) {i w : Nat} (hi : i < s.cfg.sets)
    (hv : (slotAt (s.row i) w).valid = true) : (slotAt (s.row i) w).data.length = s.cfg.bytes := by
  obtain ⟨-, -, -, -, -, hslots⟩ := h.rowOk hi
  obtain ⟨-, -, -, hlen, -⟩ := hslots _ (slotAt_mem (lt_of_valid hv)) hv
  rw [hlen, if_pos hda]

/-- A clean block is memory's, byte by byte (20_memory.md R83). -/
theorem data_getD_of_clean {s : State} (h : Inv s) (hd : Dims s.cfg) (hda : s.params.dataArray = true) {i w : Nat}
    (hi : i < s.cfg.sets) (hv : (slotAt (s.row i) w).valid = true) (hclean : (slotAt (s.row i) w).dirty = false)
    {x : Address} (htag : (decodeAddress s.cfg x).tag = (slotAt (s.row i) w).tag)
    (hindex : (decodeAddress s.cfg x).index = i) :
    (slotAt (s.row i) w).data.getD (decodeAddress s.cfg x).offset 0#8 = Memory.read s.mem x := by
  obtain ⟨-, -, -, -, -, hslots⟩ := h.rowOk hi
  obtain ⟨hfits, -, -, -, hdata⟩ := hslots _ (slotAt_mem (lt_of_valid hv)) hv
  exact (data_eq_readBytes hd hfits hi (data_length_of_valid h hda hi hv)).1 (hdata hda hclean) x htag hindex

theorem victim_clean_of_not_victimDirty {s : State} (h : Inv s) {i : Nat} (hi : i < s.cfg.sets)
    (hv : (s.victim i).valid = true) (hdirty : ¬s.victimDirty i = true) : (s.victim i).dirty = false := by
  cases hwt : s.cfg.writeThrough with
  | true => exact victim_clean_of_writeThrough h hi hwt hv
  | false => simpa [State.victimDirty, hv, hwt] using hdirty

/-! ### The data rows a request leaves -/

/-- The data row of the request's block with the STORE's data put over it (20_memory.md R80). -/
def writtenData (i : Instr) (s : State) (data : List Byte) : List Byte :=
  match i with
  | .load _ => data
  | .store _ => putBytes data (decoded i s).offset s.req.wdata

/-- The byte seen at `x` after a request, `b` before: a LOAD changes none. -/
def servedByte (i : Instr) (sb : Sideband) (x : Address) (b : Byte) : Byte :=
  match i with
  | .load _ => b
  | .store a => storedByte sb a x b

theorem servedByte_of_store {i : Instr} (hk : i.kind = .store) (sb : Sideband) (x : Address) (b : Byte) :
    servedByte i sb x b = storedByte sb i.address x b := by
  cases i with
  | load a => cases hk
  | store a => rfl

/-- TOUCH changes no field that is seen. -/
theorem slotAt_touchRow_seen {row : List Slot} {j : Nat} (hj : j < row.length) (w : Nat) :
    (slotAt (touchRow row w) j).valid = (slotAt row j).valid ∧ (slotAt (touchRow row w) j).tag = (slotAt row j).tag ∧
      (slotAt (touchRow row w) j).data = (slotAt row j).data := by
  rw [slotAt_touchRow hj]
  split_ifs <;> exact ⟨rfl, rfl, rfl⟩

theorem slotAt_touchedRow_seen (i : Instr) (s : State) (w : Nat) {j : Nat}
    (hj : j < (s.row (decoded i s).index).length) :
    (slotAt (touchedRow i s w) j).valid = (slotAt (s.row (decoded i s).index) j).valid ∧
      (slotAt (touchedRow i s w) j).tag = (slotAt (s.row (decoded i s).index) j).tag ∧
      (slotAt (touchedRow i s w) j).data = (slotAt (s.row (decoded i s).index) j).data := by
  unfold touchedRow
  split
  · exact slotAt_touchRow_seen hj w
  · exact ⟨rfl, rfl, rfl⟩

/-- An install keeps what is seen of every other slot. -/
theorem slotAt_installedRow_seen {c : Cfg} {row : List Slot} {w j : Nat} {x : Slot} (hj : j < row.length) (hjw : j ≠ w) :
    (slotAt (installedRow c row w x) j).valid = (slotAt row j).valid ∧
      (slotAt (installedRow c row w x) j).tag = (slotAt row j).tag ∧
      (slotAt (installedRow c row w x) j).data = (slotAt row j).data := by
  rw [slotAt_installedRow hj, if_neg hjw]
  split <;> exact ⟨rfl, rfl, rfl⟩

section
variable {i : Instr} {s : State}

theorem slotAt_requestRow_of_hit (hda : s.params.dataArray = true) {w : Nat}
    (hl : lookup (s.row (decoded i s).index) (decoded i s).tag = some w) {j : Nat}
    (hj : j < (s.row (decoded i s).index).length) :
    (slotAt (requestRow i s) j).valid = (slotAt (s.row (decoded i s).index) j).valid ∧
      (slotAt (requestRow i s) j).tag = (slotAt (s.row (decoded i s).index) j).tag ∧
      (slotAt (requestRow i s) j).data =
        if j = w then writtenData i s (slotAt (s.row (decoded i s).index) j).data
        else (slotAt (s.row (decoded i s).index) j).data := by
  have htouched := slotAt_touchedRow_seen i s w hj
  cases i with
  | load a =>
    have hrow : requestRow (.load a) s = touchedRow (.load a) s w := by simp only [requestRow, hl, touchedRow]
    rw [hrow, writtenData, ite_self]
    exact htouched
  | store a =>
    have hrow : requestRow (.store a) s = (touchedRow (.store a) s w).set w
        { slotAt (s.row (decoded (.store a) s).index) w with
          accessSeq := if lruActive s.cfg then 0#32 else (slotAt (s.row (decoded (.store a) s).index) w).accessSeq
          dirty := (slotAt (s.row (decoded (.store a) s).index) w).dirty || !s.cfg.writeThrough
          data := writtenData (.store a) s (slotAt (s.row (decoded (.store a) s).index) w).data } := by
      simp only [requestRow, hl, hda, if_true, writtenData, touchedRow]
    rw [hrow, slotAt_set, touchedRow_length]
    by_cases hjw : j = w
    · subst hjw
      rw [if_pos ⟨rfl, hj⟩, if_pos rfl]
      exact ⟨rfl, rfl, rfl⟩
    · rw [if_neg fun hc => hjw hc.1, if_neg hjw]
      exact htouched

/-- The slot a request installs: the block as memory holds it after the eviction, with the STORE's data put over it. -/
def filledSlot (i : Instr) (s : State) : Slot :=
  { newSlot s (s.memAfterEviction (decoded i s).index) (decoded i s).index (decoded i s).tag i.kind with
    data := writtenData i s (Memory.readBytes (s.memAfterEviction (decoded i s).index)
      (recompose s.cfg (decoded i s).tag (decoded i s).index) s.cfg.bytes) }

theorem requestRow_of_install (hda : s.params.dataArray = true)
    (hl : lookup (s.row (decoded i s).index) (decoded i s).tag = none)
    (hwa : i.kind = .store → s.cfg.writeAllocate = true) :
    requestRow i s =
      installedRow s.cfg (s.row (decoded i s).index) (installSlot s (decoded i s).index) (filledSlot i s) := by
  cases i with
  | load a => simp only [requestRow, hl, filledSlot, newSlot, hda, if_true, writtenData, Instr.kind]
  | store a => simp only [requestRow, hl, hwa rfl, filledSlot, hda, if_true, writtenData, Instr.kind]

theorem slotAt_requestRow_installSlot (h : Inv s) (hr : Ready i.kind i.address s) (hda : s.params.dataArray = true)
    (hl : lookup (s.row (decoded i s).index) (decoded i s).tag = none)
    (hwa : i.kind = .store → s.cfg.writeAllocate = true) :
    slotAt (requestRow i s) (installSlot s (decoded i s).index) = filledSlot i s := by
  have hlt := installSlot_lt h (h.dims hr.1) (decoded i s).index
  rw [requestRow_of_install hda hl hwa, slotAt_installedRow (by rw [h.row_length]; exact hlt), if_pos rfl]

theorem requestRow_of_direct (hl : lookup (s.row (decoded i s).index) (decoded i s).tag = none)
    (hk : i.kind = .store) (hwa : s.cfg.writeAllocate = false) : requestRow i s = s.row (decoded i s).index := by
  cases i with
  | load a => cases hk
  | store a => simp only [requestRow, hl, hwa, Bool.false_eq_true, if_false]

/-! ### The byte seen after a request, path by path -/

variable (h : Inv s) (hr : Ready i.kind i.address s) (hda : s.params.dataArray = true)
include h hr hda

theorem servedByte_of_other_block {x : Address}
    (hx : ¬((decodeAddress s.cfg x).tag = (decoded i s).tag ∧ (decodeAddress s.cfg x).index = (decoded i s).index))
    (b : Byte) : servedByte i s.req x b = b := by
  cases i with
  | load a => rfl
  | store a => exact storedByte_of_other_block hr (h.dims hr.1) hda hx b

/-- The data row of the request's block, byte by byte. -/
theorem writtenData_getD {data : List Byte} (hlen : data.length = s.cfg.bytes) {x : Address}
    (htag : (decodeAddress s.cfg x).tag = (decoded i s).tag)
    (hindex : (decodeAddress s.cfg x).index = (decoded i s).index) :
    (writtenData i s data).getD (decodeAddress s.cfg x).offset 0#8 =
      servedByte i s.req x (data.getD (decodeAddress s.cfg x).offset 0#8) := by
  cases i with
  | load a => rfl
  | store a => exact put_byte hr (h.dims hr.1) hda hlen htag hindex

/-- A block that leaves the cache or is not in it: memory after the eviction holds the bytes seen (20_memory.md R78). -/
theorem read_memAfterEviction_eq_byteAt {x : Address} (hindex : (decodeAddress s.cfg x).index = (decoded i s).index)
    (hgone : ∀ v, lookup (s.row (decoded i s).index) (decodeAddress s.cfg x).tag = some v →
      v = installSlot s (decoded i s).index) :
    Memory.read (s.memAfterEviction (decoded i s).index) x = s.byteAt x := by
  have hd := h.dims hr.1
  have hi : (decoded i s).index < s.cfg.sets := decodeAddress_index_lt hd _
  rw [read_memAfterEviction h hd hi hda]
  cases hl : lookup (s.row (decoded i s).index) (decodeAddress s.cfg x).tag with
  | none =>
    rw [byteAt_of_absent (by rw [hindex]; exact hl), if_neg]
    rintro ⟨hdirty, htag, -⟩
    have hv := victimDirty_valid hdirty
    exact lookup_eq_none_iff_slotAt.1 hl _ (lt_of_valid hv) hv htag.symm
  | some v =>
    obtain rfl := hgone v hl
    obtain ⟨-, hv, ht, -⟩ := lookup_eq_some.1 hl
    rw [byteAt_of_lookup (by rw [hindex]; exact hl), hindex]
    by_cases hdirty : s.victimDirty (decoded i s).index = true
    · rw [if_pos ⟨hdirty, ht.symm, rfl⟩]
      rfl
    · rw [if_neg fun hc => hdirty hc.1]
      exact (data_getD_of_clean h hd hda hi hv (victim_clean_of_not_victimDirty h hi hv hdirty) ht.symm hindex).symm

variable {t : State} (hx : exec i s = .next t)
include hx

theorem byteAt_of_other_set {x : Address} (hindex : (decodeAddress s.cfg x).index ≠ (decoded i s).index) :
    t.byteAt x = servedByte i s.req x (s.byteAt x) := by
  obtain ⟨-, -, hothers, hmem, -, -, hcfg, -⟩ := next_cases h hx
  rw [servedByte_of_other_block h hr hda fun hc => hindex hc.2]
  simp only [State.byteAt, State.slot_def, hcfg, hothers _ hindex, hmem, requestMem_other h hr hda hindex]

variable {x : Address} (hindex : (decodeAddress s.cfg x).index = (decoded i s).index)
include hindex

omit hda hr in
theorem row_of_request_set : t.row (decodeAddress t.cfg x).index = requestRow i s := by
  obtain ⟨-, -, -, -, -, -, hcfg, -⟩ := next_cases h hx
  rw [exec_next_row h hx, hcfg, if_pos hindex]

omit hda in
/-- The byte seen in the request's set after it, where a slot of the row it leaves holds the block. -/
theorem byteAt_of_requestRow_slot {v : Nat} (hv : (slotAt (requestRow i s) v).valid = true)
    (ht : (slotAt (requestRow i s) v).tag = (decodeAddress s.cfg x).tag) :
    t.byteAt x = (slotAt (requestRow i s) v).data.getD (decodeAddress s.cfg x).offset 0#8 := by
  obtain ⟨-, -, -, -, -, -, hcfg, herr, -⟩ := next_cases h hx
  have hrow := row_of_request_set h hx hindex
  rw [byteAt_of_holds (exec_keeps_inv h hx) (herr.trans hr.1) (by rw [hrow]; exact hv) (by rw [hrow, hcfg]; exact ht),
    hrow, hcfg]

omit hda hr in
/-- The byte seen in the request's set after it, where no slot of the row it leaves holds the block. -/
theorem byteAt_of_requestRow_absent
    (hl : ∀ j < (s.row (decoded i s).index).length, (slotAt (requestRow i s) j).valid = true →
      (slotAt (requestRow i s) j).tag ≠ (decodeAddress s.cfg x).tag) :
    t.byteAt x = Memory.read (requestMem i s) x := by
  obtain ⟨hr, -, -, hmem, -, -, hcfg, -⟩ := next_cases h hx
  have hrow := row_of_request_set h hx hindex
  obtain ⟨n, hshape⟩ := requestRow_shape h hr
  rw [← hmem]
  refine byteAt_of_absent ?_
  rw [hrow, hcfg, lookup_eq_none_iff_slotAt, hshape.len, ← h.row_length (decoded i s).index]
  exact hl

theorem byteAt_of_hit {w : Nat} (hl : lookup (s.row (decoded i s).index) (decoded i s).tag = some w) :
    t.byteAt x = servedByte i s.req x (s.byteAt x) := by
  have hi : (decoded i s).index < s.cfg.sets := decodeAddress_index_lt (h.dims hr.1) _
  cases hlx : lookup (s.row (decoded i s).index) (decodeAddress s.cfg x).tag with
  | some v =>
    obtain ⟨hlt, hv, ht, -⟩ := lookup_eq_some.1 hlx
    obtain ⟨hv', ht', hdata⟩ := slotAt_requestRow_of_hit hda hl hlt
    rw [byteAt_of_requestRow_slot h hr hx hindex (hv'.trans hv) (ht'.trans ht), hdata,
      byteAt_of_lookup (by rw [hindex]; exact hlx), hindex]
    by_cases hvw : v = w
    · subst hvw
      have hblock : (decodeAddress s.cfg x).tag = (decoded i s).tag := ht.symm.trans (lookup_eq_some.1 hl).2.2.1
      rw [if_pos rfl, writtenData_getD h hr hda (data_length_of_valid h hda hi hv) hblock hindex]
    · rw [if_neg hvw, servedByte_of_other_block h hr hda]
      rintro ⟨hblock, -⟩
      rw [hblock, hl, Option.some_inj] at hlx
      exact hvw hlx.symm
  | none =>
    have hne : ¬((decodeAddress s.cfg x).tag = (decoded i s).tag ∧
        (decodeAddress s.cfg x).index = (decoded i s).index) := by
      rintro ⟨hblock, -⟩
      rw [hblock, hl] at hlx
      cases hlx
    rw [byteAt_of_requestRow_absent h hx hindex, read_requestMem_of_hit h hr hda hl,
      storedByte_of_other_block hr (h.dims hr.1) hda hne, ite_self, servedByte_of_other_block h hr hda hne,
      byteAt_of_absent (by rw [hindex]; exact hlx)]
    intro j hj hv ht
    obtain ⟨hv', ht', -⟩ := slotAt_requestRow_of_hit hda hl hj
    exact lookup_eq_none_iff_slotAt.1 hlx j hj (hv'.symm.trans hv) (ht'.symm.trans ht)

theorem byteAt_of_install (hl : lookup (s.row (decoded i s).index) (decoded i s).tag = none)
    (hwa : i.kind = .store → s.cfg.writeAllocate = true) :
    t.byteAt x = servedByte i s.req x (s.byteAt x) := by
  have hd := h.dims hr.1
  have hi : (decoded i s).index < s.cfg.sets := decodeAddress_index_lt hd _
  have hrow := requestRow_of_install hda hl hwa
  by_cases hkept : ∃ v, lookup (s.row (decoded i s).index) (decodeAddress s.cfg x).tag = some v ∧
      v ≠ installSlot s (decoded i s).index
  · obtain ⟨v, hlx, hvw⟩ := hkept
    obtain ⟨hlt, hv, ht, -⟩ := lookup_eq_some.1 hlx
    obtain ⟨hv', ht', hdata⟩ := slotAt_installedRow_seen (c := s.cfg) (x := filledSlot i s) hlt hvw
    rw [← hrow] at hv' ht' hdata
    rw [byteAt_of_requestRow_slot h hr hx hindex (hv'.trans hv) (ht'.trans ht), hdata,
      servedByte_of_other_block h hr hda, byteAt_of_lookup (by rw [hindex]; exact hlx), hindex]
    rintro ⟨hblock, -⟩
    rw [hblock, hl] at hlx
    cases hlx
  · have hgone : ∀ v, lookup (s.row (decoded i s).index) (decodeAddress s.cfg x).tag = some v →
        v = installSlot s (decoded i s).index := fun v hlx => by_contra fun hvw => hkept ⟨v, hlx, hvw⟩
    have hread := read_memAfterEviction_eq_byteAt h hr hda hindex hgone
    by_cases hblock : (decodeAddress s.cfg x).tag = (decoded i s).tag
    · have hslot := slotAt_requestRow_installSlot h hr hda hl hwa
      have hfilled := (data_eq_readBytes (m := s.memAfterEviction (decoded i s).index) hd
        (decodeAddress_tag_lt hd i.address) hi (Memory.readBytes_length _ _)).1 rfl x hblock hindex
      rw [byteAt_of_requestRow_slot h hr hx hindex (by rw [hslot]; rfl) (by rw [hslot]; exact hblock.symm), hslot,
        filledSlot, writtenData_getD h hr hda (Memory.readBytes_length _ _) hblock hindex, ← hread, ← hfilled]
      rfl
    · have hne : ¬((decodeAddress s.cfg x).tag = (decoded i s).tag ∧
          (decodeAddress s.cfg x).index = (decoded i s).index) := fun hc => hblock hc.1
      rw [byteAt_of_requestRow_absent h hx hindex, read_requestMem_of_install h hr hda hl hwa,
        storedByte_of_other_block hr hd hda hne, ite_self, servedByte_of_other_block h hr hda hne, hread]
      intro j hj hv ht
      rw [hrow] at hv ht
      by_cases hjw : j = installSlot s (decoded i s).index
      · rw [slotAt_installedRow hj, if_pos hjw] at ht
        exact hblock ht.symm
      · obtain ⟨hv', ht', -⟩ := slotAt_installedRow_seen (c := s.cfg) (x := filledSlot i s) hj hjw
        exact hjw (hgone j (lookup_of_holds h hi (hv'.symm.trans hv) (ht'.symm.trans ht)))

theorem byteAt_of_direct (hl : lookup (s.row (decoded i s).index) (decoded i s).tag = none)
    (hk : i.kind = .store) (hwa : s.cfg.writeAllocate = false) :
    t.byteAt x = servedByte i s.req x (s.byteAt x) := by
  have hrow := requestRow_of_direct hl hk hwa
  cases hlx : lookup (s.row (decoded i s).index) (decodeAddress s.cfg x).tag with
  | some v =>
    obtain ⟨-, hv, ht, -⟩ := lookup_eq_some.1 hlx
    rw [byteAt_of_requestRow_slot h hr hx hindex (by rw [hrow]; exact hv) (by rw [hrow]; exact ht), hrow,
      servedByte_of_other_block h hr hda, byteAt_of_lookup (by rw [hindex]; exact hlx), hindex]
    rintro ⟨hblock, -⟩
    rw [hblock, hl] at hlx
    cases hlx
  | none =>
    rw [byteAt_of_requestRow_absent h hx hindex (by rw [hrow]; exact lookup_eq_none_iff_slotAt.1 hlx),
      read_requestMem_of_direct h hr hda hl hk hwa, byteAt_of_absent (by rw [hindex]; exact hlx),
      servedByte_of_store hk]

end

/-- Served with the data array, a request changes the bytes seen by its own data only (20_memory.md R83). -/
theorem exec_byteAt {i : Instr} {s t : State} (h : Inv s) (hda : s.params.dataArray = true) (hx : exec i s = .next t)
    (x : Address) : t.byteAt x = servedByte i s.req x (s.byteAt x) := by
  obtain ⟨hr, hcase, -⟩ := next_cases h hx
  by_cases hindex : (decodeAddress s.cfg x).index = (decoded i s).index
  · rcases hcase with ⟨w, -, hl, -⟩ | ⟨hl, hwa, -⟩ | ⟨hl, hk, hwa, -⟩
    · exact byteAt_of_hit h hr hda hx hindex hl
    · exact byteAt_of_install h hr hda hx hindex hl hwa
    · exact byteAt_of_direct h hr hda hx hindex hl hk hwa
  · exact byteAt_of_other_set h hr hda hx hindex

/-! ### The data a LOAD answers with (20_memory.md R79) -/

/-- The slot a LOAD reads holds its block once it has run. -/
theorem loadSlot_holds {a : Address} {s : State} (h : Inv s) (hr : Ready .load a s) (hda : s.params.dataArray = true) :
    (slotAt (requestRow (.load a) s) (loadSlot a s)).valid = true ∧
      (slotAt (requestRow (.load a) s) (loadSlot a s)).tag = (decoded (.load a) s).tag := by
  have hd := h.dims hr.1
  have hi : (decoded (.load a) s).index < s.cfg.sets := decodeAddress_index_lt hd _
  cases hl : lookup (s.row (decoded (.load a) s).index) (decoded (.load a) s).tag with
  | some w =>
    obtain ⟨hw, hv, ht, -⟩ := lookup_eq_some.1 hl
    obtain ⟨hv', ht', -⟩ := slotAt_requestRow_of_hit hda hl hw
    have hslot : loadSlot a s = w := by rw [loadSlot, hl, Option.getD_some]
    rw [hslot]
    exact ⟨hv'.trans hv, ht'.trans ht⟩
  | none =>
    have hslot : loadSlot a s = installSlot s (decoded (.load a) s).index := by
      simp only [loadSlot, requestEffect, loadMiss, hl, Option.getD_none]
      rw [allocate_spec h hd hi, Option.getD_some]
    rw [hslot, slotAt_requestRow_installSlot (i := .load a) h hr hda hl (fun hk => by cases hk)]
    exact ⟨rfl, rfl⟩

/-- An address `k` bytes on in the same block has an offset `k` larger. -/
theorem decodeAddress_add {c : Cfg} (hd : Dims c) {a : Address} {k : Nat} (hk : a.toNat % c.bytes + k < c.bytes) :
    decodeAddress c (a + BitVec.ofNat 32 k) =
      { decodeAddress c a with offset := (decodeAddress c a).offset + k } := by
  have ha := toNat_eq_base_add_offset hd a
  have hb := base_bound hd (decodeAddress_tag_lt hd a) (decodeAddress_index_lt hd a)
  have hoffset := decodeAddress_offset hd a
  refine decode_in_block hd (decodeAddress_tag_lt hd a) (decodeAddress_index_lt hd a) (by omega) ?_
  bv_omega

theorem requestData_load {a : Address} {s : State} (h : Inv s) (hr : Ready .load a s) (hda : s.params.dataArray = true) :
    requestData (.load a) s =
      some (((slotAt (requestRow (.load a) s) (loadSlot a s)).data.drop (decoded (.load a) s).offset).take s.req.size) := by
  obtain ⟨honly, -, -, hrow⟩ := requestEffect_spec (i := .load a) h hr
  change (requestEffect (.load a) s).2.st.readData (decoded (.load a) s) (loadSlot a s) = _
  rw [State.readData, honly.params, if_pos hda, honly.req, State.slot_def, hrow, if_pos rfl]

/-- The bytes a LOAD answers with are those seen at its addresses. -/
theorem requestData_eq_bytesSeen {a : Address} {s t : State} (h : Inv s) (hda : s.params.dataArray = true)
    (hx : exec (.load a) s = .next t) :
    requestData (.load a) s = some ((List.range s.req.size).map fun k => s.byteAt (a + BitVec.ofNat 32 k)) := by
  obtain ⟨hr, -, -, -, -, hparams, hcfg, -⟩ := next_cases h hx
  replace hr : Ready .load a s := hr
  have hd := h.dims hr.1
  have hi : (decoded (.load a) s).index < s.cfg.sets := decodeAddress_index_lt hd _
  have hinside : a.toNat % s.cfg.bytes + s.req.size ≤ s.cfg.bytes := (hr.2 hda).2
  have hoffset : (decoded (.load a) s).offset = a.toNat % s.cfg.bytes := decodeAddress_offset hd a
  obtain ⟨hvalid, htag⟩ := loadSlot_holds h hr hda
  have hlen : (slotAt (requestRow (.load a) s) (loadSlot a s)).data.length = s.cfg.bytes := by
    have hrow : t.row (decoded (.load a) s).index = requestRow (.load a) s := by rw [exec_next_row h hx, if_pos rfl]
    rw [← hrow] at hvalid ⊢
    rw [data_length_of_valid (exec_keeps_inv h hx) (by rw [hparams]; exact hda) (by rw [hcfg]; exact hi) hvalid, hcfg]
  rw [requestData_load h hr hda, Option.some_inj]
  apply List.ext_getElem
  · simp only [List.length_take, List.length_drop, List.length_map, List.length_range]
    omega
  · intro k hk _
    have hk : k < s.req.size := by rw [List.length_take] at hk; omega
    have hdec : decodeAddress s.cfg (a + BitVec.ofNat 32 k) =
        { decoded (.load a) s with offset := (decoded (.load a) s).offset + k } := decodeAddress_add hd (by omega)
    have hseen : s.byteAt (a + BitVec.ofNat 32 k) =
        (slotAt (requestRow (.load a) s) (loadSlot a s)).data.getD ((decoded (.load a) s).offset + k) 0#8 := by
      rw [← show t.byteAt (a + BitVec.ofNat 32 k) = s.byteAt (a + BitVec.ofNat 32 k) from exec_byteAt h hda hx _,
        byteAt_of_requestRow_slot (i := .load a) h hr hx (by rw [hdec]) hvalid (by rw [hdec]; exact htag), hdec]
    rw [List.getElem_take, List.getElem_drop, List.getElem_map, List.getElem_range, hseen,
      List.getD_eq_getElem _ _ (by omega)]

/-! ### Runs of requests (20_memory.md R83) -/

theorem decodeReq_encode (i : Instr) : decodeReq (encode i) = i := by
  cases i with
  | load a =>
    have hopcode : (encode (.load a)).getLsbD 32 = false := by
      rw [getLsbD_encode_load, BitVec.getLsbD_of_ge _ _ le_rfl]
    obtain ⟨-, haddress, -⟩ := Laws.Opcode.load a
    rw [decodeReq, hopcode, haddress]
    rfl
  | store a =>
    have hopcode : (encode (.store a)).getLsbD 32 = true := by rw [getLsbD_encode_store]; rfl
    obtain ⟨-, haddress, -⟩ := Laws.Opcode.store a
    rw [decodeReq, hopcode, haddress]
    rfl

theorem requestsOf_cons (r : Instr × Sideband) (rs : List (Instr × Sideband)) :
    requestsOf (r :: rs) = .request (encode r.1) r.2 :: requestsOf rs := rfl

/-- The first request presented is what a step serves. -/
theorem step_of_requestsOf {s : State} {r : Instr × Sideband} {rs : List (Instr × Sideband)}
    (hp : s.pending = requestsOf (r :: rs)) : step s = exec r.1 ((s.popped (requestsOf rs)).latch r.2) := by
  rw [requestsOf_cons] at hp
  simp only [step, hp, decodeReq_encode]

theorem latestStored_cons (m0 : Address → Byte) (r : Instr × Sideband) (rs : List (Instr × Sideband)) (x : Address) :
    latestStored m0 (r :: rs) x = latestStored (fun y => servedByte r.1 r.2 y (m0 y)) rs x := by
  obtain ⟨i, sb⟩ := r
  cases i <;> rfl

/-- A run that goes on begins with a step to a next state. -/
theorem run_succ_next {n : Nat} {s t : State} (h : Host.Core.run core (n + 1) s = .next t) :
    ∃ s', step s = .next s' ∧ Host.Core.run core n s' = .next t := by
  simp only [Host.Core.run] at h
  split at h
  · exact ⟨_, ‹_›, h⟩
  · cases h
  · cases h

/-- A LOAD that gives a next state responds with the bytes seen at its addresses. -/
theorem exec_load_rdata {a : Address} {s t : State} (h : Inv s) (hda : s.params.dataArray = true)
    (hx : exec (.load a) s = .next t) :
    ∃ r, t.resp = some r ∧ r.rdata = some ((List.range s.req.size).map fun k => s.byteAt (a + BitVec.ofNat 32 k)) := by
  have hdata := requestData_eq_bytesSeen h hda hx
  obtain ⟨-, st, n, rfl, -⟩ := exec_next hx
  exact ⟨_, State.completed_resp .., hdata⟩

/-- A LOAD presented behind other requests returns what these stored, over the bytes seen before them. -/
theorem run_load_rdata {s t : State} {earlier : List (Instr × Sideband)} {a : Address} {sb : Sideband} (h : Inv s)
    (hda : s.params.dataArray = true) (hp : s.pending = requestsOf (earlier ++ [(.load a, sb)]))
    (hrun : Host.Core.run core (earlier.length + 1) s = .next t) :
    ∃ r, t.resp = some r ∧
      r.rdata = some ((List.range sb.size).map fun k => latestStored s.byteAt earlier (a + BitVec.ofNat 32 k)) := by
  induction earlier generalizing s with
  | nil =>
    obtain ⟨s', hstep, hrest⟩ := run_succ_next hrun
    cases hrest
    rw [step_of_requestsOf hp] at hstep
    exact exec_load_rdata ((h.popped (requestsOf [])).latch sb) hda hstep
  | cons r rs ih =>
    obtain ⟨s', hstep, hrest⟩ := run_succ_next hrun
    rw [step_of_requestsOf hp] at hstep
    have hinv := (h.popped (requestsOf (rs ++ [(.load a, sb)]))).latch r.2
    have hsetting := exec_sameSetting hstep
    have hbyte : s'.byteAt = fun y => servedByte r.1 r.2 y (s.byteAt y) := funext fun y =>
      exec_byteAt hinv hda hstep y
    simp only [latestStored_cons, ← hbyte]
    exact ih (exec_keeps_inv hinv hstep) (by rw [hsetting.params]; exact hda) hsetting.pending hrest

end Sys2Proof.Machine

/-! ### The statements -/

namespace Sys2Proof.Proofs

open Sys2Proof.Machine

/-- Settles O54: the LOAD's slot holds its block after the request, and a request changes the bytes seen by the data of a
STORE only. -/
theorem loadIsTransparent : Obligations.LoadIsTransparent := by
  unfold Obligations.LoadIsTransparent
  intro a s t h hda hx
  exact ⟨exec_load_rdata h hda hx, exec_byteAt h hda hx⟩

/-- Settles O55: the byte seen after a request, path by path, is that of its data at its own addresses. -/
theorem storeIsTransparent : Obligations.StoreIsTransparent := by
  unfold Obligations.StoreIsTransparent
  intro a s t h hda hx x
  exact exec_byteAt h hda hx x

/-- Settles O56, by induction on the earlier requests: each step changes the bytes seen as the record of latest stores says;
with an empty cache those before are memory's. -/
theorem runIsTransparent : Obligations.RunIsTransparent := by
  unfold Obligations.RunIsTransparent
  intro s t earlier a sb h hrows hda hp hrun
  have hbyte : s.byteAt = Memory.read s.mem := funext (byteAt_of_no_rows hrows)
  rw [← hbyte]
  exact run_load_rdata h hda hp hrun

end Sys2Proof.Proofs
end

section
/-! Proofs for spec/30_encoding.md: the request word REQ (R93, R94), the packed CFG (R100), the words of memory events
(R104), the text line (R97, R99), the snapshot (R108), and the step that serves a request (R110). -/

namespace Sys2Proof.Machine

/-! ### Fields of a word -/

/-- A bit of a word as a field of length one. -/
theorem ofBool_getLsbD {n : Nat} (w : BitVec n) (k : Nat) : BitVec.ofBool (w.getLsbD k) = w.extractLsb' k 1 := by
  ext j hj
  obtain rfl : j = 0 := by omega
  simp

/-! ### The request word -/

theorem decodeReq_of_opcode_load {w : ReqWord} (h : w.getLsbD 32 = false) : decodeReq w = .load (reqAddress w) := by
  rw [decodeReq, h]
  rfl

theorem decodeReq_of_opcode_store {w : ReqWord} (h : w.getLsbD 32 = true) : decodeReq w = .store (reqAddress w) := by
  rw [decodeReq, if_pos h]

/-- A request word is its opcode followed by its address (30_encoding.md R93). -/
theorem opcode_append_reqAddress (w : ReqWord) : BitVec.ofBool (w.getLsbD 32) ++ reqAddress w = w := by
  rw [ofBool_getLsbD]
  exact BitVec.extractLsb'_append_extractLsb'

theorem encode_decodeReq (w : ReqWord) : encode (decodeReq w) = w := by
  have hw := opcode_append_reqAddress w
  cases hopcode : w.getLsbD 32 with
  | false => rw [hopcode] at hw; rw [decodeReq_of_opcode_load hopcode]; exact hw
  | true => rw [hopcode] at hw; rw [decodeReq_of_opcode_store hopcode]; exact hw

/-- The word of a LOAD under the mask of the opcode table is LOAD's pattern (30_encoding.md R94). -/
theorem masked_of_decodeReq_load {w : ReqWord} {a : Address} (h : decodeReq w = .load a) :
    w &&& 0x100000000#33 = 0x000000000#33 := by
  obtain ⟨-, -, hmatch⟩ := Laws.Opcode.load a
  rw [← encode_decodeReq w, h]
  exact hmatch

/-- The word of a STORE under the mask of the opcode table is STORE's pattern (30_encoding.md R94). -/
theorem masked_of_decodeReq_store {w : ReqWord} {a : Address} (h : decodeReq w = .store a) :
    w &&& 0x100000000#33 = 0x100000000#33 := by
  obtain ⟨-, -, hmatch⟩ := Laws.Opcode.store a
  rw [← encode_decodeReq w, h]
  exact hmatch

/-! ### The packed CFG: one dimension and the policy -/

theorem log2_toNat_two_pow (e : Nat) : Nat.log2 ((2 : Int) ^ e).toNat = e := by
  rw [Int.toNat_pow_of_nonneg (by norm_num)]
  exact Nat.log2_two_pow

/-- A dimension can be packed exactly if it is a power of two with an exponent below 32. -/
theorem packableDimension_iff {n : Int} :
    isPowerOfTwo n = true ∧ Nat.log2 n.toNat < 32 ↔ ∃ e < 32, n = 2 ^ e := by
  constructor
  · rintro ⟨hpow, hlt⟩
    exact ⟨_, hlt, (of_decide_eq_true hpow).symm⟩
  · rintro ⟨e, hlt, rfl⟩
    rw [log2_toNat_two_pow]
    exact ⟨isPowerOfTwo_iff.2 ⟨e, rfl⟩, hlt⟩

theorem packable_iff {c : Cfg} :
    packable c = true ↔
      (∃ e < 32, c.numSets = 2 ^ e) ∧ (∃ e < 32, c.numBlocksPerSet = 2 ^ e) ∧ ∃ e < 32, c.blockSize = 2 ^ e := by
  simp only [← packableDimension_iff, packable, Bool.and_eq_true, decide_eq_true_eq]
  constructor
  · rintro ⟨⟨⟨⟨⟨hsets, hways⟩, hbytes⟩, hindex⟩, hway⟩, hoffset⟩
    exact ⟨⟨hsets, hindex⟩, ⟨hways, hway⟩, hbytes, hoffset⟩
  · rintro ⟨⟨hsets, hindex⟩, ⟨hways, hway⟩, hbytes, hoffset⟩
    exact ⟨⟨⟨⟨⟨hsets, hways⟩, hbytes⟩, hindex⟩, hway⟩, hoffset⟩

/-- The five-bit field of a dimension that can be packed gives the dimension back. -/
theorem two_pow_field {n : Int} (h : ∃ e < 32, n = 2 ^ e) : 2 ^ (BitVec.ofNat 5 (Nat.log2 n.toNat)).toNat = n := by
  obtain ⟨hpow, hlt⟩ := packableDimension_iff.2 h
  rw [BitVec.toNat_ofNat, Nat.mod_eq_of_lt hlt]
  exact of_decide_eq_true hpow

theorem packPolicy_unpackPolicy : ∀ p : BitVec 2, packPolicy (unpackPolicy p.toNat) = some p := by decide

theorem unpackPolicy_of_packPolicy {q : Policy} {p : BitVec 2} (h : packPolicy q = some p) :
    unpackPolicy p.toNat = q := by
  cases q <;> cases h <;> rfl

theorem packPolicy_eq_none_iff {q : Policy} : packPolicy q = none ↔ q = .invalid := by
  cases q <;> simp [packPolicy]

/-! ### The packed CFG: the word -/

/-- The packed CFG as the word of its six fields, the policy in the highest bits (30_encoding.md R100). -/
def packedWord (policy : BitVec 2) (writeThrough writeAllocate : Bool) (ways sets bytes : BitVec 5) : BitVec 19 :=
  policy ++ BitVec.ofBool writeThrough ++ BitVec.ofBool writeAllocate ++ ways ++ sets ++ bytes

theorem packCfg_eq {c : Cfg} (h : packable c = true) :
    packCfg c = (packPolicy c.evictionPolicy).map fun p =>
      packedWord p c.writeThrough c.writeAllocate (BitVec.ofNat 5 c.wayBits) (BitVec.ofNat 5 c.indexBits)
        (BitVec.ofNat 5 c.offsetBits) := by
  rw [packCfg, if_pos h]
  rfl

section
variable (policy : BitVec 2) (writeThrough writeAllocate : Bool) (ways sets bytes : BitVec 5)

theorem packedWord_bytes : (packedWord policy writeThrough writeAllocate ways sets bytes).extractLsb' 0 5 = bytes :=
  BitVec.extractLsb'_append_eq_right

theorem packedWord_sets : (packedWord policy writeThrough writeAllocate ways sets bytes).extractLsb' 5 5 = sets := by
  rw [packedWord, BitVec.extractLsb'_append_eq_of_le le_rfl]
  exact BitVec.extractLsb'_append_eq_right

theorem packedWord_ways : (packedWord policy writeThrough writeAllocate ways sets bytes).extractLsb' 10 5 = ways := by
  rw [packedWord, BitVec.extractLsb'_append_eq_of_le (by decide), BitVec.extractLsb'_append_eq_of_le le_rfl]
  exact BitVec.extractLsb'_append_eq_right

theorem packedWord_writeAllocate :
    (packedWord policy writeThrough writeAllocate ways sets bytes).getLsbD 15 = writeAllocate := by
  refine BitVec.ofBool_eq_iff_eq.1 ((ofBool_getLsbD _ _).trans ?_)
  rw [packedWord, BitVec.extractLsb'_append_eq_of_le (by decide), BitVec.extractLsb'_append_eq_of_le (by decide),
    BitVec.extractLsb'_append_eq_of_le (by decide)]
  exact BitVec.extractLsb'_append_eq_right

theorem packedWord_writeThrough :
    (packedWord policy writeThrough writeAllocate ways sets bytes).getLsbD 16 = writeThrough := by
  refine BitVec.ofBool_eq_iff_eq.1 ((ofBool_getLsbD _ _).trans ?_)
  rw [packedWord, BitVec.extractLsb'_append_eq_of_le (by decide), BitVec.extractLsb'_append_eq_of_le (by decide),
    BitVec.extractLsb'_append_eq_of_le (by decide), BitVec.extractLsb'_append_eq_of_le (by decide)]
  exact BitVec.extractLsb'_append_eq_right

theorem packedWord_policy :
    (packedWord policy writeThrough writeAllocate ways sets bytes).extractLsb' 17 2 = policy := by
  simp only [packedWord, BitVec.append_assoc, BitVec.cast_eq]
  exact BitVec.extractLsb'_append_eq_left

/-- What a word given by its fields unpacks to (30_encoding.md R100). -/
theorem unpackCfg_packedWord :
    unpackCfg (packedWord policy writeThrough writeAllocate ways sets bytes) =
      { numSets := 2 ^ sets.toNat, numBlocksPerSet := 2 ^ ways.toNat, blockSize := 2 ^ bytes.toNat,
        writeAllocate := writeAllocate, writeThrough := writeThrough, evictionPolicy := unpackPolicy policy.toNat } := by
  simp only [unpackCfg, packedWord_bytes, packedWord_sets, packedWord_ways, packedWord_writeAllocate,
    packedWord_writeThrough, packedWord_policy]

end

/-- A 19-bit word is the word of its six fields. -/
theorem packedWord_fields (w : BitVec 19) :
    packedWord (w.extractLsb' 17 2) (w.getLsbD 16) (w.getLsbD 15) (w.extractLsb' 10 5) (w.extractLsb' 5 5)
      (w.extractLsb' 0 5) = w := by
  simp only [packedWord, ofBool_getLsbD]
  rw [BitVec.extractLsb'_append_extractLsb'_eq_extractLsb' (rfl : 17 = 16 + 1),
    BitVec.extractLsb'_append_extractLsb'_eq_extractLsb' (rfl : 16 = 15 + 1),
    BitVec.extractLsb'_append_extractLsb'_eq_extractLsb' (rfl : 15 = 10 + 5),
    BitVec.extractLsb'_append_extractLsb'_eq_extractLsb' (rfl : 10 = 5 + 5),
    BitVec.extractLsb'_append_extractLsb'_eq_extractLsb' (rfl : 5 = 0 + 5)]
  exact BitVec.extractLsb'_eq_self

theorem unpackCfg_exponents (w : BitVec 19) :
    (unpackCfg w).wayBits = (w.extractLsb' 10 5).toNat ∧ (unpackCfg w).indexBits = (w.extractLsb' 5 5).toNat ∧
    (unpackCfg w).offsetBits = (w.extractLsb' 0 5).toNat :=
  ⟨log2_toNat_two_pow _, log2_toNat_two_pow _, log2_toNat_two_pow _⟩

theorem packable_unpackCfg (w : BitVec 19) : packable (unpackCfg w) = true :=
  packable_iff.2 ⟨⟨_, BitVec.isLt _, rfl⟩, ⟨_, BitVec.isLt _, rfl⟩, ⟨_, BitVec.isLt _, rfl⟩⟩

theorem packCfg_unpackCfg (w : BitVec 19) : packCfg (unpackCfg w) = some w := by
  obtain ⟨hways, hsets, hbytes⟩ := unpackCfg_exponents w
  have hpolicy : packPolicy (unpackCfg w).evictionPolicy = some (w.extractLsb' 17 2) := packPolicy_unpackPolicy _
  rw [packCfg_eq (packable_unpackCfg w), hpolicy, hways, hsets, hbytes]
  simp only [BitVec.ofNat_toNat, BitVec.setWidth_eq, Option.map_some]
  exact congrArg some (packedWord_fields w)

/-- A CFG that can be packed, with a policy that has a code, packs to a word that unpacks to it. -/
theorem unpackCfg_of_packable {c : Cfg} {p : BitVec 2} (h : packable c = true)
    (hp : packPolicy c.evictionPolicy = some p) : ∃ w, packCfg c = some w ∧ unpackCfg w = c := by
  obtain ⟨hsets, hways, hbytes⟩ := packable_iff.1 h
  refine ⟨_, by rw [packCfg_eq h, hp, Option.map_some], ?_⟩
  rw [unpackCfg_packedWord, unpackPolicy_of_packPolicy hp, Cfg.indexBits, Cfg.wayBits, Cfg.offsetBits, Cfg.sets, Cfg.ways,
    Cfg.bytes, two_pow_field hsets, two_pow_field hways, two_pow_field hbytes]

/-! ### The words of memory events -/

/-- The two-bit kind of a memory event's word (30_encoding.md R104). -/
def MemEvent.code : MemEvent → BitVec 2
  | .fill _ => 0#2
  | .writeback _ => 1#2
  | .write _ => 2#2

/-- The address of a memory event, bits 31:0 of its word (30_encoding.md R104). -/
def MemEvent.address : MemEvent → Address
  | .fill b => b
  | .writeback b => b
  | .write a => a

theorem MemEvent.toWord_eq (e : MemEvent) : e.toWord = e.code ++ e.address := by cases e <;> rfl

theorem MemEvent.toWord_code (e : MemEvent) : e.toWord.extractLsb' 32 2 = e.code := by
  rw [MemEvent.toWord_eq]
  exact BitVec.extractLsb'_append_eq_left

theorem MemEvent.toWord_address (e : MemEvent) : e.toWord.extractLsb' 0 32 = e.address := by
  rw [MemEvent.toWord_eq]
  exact BitVec.extractLsb'_append_eq_right

theorem eventOfWord_toWord (e : MemEvent) : eventOfWord e.toWord = some e := by
  rw [eventOfWord, MemEvent.toWord_code, MemEvent.toWord_address]
  cases e <;> rfl

theorem eventOfWord_of_code_three {w : BitVec 34} (h : w.extractLsb' 32 2 = 3#2) : eventOfWord w = none := by
  rw [eventOfWord, h]
  rfl

/-! ### The text line -/

theorem hexDigit_hexChar : ∀ d < 16, hexDigit (hexChar d) = some d := by decide

theorem hexChars_length (n v : Nat) : (hexChars n v).length = n := by
  induction n generalizing v with
  | zero => rfl
  | succ n ih => simp [hexChars, ih]

theorem hexDigit_of_mem_hexChars {n v : Nat} {c : Char} (h : c ∈ hexChars n v) : ∃ d, hexDigit c = some d := by
  induction n generalizing v with
  | zero => simp [hexChars] at h
  | succ n ih =>
    rcases List.mem_append.1 h with h | h
    · exact ih h
    · rw [List.mem_singleton.1 h]
      exact ⟨_, hexDigit_hexChar _ (Nat.mod_lt _ (by norm_num))⟩

/-- One more digit at the end. -/
theorem hexValue_concat {ds : List Char} {acc v : Nat} {c : Char} {d : Nat} (h : hexValue acc ds = some v)
    (hc : hexDigit c = some d) : hexValue acc (ds ++ [c]) = some (16 * v + d) := by
  induction ds generalizing acc with
  | nil =>
    cases h
    simp [hexValue, hc]
  | cons x ds ih =>
    cases hx : hexDigit x with
    | none => simp [hexValue, hx] at h
    | some e =>
      simp only [hexValue, hx] at h
      simp [hexValue, hx, ih h]

theorem hexValue_hexChars (n v : Nat) : hexValue 0 (hexChars n v) = some (v % 16 ^ n) := by
  induction n generalizing v with
  | zero => simp [hexChars, hexValue, Nat.mod_one]
  | succ n ih =>
    rw [hexChars, hexValue_concat (ih (v / 16)) (hexDigit_hexChar _ (Nat.mod_lt _ (by norm_num))), Nat.pow_succ',
      Nat.mod_mul, Nat.add_comm]

/-- An address field of one to eight digits (30_encoding.md R99). -/
theorem parseHex_of_hexValue {ds : List Char} {v : Nat} (hne : ds ≠ []) (hlen : ds.length ≤ 8)
    (hv : hexValue 0 ds = some v) (hlt : v < 2 ^ 32) : parseHex ('0' :: 'x' :: ds) = .ok (BitVec.ofNat 32 v) := by
  obtain ⟨c, cs, rfl⟩ := List.exists_cons_of_ne_nil hne
  simp only [parseHex, hv, if_neg (Nat.not_le.2 hlt), if_neg (Nat.not_lt.2 hlen)]

/-- The address field the model writes. -/
def addressField (a : Address) : List Char := '0' :: 'x' :: hexChars 8 a.toNat

theorem parseHex_addressField (a : Address) : parseHex (addressField a) = .ok a := by
  have hvalue : hexValue 0 (hexChars 8 a.toNat) = some a.toNat := by
    rw [hexValue_hexChars, Nat.mod_eq_of_lt (a.isLt.trans_eq (by norm_num))]
  have hlen : (hexChars 8 a.toNat).length = 8 := hexChars_length _ _
  rw [addressField, parseHex_of_hexValue (List.ne_nil_of_length_pos (by omega)) hlen.le hvalue a.isLt]
  simp

theorem isField_addressField (a : Address) : IsField (addressField a) := by
  have hmem : ∀ c, hexDigit c = none → c ∉ hexChars 8 a.toNat := fun c hc h => by
    obtain ⟨d, hd⟩ := hexDigit_of_mem_hexChars h
    rw [hc] at hd
    cases hd
  exact ⟨by simp [addressField], by simp [addressField, hmem ' ' (by decide)],
    by simp [addressField, hmem '\t' (by decide)]⟩

/-- The op token of a kind (30_encoding.md R97). -/
def opToken : Kind → List Char
  | .load => ['l']
  | .store => ['s']

theorem opKind_opToken (k : Kind) : opKind (opToken k) = some k := by cases k <;> rfl

theorem isField_opToken (k : Kind) : IsField (opToken k) := by cases k <;> decide

theorem instrOf_kind_address (i : Instr) : instrOf i.kind i.address = i := by cases i <;> rfl

theorem lineOf_eq_fieldsLine (i : Instr) : lineOf i = fieldsLine (opToken i.kind) [(0, addressField i.address)] := by
  cases i <;> simp [lineOf, fieldsLine, opToken, addressField, Instr.kind]

theorem lineOf_append_field (i : Instr) (field : List Char) :
    lineOf i ++ ' ' :: field = fieldsLine (opToken i.kind) [(0, addressField i.address), (0, field)] := by
  simp [lineOf_eq_fieldsLine, fieldsLine]

/-- The fields written for an operation read back as it, with at most one field more, which is ignored. -/
theorem parseLine_written (i : Instr) {more : List (Nat × List Char)} (hlen : more.length ≤ 1)
    (hmore : ∀ g ∈ more, IsField g.2) :
    parseLine (fieldsLine (opToken i.kind) ((0, addressField i.address) :: more)) = .ok i := by
  have hfields : ∀ g ∈ (0, addressField i.address) :: more, IsField g.2 :=
    List.forall_mem_cons.2 ⟨isField_addressField i.address, hmore⟩
  rw [parseLine_fields (isField_opToken _) hfields, opKind_opToken, parseHex_addressField]
  simp only [if_pos hlen, instrOf_kind_address]

/-! ### The step that serves a request -/

theorem step_of_request {s : State} {w : ReqWord} {sb : Sideband} {rest : List EnvEvent}
    (h : s.pending = .request w sb :: rest) : step s = exec (decodeReq w) ((s.popped rest).latch sb) := by
  simp only [step, h]

theorem step_of_idle {s : State} (h : s.pending = []) : step s = .next s := by simp only [step, h]

/-- A request word presented as a number of at least its 33 bits stands first in line (log 4, log 5). -/
theorem withFetchWord_toNat (s : State) {nbits : Nat} (h : 33 ≤ nbits) (w : ReqWord) :
    s.withFetchWord nbits w.toNat = { s with pending := .request w Sideband.oneByte :: s.pending } := by
  have hfits : w.toNat < 2 ^ nbits := w.isLt.trans_le (Nat.pow_le_pow_right (by norm_num) h)
  rw [State.withFetchWord, Nat.mod_eq_of_lt hfits, State.present, if_pos w.isLt, BitVec.ofNat_toNat, BitVec.setWidth_eq]

/-! ### The snapshot -/

theorem snapshot_of_no_error {s : State} (h : s.cfgError = none) :
    s.snapshot = some [s.stat.loadHits + s.stat.loadMisses, s.stat.storeHits + s.stat.storeMisses, s.stat.loadHits,
      s.stat.loadMisses, s.stat.storeHits, s.stat.storeMisses, s.stat.totalCycles] := by
  simp [State.snapshot, h, Stat.totalLoads, Stat.totalStores]

theorem snapshot_of_error {s : State} (h : s.cfgError ≠ none) : s.snapshot = none := by
  simp [State.snapshot, Option.isSome_iff_ne_none.2 h]

/-- Under ON_OVERFLOW = refuse `opCounter` bounds the two totals, which so do not wrap (10_state.md R37, R41). -/
theorem Inv.totals_toNat {s : State} (h : Inv s) (hr : s.params.onOverflow = .refuse) :
    s.stat.totalLoads.toNat = s.stat.loadHits.toNat + s.stat.loadMisses.toNat ∧
    s.stat.totalStores.toNat = s.stat.storeHits.toNat + s.stat.storeMisses.toNat := by
  have hcounted := h.counted hr
  have hbound := s.opCounter.isLt
  exact ⟨BitVec.toNat_add_of_lt (by omega), BitVec.toNat_add_of_lt (by omega)⟩

end Sys2Proof.Machine

/-! ### The statements -/

namespace Sys2Proof.Proofs

open Sys2Proof.Machine

/-- Settles O2: a word is its opcode followed by its address, and the opcode is the operation's kind. -/
theorem requestEncodingRoundTrip : Obligations.RequestEncodingRoundTrip := by
  unfold Obligations.RequestEncodingRoundTrip
  exact ⟨decodeReq_encode, encode_decodeReq⟩

/-- Settles O4: a packed word is the word of its six fields, and each field gives back its part of CFG. -/
theorem packedConfigRoundTrip : Obligations.PackedConfigRoundTrip := by
  unfold Obligations.PackedConfigRoundTrip
  refine ⟨packCfg_unpackCfg, fun c hsets hways hbytes => ?_⟩
  have hpackable : packable c = true := packable_iff.2 ⟨hsets, hways, hbytes⟩
  constructor
  · intro hvalid
    obtain ⟨p, hp⟩ := Option.ne_none_iff_exists'.1 (mt packPolicy_eq_none_iff.1 hvalid)
    exact unpackCfg_of_packable hpackable hp
  · intro hinvalid
    rw [packCfg_eq hpackable, packPolicy_eq_none_iff.2 hinvalid, Option.map_none]

/-- Settles O6: the line written is a line of fields, and each of them reads back. -/
theorem textLineRoundTrip : Obligations.TextLineRoundTrip := by
  unfold Obligations.TextLineRoundTrip
  intro i
  constructor
  · rw [lineOf_eq_fieldsLine]
    exact parseLine_written i (by simp) (by simp)
  · intro field hne hspace htab
    rw [lineOf_append_field]
    exact parseLine_written i (by simp) (by simpa using ⟨hne, hspace, htab⟩)

/-- Settles O1, by evaluating the decoder on the six words. -/
theorem requestWordsDecodeAsWritten : Obligations.RequestWordsDecodeAsWritten := by
  unfold Obligations.RequestWordsDecodeAsWritten
  decide

/-- Settles O3: the word of each operation shows its pattern under the mask, and every word is that of an operation. -/
theorem opcodePatternsSplitAllWords : Obligations.OpcodePatternsSplitAllWords := by
  unfold Obligations.OpcodePatternsSplitAllWords
  intro w
  cases hw : decodeReq w with
  | load a => simp [masked_of_decodeReq_load hw]
  | store a => simp [masked_of_decodeReq_store hw]

/-- Settles O5: the word of an event is its kind followed by its address. -/
theorem memoryEventWords : Obligations.MemoryEventWords := by
  unfold Obligations.MemoryEventWords
  exact ⟨fun b => ⟨(MemEvent.fill b).toWord_code, (MemEvent.fill b).toWord_address⟩,
    fun b => ⟨(MemEvent.writeback b).toWord_code, (MemEvent.writeback b).toWord_address⟩,
    fun a => ⟨(MemEvent.write a).toWord_code, (MemEvent.write a).toWord_address⟩,
    eventOfWord_toWord, fun _ => eventOfWord_of_code_three⟩

/-- Settles O20: the request first in line is what a step serves, and `withFetchWord` puts its word there. -/
theorem stepServesThePresentedRequest : Obligations.StepServesThePresentedRequest := by
  unfold Obligations.StepServesThePresentedRequest
  refine ⟨fun s w sb rest h => step_of_request h, fun s i sb rest h => ?_, fun s i nbits hn => ?_, fun s => step_of_idle⟩
  · rw [step_of_request h, decodeReq_encode]
    rfl
  · rw [withFetchWord_toNat s hn, step_of_request rfl, decodeReq_encode]
    rfl

/-- Settles O34: the invariant has `opCounter` as the sum of the four counters, so the two totals fit 64 bits. -/
theorem snapshotValues : Obligations.SnapshotValues := by
  unfold Obligations.SnapshotValues
  exact fun s => ⟨snapshot_of_no_error, snapshot_of_error, Inv.totals_toNat⟩

end Sys2Proof.Proofs
end

section
/-! Proofs for spec/40_address_decoder.md: DECODE in plain arithmetic (R120), one set (R121), the ranges (R123), the
recomposition (R124) and the corner cases (R126). -/

namespace Sys2Proof.Machine

theorem dims_of_legalCfg {c : Cfg} (h : legalCfg c = true) : Dims c := by
  obtain ⟨he, hb⟩ := legalCfg_iff.1 h
  exact dims_of_legal he hb

/-! ### One block: its base, its tag and its index (40_address_decoder.md R124) -/

/-- The shifted tag and the shifted index fit an address, so the block base is their OR with nothing cut off. -/
theorem recompose_toNat_eq_or {c : Cfg} (h : Dims c) {t : Tag} {i : Nat} (ht : t.toNat < 2 ^ c.tagBits)
    (hi : i < c.sets) :
    (recompose c t i).toNat = t.toNat <<< (c.offsetBits + c.indexBits) ||| i <<< c.offsetBits := by
  have htag : t.toNat <<< (c.offsetBits + c.indexBits) < 2 ^ 32 := by
    rw [Nat.shiftLeft_eq, ← h.span]
    exact Nat.mul_lt_mul_of_pos_right ht (by positivity)
  have hindex : i <<< c.offsetBits < 2 ^ 32 := calc
    i <<< c.offsetBits < 2 ^ c.indexBits * 2 ^ c.offsetBits := by
      rw [Nat.shiftLeft_eq]
      exact Nat.mul_lt_mul_of_pos_right (h.sets ▸ hi) (by positivity)
    _ = 2 ^ (c.offsetBits + c.indexBits) := by rw [pow_add, Nat.mul_comm]
    _ ≤ 2 ^ 32 := Nat.pow_le_pow_right (by norm_num) (h.total.trans (by norm_num))
  rw [recompose, BitVec.toNat_ofNat, Nat.mod_eq_of_lt (Nat.or_lt_two_pow htag hindex)]

/-- The bits of a block base below `offsetBits` are 0, so adding an offset sets bits only. -/
theorem recompose_or_offset {c : Cfg} (h : Dims c) {t : Tag} {i k : Nat} (ht : t.toNat < 2 ^ c.tagBits)
    (hi : i < c.sets) (hk : k < c.bytes) : (recompose c t i).toNat ||| k = (recompose c t i).toNat + k := by
  rw [recompose_toNat h ht hi, h.bytes, Nat.mul_comm, Nat.two_pow_add_eq_or_of_lt (h.bytes ▸ hk)]

theorem decodeAddress_recompose {c : Cfg} (h : Dims c) {t : Tag} {i : Nat} (ht : t.toNat < 2 ^ c.tagBits)
    (hi : i < c.sets) : decodeAddress c (recompose c t i) = { tag := t, index := i, offset := 0 } :=
  decode_in_block h ht hi h.bytes_pos rfl

theorem blockBase_recompose {c : Cfg} (h : Dims c) {t : Tag} {i : Nat} (ht : t.toNat < 2 ^ c.tagBits)
    (hi : i < c.sets) : blockBase c (recompose c t i) = recompose c t i := by
  rw [← recompose_decode h, decodeAddress_recompose h ht hi]

theorem decodeAddress_blockBase {c : Cfg} (h : Dims c) (a : Address) :
    decodeAddress c (blockBase c a) = { decodeAddress c a with offset := 0 } := by
  rw [← recompose_decode h, decodeAddress_recompose h (decodeAddress_tag_lt h a) (decodeAddress_index_lt h a)]

theorem blockBase_eq_iff {c : Cfg} (h : Dims c) (a b : Address) :
    blockBase c a = blockBase c b ↔
      (decodeAddress c a).index = (decodeAddress c b).index ∧ (decodeAddress c a).tag = (decodeAddress c b).tag := by
  constructor
  · intro hbase
    have hdecode := congrArg (decodeAddress c) hbase
    rw [decodeAddress_blockBase h, decodeAddress_blockBase h, Decoded.mk.injEq] at hdecode
    obtain ⟨htag, hindex, -⟩ := hdecode
    exact ⟨hindex, htag⟩
  · rintro ⟨hindex, htag⟩
    rw [← recompose_decode h a, ← recompose_decode h b, hindex, htag]

/-! ### Corner cases (40_address_decoder.md R121, R126) -/

theorem decodeAddress_zero (c : Cfg) : decodeAddress c 0#32 = { tag := 0#32, index := 0, offset := 0 } := by
  simp [decodeAddress]

/-- The last unit of the last of `m` groups of `n` units is the last unit of all. -/
theorem pred_mul_add_pred {m n : Nat} (hm : 0 < m) (hn : 0 < n) : (m - 1) * n + (n - 1) = m * n - 1 := by
  have hle : n ≤ m * n := Nat.le_mul_of_pos_left n hm
  rw [Nat.sub_one_mul]
  omega

theorem largestTag_toNat (c : Cfg) : (BitVec.ofNat 32 (2 ^ c.tagBits - 1)).toNat = 2 ^ c.tagBits - 1 := by
  have hbits : c.tagBits ≤ 32 := (Nat.sub_le _ _).trans (Nat.sub_le _ _)
  have hpow : 2 ^ c.tagBits ≤ 2 ^ 32 := Nat.pow_le_pow_right (by norm_num) hbits
  rw [BitVec.toNat_ofNat, Nat.mod_eq_of_lt (by omega)]

/-- The last address is the last byte of the block with the largest tag and the largest index. -/
theorem decodeAddress_allOnes {c : Cfg} (h : Dims c) :
    decodeAddress c 0xFFFFFFFF#32 =
      { tag := BitVec.ofNat 32 (2 ^ c.tagBits - 1), index := c.sets - 1, offset := c.bytes - 1 } := by
  have htags : 0 < 2 ^ c.tagBits := by positivity
  have ht : (BitVec.ofNat 32 (2 ^ c.tagBits - 1)).toNat < 2 ^ c.tagBits := by
    rw [largestTag_toNat]
    exact Nat.sub_one_lt_of_lt htags
  have hi : c.sets - 1 < c.sets := Nat.sub_one_lt_of_lt h.sets_pos
  have haddresses : 2 ^ c.tagBits * c.sets * c.bytes = 2 ^ 32 := by
    rw [← h.span, pow_add, h.sets, h.bytes, Nat.mul_assoc, Nat.mul_comm (2 ^ c.indexBits)]
  refine decode_in_block h ht hi (Nat.sub_one_lt_of_lt h.bytes_pos) ?_
  rw [recompose_toNat h ht hi, largestTag_toNat, pred_mul_add_pred htags h.sets_pos,
    pred_mul_add_pred (Nat.mul_pos htags h.sets_pos) h.bytes_pos, haddresses]
  rfl

theorem offsetBits_of_blockSize {c : Cfg} {e : Nat} (h : c.blockSize = 2 ^ e) : c.offsetBits = e := by
  rw [Cfg.offsetBits, Cfg.bytes, h, log2_toNat_two_pow]

theorem indexBits_of_one_set {c : Cfg} (h : c.numSets = 1) : c.indexBits = 0 := by
  rw [Cfg.indexBits, Cfg.sets, h]
  rfl

theorem decodeAddress_index_of_one_set {c : Cfg} (h : c.numSets = 1) (a : Address) : (decodeAddress c a).index = 0 := by
  simp [decodeAddress, indexBits_of_one_set h]

theorem decodeAddress_tag_of_one_set {c : Cfg} (h : c.numSets = 1) (a : Address) :
    (decodeAddress c a).tag.toNat = a.toNat >>> c.offsetBits := by
  rw [decodeAddress_tag, indexBits_of_one_set h, Nat.add_zero, Nat.shiftRight_eq_div_pow]

/-- At the largest legal split one bit of the address is left for the tag. -/
theorem decodeAddress_tag_of_largest_split {c : Cfg} (h : c.offsetBits + c.indexBits = 31) (a : Address) :
    (decodeAddress c a).tag.toNat = (a.getLsbD 31).toNat := by
  have hbit : a.toNat / 2 ^ 31 < 2 := by
    have := a.isLt
    omega
  rw [decodeAddress_tag, h, BitVec.getLsbD, Nat.toNat_testBit, Nat.mod_eq_of_lt hbit]

/-- Addresses that differ in offset bits only have one tag and one index. -/
theorem decodeAddress_of_same_block {c : Cfg} (h : Dims c) {a b : Address} (hab : a.toNat / c.bytes = b.toNat / c.bytes) :
    (decodeAddress c a).tag = (decodeAddress c b).tag ∧ (decodeAddress c a).index = (decodeAddress c b).index := by
  constructor
  · apply BitVec.eq_of_toNat_eq
    rw [decodeAddress_tag_div h, decodeAddress_tag_div h, hab]
  · rw [decodeAddress_index h, decodeAddress_index h, hab]

end Sys2Proof.Machine

/-! ### The statements -/

namespace Sys2Proof.Proofs

open Sys2Proof.Machine

/-- Settles O7: the dimensions of a legal CFG are powers of two, so shifts are divisions and masks are remainders. -/
theorem decodeAddressFields : Obligations.DecodeAddressFields := by
  unfold Obligations.DecodeAddressFields
  intro c a hc
  have h := dims_of_legalCfg hc
  refine ⟨decodeAddress_offset h a, decodeAddress_index h a, ?_⟩
  rw [decodeAddress_tag_div h, Nat.div_div_eq_div_mul]

/-- Settles O8: offset and index are remainders, and the tag is an address divided by all but `tagBits` of its bits. -/
theorem decodeAddressRanges : Obligations.DecodeAddressRanges := by
  unfold Obligations.DecodeAddressRanges
  intro c a hc
  have h := dims_of_legalCfg hc
  have htag := decodeAddress_tag_lt h a
  refine ⟨decodeAddress_offset_lt h a, decodeAddress_index_lt h a, htag, rfl, fun k hk => ?_⟩
  exact Nat.testBit_eq_false_of_lt (htag.trans_le (Nat.pow_le_pow_right (by norm_num) hk))

/-- Settles O9: a tag and an index in range recompose to the base of a block, and every address of it decodes to them. -/
theorem decodeAddressRecomposes : Obligations.DecodeAddressRecomposes := by
  unfold Obligations.DecodeAddressRecomposes
  intro c hc
  have h := dims_of_legalCfg hc
  refine ⟨fun a => ?_, fun t i ht hi => ⟨decodeAddress_recompose h ht hi, blockBase_recompose h ht hi⟩, blockBase_eq_iff h⟩
  have ht := decodeAddress_tag_lt h a
  have hi := decodeAddress_index_lt h a
  rw [← recompose_toNat_eq_or h ht hi, recompose_or_offset h ht hi (decodeAddress_offset_lt h a)]
  refine ⟨toNat_eq_base_add_offset h a, congrArg BitVec.toNat (recompose_decode h a).symm, recompose_decode h a, ?_⟩
  rw [blockBase_toNat h, Nat.div_mul_self_eq_mod_sub_self]

/-- Settles O10: the corner cases one by one; in (e) two addresses with one tag and one index have one block base. -/
theorem decodeAddressCorners : Obligations.DecodeAddressCorners := by
  unfold Obligations.DecodeAddressCorners
  intro c hc
  have h := dims_of_legalCfg hc
  refine ⟨decodeAddress_zero c, ?_, fun hbytes hsets => ?_, decodeAddress_tag_of_largest_split, fun a b hab => ?_⟩
  · rw [decodeAddress_allOnes h]
    exact ⟨rfl, rfl, largestTag_toNat c⟩
  · have hoffset : c.offsetBits = 2 := offsetBits_of_blockSize (e := 2) hbytes
    have hindex : c.indexBits = 0 := indexBits_of_one_set hsets
    refine ⟨by rw [Cfg.tagBits, hoffset, hindex], fun a => ?_⟩
    rw [decodeAddress_tag_of_one_set hsets, hoffset]
  · obtain ⟨htag, hindex⟩ := decodeAddress_of_same_block h hab
    exact ⟨htag, hindex, (blockBase_eq_iff h a b).2 ⟨hindex, htag⟩⟩

/-- Settles O11: one set leaves no bit for the index, so the tag begins right above the offset. -/
theorem oneSetDecode : Obligations.OneSetDecode := by
  unfold Obligations.OneSetDecode
  intro c a e hbytes _ hsets
  exact ⟨offsetBits_of_blockSize hbytes, decodeAddress_index_of_one_set hsets a, decodeAddress_tag_of_one_set hsets a⟩

end Sys2Proof.Proofs
end

section
/-! Proofs for spec/41_cache_store.md: LOOKUP (R141, R142), the free slot an install takes (R143), the tags after a
replacement (R151), and what no install does (R152). -/

namespace Sys2Proof.Machine

/-! ### LOOKUP (41_cache_store.md R141, R142) -/

theorem lookup_cons (sl : Slot) (row : List Slot) (t : Tag) :
    lookup (sl :: row) t = if sl.valid = true ∧ sl.tag = t then some 0 else (lookup row t).map (· + 1) := by
  simp [lookup, List.findIdx?_cons]

/-- LOOKUP reads nothing but `valid` and the tags of occupied slots. -/
theorem lookup_congr {row row' : List Slot} (t : Tag)
    (h : List.Forall₂ (fun x y => x.valid = y.valid ∧ (x.valid = true → x.tag = y.tag)) row row') :
    lookup row t = lookup row' t := by
  induction h with
  | nil => rfl
  | @cons x y _ _ hxy _ ih =>
    obtain ⟨hvalid, htag⟩ := hxy
    have hmatch : (x.valid = true ∧ x.tag = t) ↔ (y.valid = true ∧ y.tag = t) := by
      rw [← hvalid]
      exact and_congr_right fun hv => by rw [htag hv]
    rw [lookup_cons, lookup_cons, ih]
    simp only [hmatch]

/-! ### The free slot (41_cache_store.md R143) -/

/-- Some slot is free exactly while there are fewer blocks than slots. -/
theorem RowShape.exists_free_iff {c : Cfg} {row : List Slot} {n : Nat} (h : RowShape c row n) :
    (∃ w < c.ways, (slotAt row w).valid = false) ↔ n < c.ways := by
  rw [← h.len]
  constructor
  · rintro ⟨w, hw, hfree⟩
    have hnot : ¬w < n := fun hlt => by simp [(h.valid w hw).2 hlt] at hfree
    omega
  · intro hroom
    refine ⟨n, hroom, ?_⟩
    rw [← Bool.not_eq_true, h.valid n hroom]
    exact Nat.lt_irrefl n

/-- While the set has room the install takes slot `n_s`; with one way that is slot 0. -/
theorem installSlot_of_room {s : State} {i : Nat} (hroom : occupied (s.row i) < s.cfg.ways) :
    installSlot s i = occupied (s.row i) := by
  unfold installSlot
  split_ifs with hone
  · omega
  · rfl

/-! ### The row an install leaves -/

/-- Two slots with the same block in them: `dirty`, `accessSeq` and the data may differ (41_cache_store.md R152). -/
structure SameBlock (a b : Slot) : Prop where
  tag : b.tag = a.tag
  loadSeq : b.loadSeq = a.loadSeq
  valid : b.valid = a.valid

theorem SameBlock.refl (a : Slot) : SameBlock a a := ⟨rfl, rfl, rfl⟩

theorem SameBlock.aged (a : Slot) : SameBlock a a.aged := ⟨rfl, rfl, rfl⟩

/-- A map of the slots that keeps each block keeps them all, also past the end of the row. -/
theorem sameBlock_mapIdx {f : Nat → Slot → Slot} (hf : ∀ j sl, SameBlock sl (f j sl)) (row : List Slot) (j : Nat) :
    SameBlock (slotAt row j) (slotAt (row.mapIdx f) j) := by
  by_cases hj : j < row.length
  · rw [slotAt_mapIdx hj]
    exact hf j _
  · rw [slotAt_of_le (by omega), slotAt_of_le (by rw [List.length_mapIdx]; omega)]
    exact SameBlock.refl _

theorem ageFirst_sameBlock (n : Nat) (row : List Slot) (j : Nat) :
    SameBlock (slotAt row j) (slotAt (ageFirst n row) j) :=
  sameBlock_mapIdx (fun _ sl => by split; exacts [.aged sl, .refl sl]) row j

theorem ageYounger_sameBlock (w : Nat) (row : List Slot) (j : Nat) :
    SameBlock (slotAt row j) (slotAt (ageYounger w row) j) :=
  sameBlock_mapIdx (fun _ sl => by split; exacts [.aged sl, .refl sl]) row j

/-- `row'` is `row` with tag `t` installed in slot `w`, and in each other slot the block it had. -/
structure InstalledAt (row row' : List Slot) (w : Nat) (t : Tag) : Prop where
  new : w < row.length → (slotAt row' w).valid = true ∧ (slotAt row' w).tag = t
  others : ∀ j, j ≠ w → SameBlock (slotAt row j) (slotAt row' j)

/-- An install sets one slot of the row after its aging, which moves no block. -/
theorem installedAt_set {row aged : List Slot} (hlen : aged.length = row.length)
    (haged : ∀ j, SameBlock (slotAt row j) (slotAt aged j)) (w : Nat) {x : Slot} (hx : x.valid = true) :
    InstalledAt row (aged.set w x) w x.tag where
  new hw := by
    rw [slotAt_set, if_pos ⟨rfl, hlen ▸ hw⟩]
    exact ⟨hx, rfl⟩
  others j hj := by
    rw [slotAt_set, if_neg fun h => hj h.1]
    exact haged j

theorem InstalledAt.valid_of_valid {row row' : List Slot} {w : Nat} {t : Tag} (h : InstalledAt row row' w t) {j : Nat}
    (hj : (slotAt row j).valid = true) : (slotAt row' j).valid = true := by
  by_cases hjw : j = w
  · subst hjw
    exact (h.new (lt_of_valid hj)).1
  · rw [(h.others j hjw).valid, hj]

/-- LOOKUP finds the new tag in its slot: no other slot had it. -/
theorem InstalledAt.lookup_new {row row' : List Slot} {w : Nat} {t : Tag} (h : InstalledAt row row' w t)
    (hw : w < row.length) (ht : lookup row t = none) : lookup row' t = some w := by
  obtain ⟨hvalid, htag⟩ := h.new hw
  refine lookup_eq_some.2 ⟨lt_of_valid hvalid, hvalid, htag, fun j hj => ?_⟩
  rw [(h.others j hj.ne).valid, (h.others j hj.ne).tag]
  exact lookup_eq_none.1 ht _ (slotAt_mem (hj.trans hw))

/-- LOOKUP no longer finds the tag overwritten: it differs from the new one, and no other slot had it either. -/
theorem InstalledAt.lookup_old {row row' : List Slot} {w : Nat} {t : Tag} (h : InstalledAt row row' w t)
    (htags : (heldTags row).Nodup) (hw : (slotAt row w).valid = true) (ht : lookup row t = none) :
    lookup row' (slotAt row w).tag = none := by
  have hlt := lt_of_valid hw
  refine lookup_eq_none.2 fun sl hsl hold => ?_
  obtain ⟨j, hj, rfl⟩ := List.getElem_of_mem hsl
  rw [← slotAt_eq_getElem hj] at hold
  obtain ⟨hjvalid, hjtag⟩ := hold
  by_cases hjw : j = w
  · rw [hjw, (h.new hlt).2] at hjtag
    exact lookup_eq_none.1 ht _ (slotAt_mem hlt) ⟨hw, hjtag.symm⟩
  · rw [(h.others j hjw).valid] at hjvalid
    rw [(h.others j hjw).tag] at hjtag
    exact hjw (slot_injective htags hjvalid hw hjtag)

/-! ### What an install does, in any state whose slot array is in canonical form -/

/-- All that an install of tag `t` in slot `w` of set `i` may do (41_cache_store.md R140, R152). -/
structure InstallEffect (s : State) (i w : Nat) (t : Tag) (e : Effect) : Prop where
  slot : e.slot = some w
  row : InstalledAt (s.row i) (e.st.row i) w t
  otherRows : ∀ j, j ≠ i → e.st.row j = s.row j
  cost : e.cost = if e.wroteBack then evictionCost s.params.cost s.cfg else 0

theorem installFresh_installEffect {s : State} (h : Sparse.wf (freeRow s.cfg) s.rows = true) (i : Nat) (t : Tag)
    (k : Kind) : InstallEffect s i (occupied (s.row i)) t (installFresh s i t k) where
  slot := rfl
  row := by
    unfold installFresh
    simp only [State.row_setRow h, if_true]
    split
    · exact installedAt_set (ageFirst_length _ _) (ageFirst_sameBlock _ _) _ rfl
    · exact installedAt_set rfl (fun _ => .refl _) _ rfl
  otherRows j hj := by
    unfold installFresh
    simp only [State.row_setRow h, hj, if_false]
  cost := rfl

/-- A replacement installs in a state that differs from `s` in memory at most, by the write-back. -/
theorem replaceSlot_st (s : State) (i w : Nat) (t : Tag) (k : Kind) :
    ∃ s1 : State, s1.cfg = s.cfg ∧ s1.rows = s.rows ∧ (replaceSlot s i w t k).st =
      s1.setRow i ((if lruActive s.cfg then ageYounger w (s.row i) else s.row i).set w (s1.installedSlot i t k)) := by
  unfold replaceSlot
  dsimp only
  split
  · exact ⟨s.writeBack i _, State.writeBack_cfg .., State.writeBack_rows .., rfl⟩
  · exact ⟨s, rfl, rfl, rfl⟩

theorem replaceSlot_installEffect {s : State} (h : Sparse.wf (freeRow s.cfg) s.rows = true) (i w : Nat) (t : Tag)
    (k : Kind) : InstallEffect s i w t (replaceSlot s i w t k) := by
  obtain ⟨s1, hcfg, hrows, hst⟩ := replaceSlot_st s i w t k
  have hcanonical : Sparse.wf (freeRow s1.cfg) s1.rows = true := by rw [hcfg, hrows]; exact h
  have hs1 : ∀ j, s1.row j = s.row j := fun j => by rw [State.row, hcfg, hrows]; rfl
  refine ⟨rfl, ?_, fun j hj => by rw [hst, State.row_setRow hcanonical, if_neg hj, hs1], rfl⟩
  rw [hst, State.row_setRow hcanonical, if_pos rfl]
  split
  · exact installedAt_set (ageYounger_length _ _) (ageYounger_sameBlock _ _) _ rfl
  · exact installedAt_set rfl (fun _ => .refl _) _ rfl

/-- Whichever install ALLOCATE runs, it runs at `installSlot`. -/
theorem place_installEffect {s : State} (h : Sparse.wf (freeRow s.cfg) s.rows = true) (i : Nat) (t : Tag) (k : Kind) :
    InstallEffect s i (installSlot s i) t (place s i t k) := by
  unfold place installSlot
  split_ifs
  · exact replaceSlot_installEffect h ..
  · exact installFresh_installEffect h ..
  · exact replaceSlot_installEffect h ..
  · exact replaceSlot_installEffect h ..

theorem place_stat (s : State) (i : Nat) (t : Tag) (k : Kind) : (place s i t k).st.stat = s.stat :=
  (allocate_sameCounters s i t k).stat

end Sys2Proof.Machine

/-! ### The statements -/

namespace Sys2Proof.Proofs

open Sys2Proof.Machine

/-- Settles O36: LOOKUP is a search from slot 0 whose test reads `valid`, and the tag where occupied. -/
theorem lookupFindsTheTag : Obligations.LookupFindsTheTag := by
  unfold Obligations.LookupFindsTheTag
  exact ⟨fun _ _ _ => lookup_eq_some, fun _ _ => lookup_eq_none, fun _ _ => lookup_congr⟩

/-- Settles O37: the invariant keeps the occupied slots first, so the free ones begin at slot `n_s`. -/
theorem freeSlotTakenIsTheLowest : Obligations.FreeSlotTakenIsTheLowest := by
  unfold Obligations.FreeSlotTakenIsTheLowest
  intro s i t k h hi
  have hshape := h.rowShape hi
  have hlen := hshape.len
  refine ⟨hshape.exists_free_iff, fun hroom => ⟨?_, fun w hw => ?_, ?_⟩⟩
  · rw [State.slot_def, ← Bool.not_eq_true, hshape.valid _ (by omega)]
    exact Nat.lt_irrefl _
  · exact (hshape.valid w (by omega)).2 hw
  · rw [(place_installEffect h.rowsCanonical i t k).slot, installSlot_of_room hroom]

/-- Settles O38: the set holds no tag twice, so the tag overwritten stands in no other slot. -/
theorem replacedTagLeaves : Obligations.ReplacedTagLeaves := by
  unfold Obligations.ReplacedTagLeaves
  intro s i w t k h hi hw ht
  obtain ⟨-, -, -, htags, -, -⟩ := h.rowOk hi
  have hrow := (replaceSlot_installEffect h.rowsCanonical i w t k).row
  exact ⟨hrow.lookup_old htags hw ht, hrow.lookup_new (lt_of_valid hw) ht⟩

/-- Settles O39: an install sets one slot after an aging that moves no block, and its one charge is the write-back's. -/
theorem installsChangeOneBlock : Obligations.InstallsChangeOneBlock := by
  unfold Obligations.InstallsChangeOneBlock
  intro s i t k h _
  have hinstall := place_installEffect h.rowsCanonical i t k
  refine ⟨hinstall.otherRows, fun j w hw => ?_, fun w hw => ?_, place_stat s i t k, hinstall.cost⟩
  · by_cases hj : j = i
    · subst hj
      exact hinstall.row.valid_of_valid hw
    · rw [State.slot_def, hinstall.otherRows j hj]
      exact hw
  · have hne : w ≠ installSlot s i := fun heq => hw (by rw [hinstall.slot, heq])
    obtain ⟨htag, hloadSeq, hvalid⟩ := hinstall.row.others w hne
    exact ⟨htag, hloadSeq, hvalid⟩

end Sys2Proof.Proofs
end

section
/-! Proofs for spec/42_eviction_policy.md: TOUCH (R170), the victim scans (R173, R174, R176), the textbook orders the LRU and
FIFO paths follow (R175, R177, R178), direct-mapped sets (R179), and that only a full set loses a block (R182). -/

namespace Sys2Proof.Machine

/-! ### The blocks of a row and of the row a request leaves -/

/-- The blocks of a row in slots other than `w`. -/
def otherBlocks (row : List Slot) (w : Nat) : List Slot := occupiedSlots (row.eraseIdx w)

theorem otherBlocks_sublist (row : List Slot) (w : Nat) : (otherBlocks row w).Sublist (occupiedSlots row) :=
  (List.eraseIdx_sublist row w).filter _

/-- Whatever changes the slots without moving a block, then puts a block in slot `w`, leaves that block and the others. -/
theorem occupiedSlots_map_set_perm {row : List Slot} {w : Nat} {x : Slot} {g : Slot → Slot} (hw : w < row.length)
    (hx : x.valid = true) (hg : ∀ sl, (g sl).valid = sl.valid) :
    (occupiedSlots ((row.map g).set w x)).Perm (x :: (otherBlocks row w).map g) := by
  have hothers : occupiedSlots ((row.map g).eraseIdx w) = (otherBlocks row w).map g := by
    rw [List.eraseIdx_map, occupiedSlots, List.filter_map, otherBlocks, occupiedSlots]
    simp only [Function.comp_def, hg]
  have hset := (List.set_perm_cons_eraseIdx (l := row.map g) (by simpa using hw) x).filter fun sl => sl.valid
  rwa [List.filter_cons_of_pos hx, ← occupiedSlots, ← occupiedSlots, hothers] at hset

theorem occupiedSlots_perm_of_valid {row : List Slot} {w : Nat} (hv : (slotAt row w).valid = true) :
    (occupiedSlots row).Perm (slotAt row w :: otherBlocks row w) := by
  have hw := lt_of_valid hv
  have hrow := (List.getElem_cons_eraseIdx_perm hw).symm.filter fun sl => sl.valid
  rw [slotAt_eq_getElem hw] at hv ⊢
  rwa [List.filter_cons_of_pos hv] at hrow

theorem occupiedSlots_perm_of_free {row : List Slot} {w : Nat} (hw : w < row.length)
    (hv : (slotAt row w).valid = false) : (occupiedSlots row).Perm (otherBlocks row w) := by
  have hrow := (List.getElem_cons_eraseIdx_perm hw).symm.filter fun sl => sl.valid
  rw [slotAt_eq_getElem hw] at hv
  rwa [List.filter_cons_of_neg (by simp [hv])] at hrow

/-! ### The aging of TOUCH and of the installs, as one function of a slot -/

/-- A block with a rank below `b` one rank older (42_eviction_policy.md R170, R172): `b` is the touched block's rank at a
touch, above every rank at an install, and 0 where the LRU path is not active. -/
def ageBelow (b : Nat) (sl : Slot) : Slot := if sl.valid = true ∧ sl.accessSeq.toNat < b then sl.aged else sl

theorem ageBelow_sameBlock (b : Nat) (sl : Slot) : SameBlock sl (ageBelow b sl) := by
  unfold ageBelow
  split
  · exact .aged sl
  · exact .refl sl

@[simp] theorem ageBelow_valid (b : Nat) (sl : Slot) : (ageBelow b sl).valid = sl.valid := (ageBelow_sameBlock b sl).valid
@[simp] theorem ageBelow_tag (b : Nat) (sl : Slot) : (ageBelow b sl).tag = sl.tag := (ageBelow_sameBlock b sl).tag
@[simp] theorem ageBelow_loadSeq (b : Nat) (sl : Slot) : (ageBelow b sl).loadSeq = sl.loadSeq :=
  (ageBelow_sameBlock b sl).loadSeq

theorem ageBelow_zero (sl : Slot) : ageBelow 0 sl = sl := by simp [ageBelow]

theorem ageBelow_rank {b : Nat} {sl : Slot} (hv : sl.valid = true) (hb : sl.accessSeq.toNat < 2 ^ 31) :
    (ageBelow b sl).accessSeq.toNat = if sl.accessSeq.toNat < b then sl.accessSeq.toNat + 1 else sl.accessSeq.toNat := by
  unfold ageBelow
  simp only [hv, true_and]
  split
  · exact aged_toNat hb le_rfl
  · rfl

/-- The ranks a hit at slot `w` ages are those below this one. -/
def touchBound (c : Cfg) (row : List Slot) (w : Nat) : Nat := if lruActive c then (slotAt row w).accessSeq.toNat else 0

/-- The ranks an install ages are all, being below this number. -/
def installBound (c : Cfg) : Nat := if lruActive c then 2 ^ 32 else 0

theorem map_set_eq_mapIdx (row : List Slot) (g : Slot → Slot) (w : Nat) (x : Slot) :
    (row.map g).set w x = row.mapIdx fun j sl => if j = w then x else g sl := by
  apply List.ext_getElem (by simp)
  intro j _ _
  simp [List.getElem_set, eq_comm]

theorem touchedRow_set (i : Instr) (s : State) (w : Nat) (x : Slot) :
    (touchedRow i s w).set w x =
      ((s.row (decoded i s).index).map
        (ageBelow (touchBound s.cfg (s.row (decoded i s).index) w))).set w x := by
  unfold touchedRow touchBound
  split
  · rw [touchRow, mapIdx_set, map_set_eq_mapIdx]
    congr 1
    funext j sl
    split
    · rfl
    · simp [ageBelow, BitVec.lt_def]
  · rw [List.map_congr_left (fun sl _ => ageBelow_zero sl), List.map_id']

theorem installedRow_eq_set (c : Cfg) (row : List Slot) (w : Nat) (x : Slot) :
    installedRow c row w x = (row.map (ageBelow (installBound c))).set w x := by
  have hage : ∀ sl : Slot, (if lruActive c && sl.valid then sl.aged else sl) = ageBelow (installBound c) sl := by
    intro sl
    have := sl.accessSeq.isLt
    unfold ageBelow installBound
    cases lruActive c <;> simp [this]
  rw [map_set_eq_mapIdx, installedRow]
  simp only [hage]

/-! ### The textbook orders on lists of tags -/

theorem textbookLru_of_split {ways : Nat} {before after : List Tag} {t : Tag} (hnodup : (before ++ t :: after).Nodup)
    (hlen : (before ++ t :: after).length ≤ ways) :
    textbookLru ways (before ++ t :: after) t = t :: (before ++ after) := by
  have hbefore : t ∉ before := fun ht => (List.nodup_append.1 hnodup).2.2 t ht t (by simp) rfl
  rw [textbookLru, List.erase_append_right _ hbefore, List.erase_cons_head]
  apply List.take_of_length_le
  simp only [List.length_append, List.length_cons] at hlen ⊢
  omega

theorem textbookLru_of_room {ways : Nat} {order : List Tag} {t : Tag} (ht : t ∉ order) (hlen : order.length < ways) :
    textbookLru ways order t = t :: order := by
  rw [textbookLru, List.erase_of_not_mem ht]
  exact List.take_of_length_le hlen

theorem textbookLru_of_full {ways : Nat} {order : List Tag} {t last : Tag} (ht : t ∉ order ++ [last])
    (hlen : (order ++ [last]).length = ways) : textbookLru ways (order ++ [last]) t = t :: order := by
  rw [textbookLru, List.erase_of_not_mem ht, ← List.cons_append, ← hlen]
  exact List.take_left' (by simp)

theorem textbookFifo_of_mem {ways : Nat} {order : List Tag} {t : Tag} (ht : t ∈ order) :
    textbookFifo ways order t = order := if_pos ht

theorem textbookFifo_of_room {ways : Nat} {order : List Tag} {t : Tag} (ht : t ∉ order) (hlen : order.length < ways) :
    textbookFifo ways order t = order ++ [t] := by
  rw [textbookFifo, if_neg ht, Nat.sub_eq_zero_of_le hlen, List.drop_zero]

theorem textbookFifo_of_full {ways : Nat} {order : List Tag} {t first : Tag} (ht : t ∉ first :: order)
    (hlen : (first :: order).length = ways) : textbookFifo ways (first :: order) t = order ++ [t] := by
  rw [textbookFifo, if_neg ht, hlen, Nat.add_sub_cancel_left]
  rfl

/-! ### Rows listed by a key -/

theorem OrderedBy.perm_heldTags {key : Slot → Seq} {row : List Slot} {order : List Tag} (h : OrderedBy key row order) :
    order.Perm (heldTags row) := by
  obtain ⟨l, hperm, rfl, -⟩ := h
  exact hperm.map _

/-- The list of a row's blocks by ascending key, cut at one of them. -/
theorem OrderedBy.split {key : Slot → Seq} {row : List Slot} {order : List Tag} (h : OrderedBy key row order) {w : Nat}
    (hv : (slotAt row w).valid = true) :
    ∃ before after : List Slot, (before ++ after).Perm (otherBlocks row w) ∧
      order = before.map (fun sl => sl.tag) ++ (slotAt row w).tag :: after.map (fun sl => sl.tag) ∧
      (before ++ slotAt row w :: after).Pairwise fun a b => key a < key b := by
  obtain ⟨l, hperm, rfl, hsorted⟩ := h
  have hblocks := hperm.trans (occupiedSlots_perm_of_valid hv)
  obtain ⟨before, after, rfl⟩ := List.append_of_mem (hblocks.mem_iff.2 List.mem_cons_self)
  exact ⟨before, after, (List.perm_middle.symm.trans hblocks).cons_inv, by simp, hsorted⟩

section
variable {row : List Slot} {order : List Tag} {w b ways : Nat} {x : Slot}

/-! ### The LRU path (42_eviction_policy.md R170, R172, R175) -/

/-- The other blocks listed by rank, aged, behind a block that gets rank 0: aging keeps their order. -/
theorem orderedBy_front {l : List Slot} (hw : w < row.length) (hx : x.valid = true) (hrank : x.accessSeq = 0#32)
    (hl : l.Perm (otherBlocks row w)) (hsorted : l.Pairwise fun y z => y.accessSeq < z.accessSeq)
    (hbound : ∀ y ∈ l, y.accessSeq.toNat < 2 ^ 31 ∧ y.accessSeq.toNat ≠ b) :
    OrderedBy (fun sl => sl.accessSeq) ((row.map (ageBelow b)).set w x) (x.tag :: l.map fun sl => sl.tag) := by
  have haged : ∀ y ∈ l, (ageBelow b y).accessSeq.toNat =
      if y.accessSeq.toNat < b then y.accessSeq.toNat + 1 else y.accessSeq.toNat := fun y hy =>
    ageBelow_rank (mem_occupiedSlots.1 ((otherBlocks_sublist row w).subset (hl.subset hy))).2 (hbound y hy).1
  refine ⟨x :: l.map (ageBelow b), ((hl.map _).cons x).trans (occupiedSlots_map_set_perm hw hx (ageBelow_valid b)).symm,
    by simp, List.pairwise_cons.2 ⟨fun z hz => ?_, List.pairwise_map.2 (hsorted.imp_of_mem fun {y z} hy hz hyz => ?_)⟩⟩
  · obtain ⟨y, hy, rfl⟩ := List.mem_map.1 hz
    have := (hbound y hy).2
    simp only [BitVec.lt_def, haged y hy, hrank, BitVec.toNat_ofNat]
    split <;> omega
  · have := (hbound y hy).2
    have := (hbound z hz).2
    rw [BitVec.lt_def] at hyz ⊢
    rw [haged y hy, haged z hz]
    split_ifs <;> omega

theorem OrderedBy.lru_hit (h : OrderedBy (fun sl => sl.accessSeq) row order) (htags : (heldTags row).Nodup)
    (hranks : ∀ y ∈ occupiedSlots row, y.accessSeq.toNat < 2 ^ 31) (hlen : (occupiedSlots row).length ≤ ways)
    (hv : (slotAt row w).valid = true) (hx : x.valid = true) (htag : x.tag = (slotAt row w).tag)
    (hrank : x.accessSeq = 0#32) :
    OrderedBy (fun sl => sl.accessSeq) ((row.map (ageBelow (slotAt row w).accessSeq.toNat)).set w x)
      (textbookLru ways order x.tag) := by
  have hheld := h.perm_heldTags
  obtain ⟨before, after, hothers, rfl, hsorted⟩ := h.split hv
  rw [htag, textbookLru_of_split (hheld.nodup_iff.2 htags) (by rw [hheld.length_eq]; simpa [heldTags] using hlen),
    ← htag, ← List.map_append]
  rw [List.pairwise_append, List.pairwise_cons] at hsorted
  obtain ⟨hbefore, ⟨hv_after, hafter⟩, hcross⟩ := hsorted
  refine orderedBy_front (lt_of_valid hv) hx hrank hothers
    (List.pairwise_append.2 ⟨hbefore, hafter, fun y hy z hz => hcross y hy z (by simp [hz])⟩) fun y hy =>
      ⟨hranks y ((otherBlocks_sublist row w).subset (hothers.subset hy)), ?_⟩
  rcases List.mem_append.1 hy with hy | hy
  · exact (hcross y hy _ List.mem_cons_self).ne
  · exact (hv_after y hy).ne'

theorem OrderedBy.lru_room (h : OrderedBy (fun sl => sl.accessSeq) row order) (hw : w < row.length)
    (hfree : (slotAt row w).valid = false) (hranks : ∀ y ∈ occupiedSlots row, y.accessSeq.toNat < 2 ^ 31)
    (hlen : (occupiedSlots row).length < ways) (hx : x.valid = true) (htag : x.tag ∉ heldTags row)
    (hrank : x.accessSeq = 0#32) :
    OrderedBy (fun sl => sl.accessSeq) ((row.map (ageBelow (2 ^ 32))).set w x) (textbookLru ways order x.tag) := by
  have hheld := h.perm_heldTags
  rw [textbookLru_of_room (fun ht => htag (hheld.subset ht)) (by rw [hheld.length_eq]; simpa [heldTags] using hlen)]
  obtain ⟨l, hperm, rfl, hsorted⟩ := h
  refine orderedBy_front hw hx hrank (hperm.trans (occupiedSlots_perm_of_free hw hfree)) hsorted fun y hy => ?_
  have := hranks y (hperm.subset hy)
  omega

theorem OrderedBy.lru_full (h : OrderedBy (fun sl => sl.accessSeq) row order)
    (hranks : ∀ y ∈ occupiedSlots row, y.accessSeq.toNat < 2 ^ 31) (hlen : (occupiedSlots row).length = ways)
    (hv : (slotAt row w).valid = true) (hmax : ∀ y ∈ occupiedSlots row, y.accessSeq ≤ (slotAt row w).accessSeq)
    (hx : x.valid = true) (htag : x.tag ∉ heldTags row) (hrank : x.accessSeq = 0#32) :
    OrderedBy (fun sl => sl.accessSeq) ((row.map (ageBelow (2 ^ 32))).set w x) (textbookLru ways order x.tag) := by
  have hheld := h.perm_heldTags
  obtain ⟨before, after, hothers, rfl, hsorted⟩ := h.split hv
  have hold : ∀ y ∈ before ++ after, y ∈ occupiedSlots row := fun y hy =>
    (otherBlocks_sublist row w).subset (hothers.subset hy)
  rw [List.pairwise_append, List.pairwise_cons] at hsorted
  obtain ⟨hbefore, ⟨hv_after, -⟩, -⟩ := hsorted
  obtain rfl : after = [] := List.eq_nil_iff_forall_not_mem.2 fun y hy =>
    absurd (hv_after y hy) (BitVec.not_lt.2 (hmax y (hold y (by simp [hy]))))
  rw [List.append_nil] at hothers
  rw [List.map_nil] at hheld ⊢
  rw [textbookLru_of_full (fun ht => htag (hheld.subset ht)) (by rw [hheld.length_eq]; simpa [heldTags] using hlen)]
  refine orderedBy_front (lt_of_valid hv) hx hrank hothers hbefore fun y hy => ?_
  have := hranks y (hold y (by simpa using hy))
  omega

/-! ### The FIFO path (42_eviction_policy.md R177, R178) -/

/-- A slot that keeps its block in place keeps the list by install. -/
theorem OrderedBy.fifo_hit (h : OrderedBy (fun sl => sl.loadSeq) row order) (hv : (slotAt row w).valid = true)
    (hx : x.valid = true) (htag : x.tag = (slotAt row w).tag) (hseq : x.loadSeq = (slotAt row w).loadSeq) :
    OrderedBy (fun sl => sl.loadSeq) ((row.map (ageBelow b)).set w x) (textbookFifo ways order x.tag) := by
  obtain ⟨before, after, hothers, rfl, hsorted⟩ := h.split hv
  rw [textbookFifo_of_mem (by simp [htag])]
  refine ⟨before.map (ageBelow b) ++ x :: after.map (ageBelow b), ?_, by simp [htag, Function.comp_def], ?_⟩
  · refine List.perm_middle.trans (((List.map_append ▸ hothers.map _).cons x).trans ?_)
    exact (occupiedSlots_map_set_perm (lt_of_valid hv) hx (ageBelow_valid b)).symm
  · rw [← List.pairwise_map (f := fun sl : Slot => sl.loadSeq) (R := (· < ·))] at hsorted ⊢
    simpa [hseq, Function.comp_def] using hsorted

/-- The other blocks listed by install, before a block installed after them all. -/
theorem orderedBy_behind {l : List Slot} (hw : w < row.length) (hx : x.valid = true)
    (hl : l.Perm (otherBlocks row w)) (hsorted : l.Pairwise fun y z => y.loadSeq < z.loadSeq)
    (hlast : ∀ y ∈ l, y.loadSeq < x.loadSeq) :
    OrderedBy (fun sl => sl.loadSeq) ((row.map (ageBelow b)).set w x) ((l.map fun sl => sl.tag) ++ [x.tag]) := by
  refine ⟨l.map (ageBelow b) ++ [x], ?_, by simp, ?_⟩
  · refine (List.perm_append_singleton _ _).trans (((hl.map _).cons x).trans ?_)
    exact (occupiedSlots_map_set_perm hw hx (ageBelow_valid b)).symm
  · simpa [List.pairwise_append, List.pairwise_map] using ⟨hsorted, hlast⟩

theorem OrderedBy.fifo_room (h : OrderedBy (fun sl => sl.loadSeq) row order) (hw : w < row.length)
    (hfree : (slotAt row w).valid = false) (hlen : (occupiedSlots row).length < ways) (hx : x.valid = true)
    (htag : x.tag ∉ heldTags row) (hlast : ∀ y ∈ occupiedSlots row, y.loadSeq < x.loadSeq) :
    OrderedBy (fun sl => sl.loadSeq) ((row.map (ageBelow b)).set w x) (textbookFifo ways order x.tag) := by
  have hheld := h.perm_heldTags
  rw [textbookFifo_of_room (fun ht => htag (hheld.subset ht)) (by rw [hheld.length_eq]; simpa [heldTags] using hlen)]
  obtain ⟨l, hperm, rfl, hsorted⟩ := h
  exact orderedBy_behind hw hx (hperm.trans (occupiedSlots_perm_of_free hw hfree)) hsorted fun y hy =>
    hlast y (hperm.subset hy)

theorem OrderedBy.fifo_full (h : OrderedBy (fun sl => sl.loadSeq) row order) (hlen : (occupiedSlots row).length = ways)
    (hv : (slotAt row w).valid = true) (hmin : ∀ y ∈ occupiedSlots row, (slotAt row w).loadSeq ≤ y.loadSeq)
    (hx : x.valid = true) (htag : x.tag ∉ heldTags row) (hlast : ∀ y ∈ occupiedSlots row, y.loadSeq < x.loadSeq) :
    OrderedBy (fun sl => sl.loadSeq) ((row.map (ageBelow b)).set w x) (textbookFifo ways order x.tag) := by
  have hheld := h.perm_heldTags
  obtain ⟨before, after, hothers, rfl, hsorted⟩ := h.split hv
  have hold : ∀ y ∈ before ++ after, y ∈ occupiedSlots row := fun y hy =>
    (otherBlocks_sublist row w).subset (hothers.subset hy)
  rw [List.pairwise_append, List.pairwise_cons] at hsorted
  obtain ⟨-, ⟨-, hafter⟩, hcross⟩ := hsorted
  obtain rfl : before = [] := List.eq_nil_iff_forall_not_mem.2 fun y hy =>
    absurd (hcross y hy _ List.mem_cons_self) (BitVec.not_lt.2 (hmin y (hold y (by simp [hy]))))
  rw [List.nil_append] at hothers
  rw [List.map_nil, List.nil_append] at hheld ⊢
  rw [textbookFifo_of_full (fun ht => htag (hheld.subset ht)) (by rw [hheld.length_eq]; simpa [heldTags] using hlen)]
  exact orderedBy_behind (lt_of_valid hv) hx hothers hafter fun y hy => hlast y (hold y (by simpa using hy))

end

/-! ### The victim scans (42_eviction_policy.md R173, R176) -/

theorem victimLru_spec {row : List Slot} (h : row ≠ []) :
    victimLru row < row.length ∧
    (∀ j < row.length, (slotAt row j).accessSeq.toNat ≤ (slotAt row (victimLru row)).accessSeq.toNat) ∧
    ∀ j < victimLru row, (slotAt row j).accessSeq.toNat < (slotAt row (victimLru row)).accessSeq.toNat :=
  firstBest_spec (fun sl => sl.accessSeq.toNat) _ (fun _ _ => by simp [BitVec.lt_def]) h

/-- The scan for the smallest `loadSeq` is the scan for the largest distance to `2^32`. -/
theorem victimFifo_spec {row : List Slot} (h : row ≠ []) :
    victimFifo row < row.length ∧
    (∀ j < row.length, (slotAt row (victimFifo row)).loadSeq.toNat ≤ (slotAt row j).loadSeq.toNat) ∧
    ∀ j < victimFifo row, (slotAt row (victimFifo row)).loadSeq.toNat < (slotAt row j).loadSeq.toNat := by
  have hlt : ∀ x y : Slot,
      2 ^ 32 - x.loadSeq.toNat < 2 ^ 32 - y.loadSeq.toNat ↔ y.loadSeq.toNat < x.loadSeq.toNat := fun x y => by
    have := x.loadSeq.isLt
    have := y.loadSeq.isLt
    omega
  obtain ⟨hslot, hle, hfirst⟩ := firstBest_spec (fun sl => 2 ^ 32 - sl.loadSeq.toNat)
    (fun x b => decide (x.loadSeq < b.loadSeq)) (fun x b => by rw [decide_eq_true_eq, BitVec.lt_def, hlt]) h
  exact ⟨hslot, fun j hj => not_lt.1 fun hj' => not_lt.2 (hle j hj) ((hlt _ _).2 hj'), fun j hj => (hlt _ _).1 (hfirst j hj)⟩

/-- On the FIFO path the slot taken in a full set holds the oldest install; with one way it is the only slot. -/
theorem installSlot_oldest {s : State} (h : Inv s) {i : Nat} (hfifo : s.cfg.evictionPolicy = .fifo)
    (hfull : occupied (s.row i) = s.cfg.ways) {y : Slot} (hy : y ∈ occupiedSlots (s.row i)) :
    (slotAt (s.row i) (installSlot s i)).loadSeq ≤ y.loadSeq := by
  obtain ⟨j, hj, rfl⟩ := mem_row (mem_occupiedSlots.1 hy).1
  have hlen := h.row_length i
  have hslot : installSlot s i = if s.cfg.ways = 1 then 0 else victimFifo (s.row i) := by
    simp only [installSlot, hfull, hfifo, lt_self_iff_false, if_false, reduceCtorEq]
  rw [hslot]
  split
  · obtain rfl : j = 0 := by omega
    exact BitVec.le_refl _
  · exact (victimFifo_spec (List.ne_nil_of_length_pos (by omega))).2.1 j hj

/-- On the LRU path the slot taken in a full set has the largest rank. -/
theorem installSlot_leastRecent {s : State} (h : Inv s) (he : s.cfgError = none) (hlru : lruActive s.cfg = true) {i : Nat}
    (hi : i < s.cfg.sets) (hfull : occupied (s.row i) = s.cfg.ways) {y : Slot} (hy : y ∈ occupiedSlots (s.row i)) :
    y.accessSeq ≤ (slotAt (s.row i) (installSlot s i)).accessSeq := by
  obtain ⟨j, hj, rfl⟩ := mem_row (mem_occupiedSlots.1 hy).1
  rw [h.row_length] at hj
  rcases installSlot_cases h (h.dims he) hi with ⟨-, hroom, -⟩ | ⟨-, -, -, htop⟩
  · omega
  · by_cases hjw : j = installSlot s i
    · rw [hjw]; exact BitVec.le_refl _
    · exact BitVec.le_of_lt (BitVec.lt_def.2 (htop hlru j hj hjw))

/-! ### What a request does to its set, as one slot put over an aged row -/

/-- A hit at slot `w`, which then holds `x`. -/
structure ServedHit (s t : State) (o : OutcomeRecord) (w : Nat) (x : Slot) : Prop where
  row : t.row o.set = ((s.row o.set).map (ageBelow (touchBound s.cfg (s.row o.set) w))).set w x
  hit : o.hit = true
  noVictim : o.victimTag = none
  found : (slotAt (s.row o.set) w).valid = true ∧ (slotAt (s.row o.set) w).tag = o.tag
  valid : x.valid = true
  tag : x.tag = o.tag
  loadSeq : x.loadSeq = (slotAt (s.row o.set) w).loadSeq
  rank : lruActive s.cfg = true → x.accessSeq = 0#32

/-- A miss that installs `x`. -/
structure ServedInstall (i : Instr) (s t : State) (o : OutcomeRecord) (x : Slot) : Prop where
  hit : o.hit = false
  allocates : i.kind = .store → s.cfg.writeAllocate = true
  slot : o.slot = some (installSlot s o.set)
  victim : o.victimTag = if (s.victim o.set).valid then some (s.victim o.set).tag else none
  absent : o.tag ∉ heldTags (s.row o.set)
  valid : x.valid = true
  tag : x.tag = o.tag
  loadSeq : x.loadSeq = s.opCounter.setWidth 32
  rank : x.accessSeq = 0#32
  row : t.row o.set = ((s.row o.set).map (ageBelow (installBound s.cfg))).set (installSlot s o.set) x

/-- A STORE miss without write-allocate. -/
structure ServedDirect (i : Instr) (s t : State) (o : OutcomeRecord) : Prop where
  hit : o.hit = false
  store : i.kind = .store
  noAllocate : s.cfg.writeAllocate = false
  noVictim : o.victimTag = none
  row : t.row o.set = s.row o.set

theorem ServedInstall.not_direct {i : Instr} {s t : State} {o : OutcomeRecord} {x : Slot} (h : ServedInstall i s t o x) :
    ¬(o.hit = false ∧ i.kind = .store ∧ s.cfg.writeAllocate = false) := fun ⟨_, hstore, hno⟩ => by
  simp [h.allocates hstore] at hno

/-- Before operation `2^32` the new block's `loadSeq` is the counter itself (10_state.md R36). -/
theorem ServedInstall.loadSeq_toNat {i : Instr} {s t : State} {o : OutcomeRecord} {x : Slot} (h : ServedInstall i s t o x)
    (hops : s.opCounter.toNat < 2 ^ 32) : x.loadSeq.toNat = s.opCounter.toNat := by
  rw [h.loadSeq, BitVec.toNat_setWidth, Nat.mod_eq_of_lt hops]

/-- All that a request does to the rows, in the words of its outcome record. -/
theorem served_cases {i : Instr} {s t : State} {o : OutcomeRecord} (h : Inv s) (hx : exec i s = .next t)
    (ho : t.outcome = some o) :
    s.cfgError = none ∧ o.set < s.cfg.sets ∧ (∀ j, j ≠ o.set → t.row j = s.row j) ∧
    ((∃ w x, ServedHit s t o w x) ∨ (∃ x, ServedInstall i s t o x) ∨ ServedDirect i s t o) := by
  obtain ⟨hready, hcase, hothers, -⟩ := next_cases h hx
  have hset : o.set = (decoded i s).index ∧ o.tag = (decoded i s).tag := by
    obtain ⟨-, st, n, rfl, -⟩ := exec_next hx
    rw [State.completed_outcome, Option.some_inj] at ho
    subst ho
    exact ⟨rfl, rfl⟩
  obtain ⟨hset, htag⟩ := hset
  rw [← hset] at hothers
  refine ⟨hready.1, hset ▸ decodeAddress_index_lt (h.dims hready.1) _, hothers, ?_⟩
  rcases hcase with ⟨w, dat, hl, hout, hrow⟩ | ⟨hl, hwa, hout, x, hv, hxtag, hrank, hseq, -, hrow⟩ |
    ⟨-, hk, hwa, hout, hrow⟩ <;> rw [hout, Option.some_inj] at ho <;> subst ho
  · obtain ⟨-, hwv, hwt, -⟩ := lookup_eq_some.1 hl
    exact .inl ⟨w, _, hrow.trans (touchedRow_set ..), rfl, rfl, ⟨hwv, hwt⟩, hwv, hwt, rfl, fun hlru => if_pos hlru⟩
  · exact .inr (.inl ⟨x, rfl, hwa, rfl, rfl, lookup_eq_none_iff_heldTags.1 hl, hv, hxtag, hseq, hrank,
      hrow.trans (installedRow_eq_set ..)⟩)
  · exact .inr (.inr ⟨rfl, hk, hwa, rfl, hrow⟩)

theorem Inv.heldTags_nodup {s : State} (h : Inv s) {i : Nat} (hi : i < s.cfg.sets) : (heldTags (s.row i)).Nodup := by
  obtain ⟨-, -, -, htags, -⟩ := h.rowOk hi
  exact htags

/-- On the LRU path every rank is far below the `u32` bound (42_eviction_policy.md R183). -/
theorem Inv.rank_lt_two_pow {s : State} (h : Inv s) (he : s.cfgError = none) (hlru : lruActive s.cfg = true) {i : Nat}
    (hi : i < s.cfg.sets) {y : Slot} (hy : y ∈ occupiedSlots (s.row i)) : y.accessSeq.toNat < 2 ^ 31 := by
  obtain ⟨-, -, -, -, hdense, -⟩ := h.rowOk hi
  have hle := h.occupied_le he i
  rw [occupied_eq_length] at hle
  exact (rank_lt (hdense hlru) hy).trans_le hle

theorem exec_lru_order {i : Instr} {s t : State} {o : OutcomeRecord} {order : List Tag} (h : Inv s)
    (hlru : lruActive s.cfg = true) (hx : exec i s = .next t) (ho : t.outcome = some o)
    (horder : OrderedBy (fun sl => sl.accessSeq) (s.row o.set) order) :
    OrderedBy (fun sl => sl.accessSeq) (t.row o.set)
      (if o.hit = false ∧ i.kind = .store ∧ s.cfg.writeAllocate = false then order
       else textbookLru s.cfg.ways order o.tag) := by
  obtain ⟨he, hi, -, hcase⟩ := served_cases h hx ho
  have hranks := fun y hy => h.rank_lt_two_pow he hlru hi (y := y) hy
  have hlen := h.row_length o.set
  have hcount := occupied_eq_length (s.row o.set)
  rcases hcase with ⟨w, x, hhit⟩ | ⟨x, hinst⟩ | hdirect
  · rw [if_neg (by simp [hhit.hit]), hhit.row, ← hhit.tag, touchBound, if_pos hlru]
    exact horder.lru_hit (h.heldTags_nodup hi) hranks (hlen ▸ occupiedSlots_length_le _) hhit.found.1 hhit.valid
      (hhit.tag.trans hhit.found.2.symm) (hhit.rank hlru)
  · rw [if_neg hinst.not_direct, hinst.row, ← hinst.tag, installBound, if_pos hlru]
    have habsent := hinst.tag ▸ hinst.absent
    rcases installSlot_cases h (h.dims he) hi with ⟨hslot, hroom, hfree⟩ | ⟨hfull, -, hv, -⟩
    · exact horder.lru_room (by omega) hfree hranks (hcount ▸ hroom) hinst.valid habsent hinst.rank
    · exact horder.lru_full hranks (hcount ▸ hfull) hv (fun y => installSlot_leastRecent h he hlru hi hfull) hinst.valid
        habsent hinst.rank
  · rw [if_pos ⟨hdirect.hit, hdirect.store, hdirect.noAllocate⟩, hdirect.row]
    exact horder

/-! ### `loadSeq` (42_eviction_policy.md R177) -/

/-- The blocks of a row have distinct `loadSeq`, all below `n`. -/
def FreshBelow (n : Nat) (row : List Slot) : Prop :=
  ((occupiedSlots row).map fun sl => sl.loadSeq).Nodup ∧ ∀ sl ∈ occupiedSlots row, sl.loadSeq.toNat < n

theorem FreshBelow.mono {m n : Nat} {row : List Slot} (h : FreshBelow m row) (hmn : m ≤ n) : FreshBelow n row :=
  ⟨h.1, fun sl hsl => (h.2 sl hsl).trans_le hmn⟩

/-- A block put over an aged row: distinct from the other blocks and below the number, it leaves the row fresh. -/
theorem freshBelow_map_set {n b w : Nat} {row : List Slot} {x : Slot} (hw : w < row.length) (hx : x.valid = true)
    (hothers : FreshBelow n row) (hnew : ∀ y ∈ otherBlocks row w, x.loadSeq ≠ y.loadSeq) (hlt : x.loadSeq.toNat < n) :
    FreshBelow n ((row.map (ageBelow b)).set w x) := by
  obtain ⟨hnodup, hbelow⟩ := hothers
  have hperm := occupiedSlots_map_set_perm hw hx (ageBelow_valid b)
  have hsub := otherBlocks_sublist row w
  constructor
  · rw [(hperm.map _).nodup_iff, List.map_cons, List.map_map, List.nodup_cons]
    simp only [Function.comp_def, ageBelow_loadSeq, List.mem_map, not_exists, not_and]
    exact ⟨fun y hy heq => hnew y hy heq.symm, hnodup.sublist (hsub.map _)⟩
  · intro y hy
    rcases List.mem_cons.1 (hperm.subset hy) with rfl | hy
    · exact hlt
    · obtain ⟨z, hz, rfl⟩ := List.mem_map.1 hy
      rw [ageBelow_loadSeq]
      exact hbelow z (hsub.subset hz)

/-- The premise on the listed rows, as one on the row of every set: a row not listed has no block. -/
theorem loadSeqFresh_iff {s : State} (h : Sparse.wf (freeRow s.cfg) s.rows = true) :
    LoadSeqFresh s ↔ (s.opCounter.toNat ≤ 2 ^ 32 → ∀ i, FreshBelow s.opCounter.toNat (s.row i)) := by
  refine forall_congr' fun _ => ⟨fun hrows i => ?_, fun hrows e he => ?_⟩
  · rcases Sparse.read_cases (dflt := freeRow s.cfg) s.rows i with hr | hr
    · exact hrows _ hr
    · rw [State.row, hr]
      simp [FreshBelow]
  · have := hrows e.1
    rwa [State.row, Sparse.read_of_mem h he] at this

theorem exec_fifo_order {i : Instr} {s t : State} {o : OutcomeRecord} {order : List Tag} (h : Inv s)
    (hfresh : LoadSeqFresh s) (hfifo : s.cfg.evictionPolicy = .fifo) (hops : s.opCounter.toNat < 2 ^ 32)
    (hx : exec i s = .next t) (ho : t.outcome = some o)
    (horder : OrderedBy (fun sl => sl.loadSeq) (s.row o.set) order) :
    OrderedBy (fun sl => sl.loadSeq) (t.row o.set)
      (if o.hit = false ∧ i.kind = .store ∧ s.cfg.writeAllocate = false then order
       else textbookFifo s.cfg.ways order o.tag) := by
  obtain ⟨he, hi, -, hcase⟩ := served_cases h hx ho
  obtain ⟨-, hbelow⟩ := (loadSeqFresh_iff h.rowsCanonical).1 hfresh hops.le o.set
  have hlen := h.row_length o.set
  have hcount := occupied_eq_length (s.row o.set)
  rcases hcase with ⟨w, x, hhit⟩ | ⟨x, hinst⟩ | hdirect
  · rw [if_neg (by simp [hhit.hit]), hhit.row, ← hhit.tag]
    exact horder.fifo_hit hhit.found.1 hhit.valid (hhit.tag.trans hhit.found.2.symm) hhit.loadSeq
  · rw [if_neg hinst.not_direct, hinst.row, ← hinst.tag]
    have habsent := hinst.tag ▸ hinst.absent
    have hlast : ∀ y ∈ occupiedSlots (s.row o.set), y.loadSeq < x.loadSeq := fun y hy => by
      rw [BitVec.lt_def, hinst.loadSeq_toNat hops]
      exact hbelow y hy
    rcases installSlot_cases h (h.dims he) hi with ⟨hslot, hroom, hfree⟩ | ⟨hfull, -, hv, -⟩
    · exact horder.fifo_room (by omega) hfree (hcount ▸ hroom) hinst.valid habsent hlast
    · exact horder.fifo_full (hcount ▸ hfull) hv (fun y => installSlot_oldest h hfifo hfull) hinst.valid habsent hlast
  · rw [if_pos ⟨hdirect.hit, hdirect.store, hdirect.noAllocate⟩, hdirect.row]
    exact horder

theorem ServedHit.freshBelow {n : Nat} {s t : State} {o : OutcomeRecord} {w : Nat} {x : Slot} (h : ServedHit s t o w x)
    (hfresh : FreshBelow n (s.row o.set)) : FreshBelow n (t.row o.set) := by
  have hblocks := occupiedSlots_perm_of_valid h.found.1
  rw [h.row]
  refine freshBelow_map_set (lt_of_valid h.found.1) h.valid hfresh (fun y hy heq => ?_) ?_
  · have hnodup := (hblocks.map fun sl => sl.loadSeq).nodup_iff.1 hfresh.1
    rw [List.map_cons, List.nodup_cons, ← h.loadSeq] at hnodup
    exact hnodup.1 (List.mem_map.2 ⟨y, hy, heq.symm⟩)
  · rw [h.loadSeq]
    exact hfresh.2 _ (hblocks.symm.subset List.mem_cons_self)

theorem ServedInstall.freshBelow {i : Instr} {s t : State} {o : OutcomeRecord} {x : Slot} (h : ServedInstall i s t o x)
    (hslot : installSlot s o.set < (s.row o.set).length) (hops : s.opCounter.toNat < 2 ^ 32)
    (hfresh : FreshBelow s.opCounter.toNat (s.row o.set)) : FreshBelow (s.opCounter.toNat + 1) (t.row o.set) := by
  have hseq := h.loadSeq_toNat hops
  rw [h.row]
  refine freshBelow_map_set hslot h.valid (hfresh.mono (Nat.le_succ _)) (fun y hy heq => ?_) (by omega)
  have := hfresh.2 y ((otherBlocks_sublist _ _).subset hy)
  rw [← heq] at this
  omega

/-- A request keeps the premise of the FIFO order: a hit leaves every `loadSeq`, an install takes one above them all. -/
theorem exec_keeps_loadSeqFresh {i : Instr} {s t : State} (h : Inv s) (hfresh : LoadSeqFresh s)
    (hov : s.params.onOverflow = .refuse) (hx : exec i s = .next t) : LoadSeqFresh t := by
  obtain ⟨-, -, -, -, -, -, -, -, -, -, r, o, hresp, ho, -⟩ := next_cases h hx
  obtain ⟨-, hop⟩ := exec_next_counters hov hx hresp
  obtain ⟨he, -, hothers, hcase⟩ := served_cases h hx ho
  rw [loadSeqFresh_iff (exec_rowsCanonical h.rowsCanonical hx), hop]
  intro hops j
  have hrows := (loadSeqFresh_iff h.rowsCanonical).1 hfresh (by omega)
  by_cases hj : j = o.set
  · subst hj
    rcases hcase with ⟨w, x, hhit⟩ | ⟨x, hinst⟩ | hdirect
    · exact hhit.freshBelow ((hrows _).mono (Nat.le_succ _))
    · exact hinst.freshBelow (h.row_length _ ▸ installSlot_lt h (h.dims he) _) (by omega) (hrows _)
    · rw [hdirect.row]
      exact (hrows _).mono (Nat.le_succ _)
  · rw [hothers j hj]
    exact (hrows j).mono (Nat.le_succ _)

/-! ### The ranks of a full set (42_eviction_policy.md R174) -/

/-- In a full set the LRU victim has the last of the ranks `0 .. n - 1`, since it has the largest and no other slot has it. -/
theorem victimLru_rank {row : List Slot} {n : Nat} (hranks : (ranks row).Perm (List.range n))
    (hfull : (occupiedSlots row).length = n) (hlen : row.length = n) (hn : 0 < n) :
    (slotAt row (victimLru row)).accessSeq.toNat = n - 1 ∧
    ∀ j < n, j ≠ victimLru row → (slotAt row j).accessSeq.toNat < n - 1 := by
  have hdense : (ranks row).Perm (List.range (occupied row)) := by rwa [occupied_eq_length, hfull]
  have hne : row ≠ [] := List.ne_nil_of_length_pos (by omega)
  have hmem : ∀ j < row.length, slotAt row j ∈ occupiedSlots row := fun j hj =>
    mem_occupiedSlots.2 ⟨slotAt_mem hj, valid_of_full (by omega) (slotAt_mem hj)⟩
  obtain ⟨hslot, hmax, -⟩ := victimLru_spec hne
  have htop : (slotAt row (victimLru row)).accessSeq.toNat = n - 1 := by
    obtain ⟨y, hy, hrank⟩ := List.mem_map.1 (hranks.mem_iff.2 (List.mem_range.2 (show n - 1 < n by omega)))
    obtain ⟨j, hj, rfl⟩ := mem_row (mem_occupiedSlots.1 hy).1
    have := hmax j hj
    have := rank_lt hdense (hmem _ hslot)
    omega
  exact ⟨htop, fun j hj hjv => htop ▸ victimLru_top hdense (by omega) hne (by omega) hjv⟩

/-! ### Which block leaves (42_eviction_policy.md R182) -/

theorem slotAt_map_ageBelow (row : List Slot) (b j : Nat) : slotAt (row.map (ageBelow b)) j = ageBelow b (slotAt row j) :=
  List.getD_map row Slot.free (ageBelow b)

theorem installedAt_map_set (row : List Slot) (b w : Nat) {x : Slot} (hx : x.valid = true) :
    InstalledAt row ((row.map (ageBelow b)).set w x) w x.tag :=
  installedAt_set (List.length_map _) (fun j => slotAt_map_ageBelow row b j ▸ ageBelow_sameBlock b _) w hx

/-- A slot other than the one installed keeps its block. -/
theorem InstalledAt.keeps {row row' : List Slot} {w j : Nat} {t : Tag} (h : InstalledAt row row' w t)
    (hj : (slotAt row j).valid = true) (hjw : j ≠ w) :
    (slotAt row' j).valid = true ∧ (slotAt row' j).tag = (slotAt row j).tag :=
  ⟨h.valid_of_valid hj, (h.others j hjw).tag⟩

/-- A request keeps every block but the one in the slot its record names, and that one it reports as the victim. -/
theorem exec_keeps_block {i : Instr} {s t : State} {o : OutcomeRecord} (h : Inv s) (hx : exec i s = .next t)
    (ho : t.outcome = some o) {j w : Nat} (hv : (s.slot j w).valid = true) :
    ((t.slot j w).valid = true ∧ (t.slot j w).tag = (s.slot j w).tag) ∨
    (j = o.set ∧ o.slot = some w ∧ o.victimTag = some (s.slot j w).tag) := by
  obtain ⟨-, -, hothers, hcase⟩ := served_cases h hx ho
  simp only [State.slot_def] at hv ⊢
  by_cases hj : j = o.set
  · subst hj
    rcases hcase with ⟨v, x, hhit⟩ | ⟨x, hinst⟩ | hdirect
    · have hrow := installedAt_map_set (s.row o.set) (touchBound s.cfg (s.row o.set) v) v hhit.valid
      rw [hhit.row]
      by_cases hw : w = v
      · subst hw
        rw [hhit.found.2, ← hhit.tag]
        exact .inl (hrow.new (lt_of_valid hv))
      · exact .inl (hrow.keeps hv hw)
    · have hrow := installedAt_map_set (s.row o.set) (installBound s.cfg) (installSlot s o.set) hinst.valid
      rw [hinst.row]
      by_cases hw : w = installSlot s o.set
      · subst hw
        exact .inr ⟨rfl, hinst.slot, hinst.victim.trans (if_pos hv)⟩
      · exact .inl (hrow.keeps hv hw)
    · rw [hdirect.row]
      exact .inl ⟨hv, rfl⟩
  · rw [hothers j hj]
    exact .inl ⟨hv, rfl⟩

/-- A victim is reported only by a miss that installs in a full set. -/
theorem full_of_victimTag {i : Instr} {s t : State} {o : OutcomeRecord} (h : Inv s) (hx : exec i s = .next t)
    (ho : t.outcome = some o) (hvictim : o.victimTag ≠ none) :
    o.hit = false ∧ occupied (s.row o.set) = s.cfg.ways := by
  obtain ⟨he, hi, -, hcase⟩ := served_cases h hx ho
  rcases hcase with ⟨v, x, hhit⟩ | ⟨x, hinst⟩ | hdirect
  · exact absurd hhit.noVictim hvictim
  · refine ⟨hinst.hit, ?_⟩
    rcases installSlot_cases h (h.dims he) hi with ⟨-, -, hfree⟩ | ⟨hfull, -⟩
    · exact absurd (hinst.victim.trans (if_neg (by simp [hfree]))) hvictim
    · exact hfull
  · exact absurd hdirect.noVictim hvictim

/-! ### One way: the policy is not consulted (42_eviction_policy.md R179) -/

/-- The state with another `evictionPolicy` in CFG, and nothing else changed. -/
def State.withPolicy (s : State) (p : Policy) : State := { s with cfg := { s.cfg with evictionPolicy := p } }

def Effect.withPolicy (e : Effect) (p : Policy) : Effect := { e with st := e.st.withPolicy p }

section
variable (s : State) (p : Policy)

@[simp] theorem State.withPolicy_params : (s.withPolicy p).params = s.params := rfl
@[simp] theorem State.withPolicy_stat : (s.withPolicy p).stat = s.stat := rfl
@[simp] theorem State.withPolicy_opCounter : (s.withPolicy p).opCounter = s.opCounter := rfl
@[simp] theorem State.withPolicy_ways : (s.withPolicy p).cfg.ways = s.cfg.ways := rfl
@[simp] theorem State.withPolicy_writeThrough : (s.withPolicy p).cfg.writeThrough = s.cfg.writeThrough := rfl
@[simp] theorem State.withPolicy_writeAllocate : (s.withPolicy p).cfg.writeAllocate = s.cfg.writeAllocate := rfl
@[simp] theorem State.withPolicy_row (i : Nat) : (s.withPolicy p).row i = s.row i := rfl
@[simp] theorem decoded_withPolicy (i : Instr) : decoded i (s.withPolicy p) = decoded i s := rfl

@[simp] theorem State.withPolicy_storeDatum (i w o : Nat) :
    (s.withPolicy p).storeDatum i w o = (s.storeDatum i w o).withPolicy p := by
  rw [State.storeDatum, State.storeDatum, apply_ite (State.withPolicy · p)]
  rfl

@[simp] theorem State.withPolicy_storeThrough (a : Address) :
    (s.withPolicy p).storeThrough a = (s.storeThrough a).withPolicy p := by
  rw [State.storeThrough, State.storeThrough, apply_ite (State.withPolicy · p)]
  rfl

@[simp] theorem State.withPolicy_writeBack (i : Nat) (v : Slot) :
    (s.withPolicy p).writeBack i v = (s.writeBack i v).withPolicy p := by
  rw [State.writeBack, State.writeBack, apply_ite (State.withPolicy · p)]
  rfl

end

theorem lruActive_of_one_way {c : Cfg} (h : c.ways = 1) : lruActive c = false := by simp [lruActive, h]

theorem touch_of_one_way {s : State} (h : s.cfg.ways = 1) (i w : Nat) : s.touch i w = s := by
  simp [State.touch, lruActive_of_one_way h]

theorem replaceSlot_withPolicy {s : State} (h : s.cfg.ways = 1) (p : Policy) (i w : Nat) (t : Tag) (k : Kind) :
    replaceSlot (s.withPolicy p) i w t k = (replaceSlot s i w t k).withPolicy p := by
  have hwb : writeBackNeeded (s.withPolicy p).cfg (slotAt (s.row i) w) = writeBackNeeded s.cfg (slotAt (s.row i) w) := rfl
  simp only [replaceSlot, State.withPolicy_row, State.withPolicy_writeBack, hwb, lruActive_of_one_way h,
    lruActive_of_one_way (c := (s.withPolicy p).cfg) h]
  cases writeBackNeeded s.cfg (slotAt (s.row i) w) <;> rfl

theorem allocate_withPolicy {s : State} (h : s.cfg.ways = 1) (p : Policy) (i : Nat) (t : Tag) (k : Kind) :
    allocate (s.withPolicy p) i t k = (allocate s i t k).withPolicy p := by
  simp only [allocate, place, State.withPolicy_ways, h, if_true, replaceSlot_withPolicy h]
  rfl

/-- With one way every path of a request is the same under another policy. -/
theorem requestEffect_withPolicy {s : State} (h : s.cfg.ways = 1) (p : Policy) (i : Instr) :
    requestEffect i (s.withPolicy p) = ((requestEffect i s).1, (requestEffect i s).2.withPolicy p) := by
  have htouch := touch_of_one_way (s := s.withPolicy p) h
  cases i with
  | load a =>
    cases hl : lookup (s.row (decoded (.load a) s).index) (decoded (.load a) s).tag with
    | some w =>
      simp only [requestEffect, State.withPolicy_row, decoded_withPolicy, hl, loadHit, touch_of_one_way h, htouch]
      rfl
    | none =>
      simp only [requestEffect, State.withPolicy_row, decoded_withPolicy, hl, loadMiss, allocate_withPolicy h]
  | store a =>
    cases hl : lookup (s.row (decoded (.store a) s).index) (decoded (.store a) s).tag with
    | some w =>
      simp only [requestEffect, State.withPolicy_row, decoded_withPolicy, hl, storeHit, touch_of_one_way h, htouch,
        State.withPolicy_storeDatum, State.withPolicy_storeThrough, State.withPolicy_writeThrough]
      cases s.cfg.writeThrough <;> rfl
    | none =>
      simp only [requestEffect, State.withPolicy_row, decoded_withPolicy, hl, storeMiss, storeMissAllocate,
        storeMissDirect, allocate_withPolicy h, Effect.withPolicy, State.withPolicy_storeDatum,
        State.withPolicy_storeThrough, State.withPolicy_writeThrough, State.withPolicy_writeAllocate]
      cases s.cfg.writeAllocate <;> cases s.cfg.writeThrough <;> rfl

theorem complete_withPolicy {k : Kind} {d : Decoded} {hit : Bool} {rdata : Option (List Byte)} {e : Effect} {t : State}
    (p : Policy) (h : complete k d hit rdata e = .next t) :
    complete k d hit rdata (e.withPolicy p) = .next (t.withPolicy p) := by
  simp only [complete, Effect.withPolicy, State.withPolicy_params, State.withPolicy_stat,
    State.withPolicy_opCounter] at h ⊢
  split at h
  · cases h
    rfl
  · cases h

theorem exec_withPolicy {i : Instr} {s t : State} (h : s.cfg.ways = 1) (p : Policy) (hx : exec i s = .next t) :
    exec i (s.withPolicy p) = .next (t.withPolicy p) := by
  have hready := ready_of_next hx
  have hready' : Ready i.kind i.address (s.withPolicy p) := hready
  have heffect := requestEffect_withPolicy h p i
  have hdata : requestData i (s.withPolicy p) = requestData i s := by
    cases i with
    | load a =>
      simp only [requestData, heffect]
      rfl
    | store a => rfl
  rw [exec_ready hready] at hx
  rw [exec_ready hready', heffect, hdata]
  exact complete_withPolicy p hx

end Sys2Proof.Machine

/-! ### The statements -/

namespace Sys2Proof.Proofs

open Sys2Proof.Machine

/-- Settles O47: a hit moves its block from its place to the front, an install puts one there, and where the set was full the
block with the largest rank, the last of the list, is the one overwritten. -/
theorem lruFollowsTheTextbook : Obligations.LruFollowsTheTextbook := by
  unfold Obligations.LruFollowsTheTextbook
  intro i s t o order h hlru hx ho horder
  exact exec_lru_order h hlru hx ho horder

/-- Settles O48: a hit leaves `loadSeq` alone, an install takes `opCounter`, above every `loadSeq` of the set, and where the
set was full the block with the smallest, the first of the list, is the one overwritten. -/
theorem fifoFollowsTheTextbook : Obligations.FifoFollowsTheTextbook := by
  unfold Obligations.FifoFollowsTheTextbook
  intro i s t o order h hfresh hfifo hops hx ho horder
  exact exec_fifo_order h hfresh hfifo hops hx ho horder

/-- Settles O42: the scan keeps a slot until one with a larger `accessSeq` comes. -/
theorem victimLruIsFirstMaximum : Obligations.VictimLruIsFirstMaximum := by
  unfold Obligations.VictimLruIsFirstMaximum
  exact fun _ => victimLru_spec

/-- Settles O43: the scan keeps a slot until one with a smaller `loadSeq` comes. -/
theorem victimFifoIsFirstMinimum : Obligations.VictimFifoIsFirstMinimum := by
  unfold Obligations.VictimFifoIsFirstMinimum
  exact fun _ => victimFifo_spec

/-- Settles O44: the invariant keeps the ranks dense, and the victim has the largest. -/
theorem lruVictimHasTheTopRank : Obligations.LruVictimHasTheTopRank := by
  unfold Obligations.LruVictimHasTheTopRank
  intro s i h hlru hi hfull
  obtain ⟨-, hlen, -, -, hdense, -⟩ := h.rowOk hi
  have hranks : (ranks (s.row i)).Perm (List.range s.cfg.ways) := hfull ▸ hdense hlru
  have hways := (lruActive_iff.1 hlru).2
  exact ⟨hranks, victimLru_rank hranks (by rwa [← occupied_eq_length]) hlen (by omega)⟩

/-- Settles O45: a hit and a direct STORE keep every block, and an install overwrites one slot, which is free while the set
has room. -/
theorem evictionOnlyFromAFullSet : Obligations.EvictionOnlyFromAFullSet := by
  unfold Obligations.EvictionOnlyFromAFullSet
  intro i s t o h hx ho
  have hkeep := fun j w => exec_keeps_block h hx ho (j := j) (w := w)
  have hfull := full_of_victimTag h hx ho
  refine ⟨hfull, fun hroom => ?_, fun j w hv htag => ?_⟩
  · have hnone : o.victimTag = none := by_contra fun hvictim => by have := (hfull hvictim).2; omega
    refine ⟨hnone, fun j w hv => ?_⟩
    rcases hkeep j w hv with hsame | ⟨-, -, hvictim⟩
    · exact hsame
    · simp [hnone] at hvictim
  · rcases hkeep j w hv with ⟨-, hsame⟩ | hevicted
    · exact absurd hsame htag
    · exact hevicted

/-- Settles O46: with one way the LRU path is not active and ALLOCATE replaces slot 0 without asking the policy. -/
theorem policyIgnoredWithOneWay : Obligations.PolicyIgnoredWithOneWay := by
  unfold Obligations.PolicyIgnoredWithOneWay
  intro i s t p hone hx
  exact exec_withPolicy (by rw [Cfg.ways, hone]; rfl) p hx

/-- Settles O52: a reset leaves no block, a request keeps the premise row by row, and nothing else touches its fields. -/
theorem loadSeqStaysFresh : Obligations.LoadSeqStaysFresh := by
  unfold Obligations.LoadSeqStaysFresh
  intro s t h hfresh hov hstep
  rcases step_cases hstep with ⟨-, rfl⟩ | ⟨c, rest, -, rfl, -⟩ | ⟨w, sb, rest, -, hx⟩ | ⟨rest, -, rfl⟩ |
    ⟨lines, rest, is, -, -, -, rfl⟩
  · exact hfresh
  · intro _ e he
    simp at he
  · exact exec_keeps_loadSeqFresh ((h.popped rest).latch sb) hfresh hov hx
  · exact hfresh
  · exact hfresh

/-- Settles O41: TOUCH is a map of the slots by number. -/
theorem touchUpdatesRanks : Obligations.TouchUpdatesRanks := by
  unfold Obligations.TouchUpdatesRanks
  intro row w hv
  refine ⟨touchRow_length row w, by rw [slotAt_touchRow (lt_of_valid hv), if_pos rfl], fun j hj hjw => ?_⟩
  rw [slotAt_touchRow hj, if_neg hjw]
  simp [BitVec.lt_def, Slot.aged]

end Sys2Proof.Proofs
end

section
/-! Proofs for spec/43_cycle_accountant.md: the cost table (R208), and what the write-back of a dirty victim adds to the cost
of an eviction (R209). -/

namespace Sys2Proof.Machine

/-! ### `totalCycles` grows by the cost recorded (43_cycle_accountant.md R200) -/

theorem Stat.totalCycles_after (st : Stat) (k : Kind) (hit : Bool) (cost : Nat) :
    (st.after k hit cost).totalCycles = st.totalCycles + BitVec.ofNat 64 cost := by
  cases k <;> cases hit <;> rfl

/-- Under ON_OVERFLOW = refuse a request completes only where its cost fits `totalCycles`, and adds it there as a number. -/
theorem exec_next_cycles {i : Instr} {s t : State} {o : OutcomeRecord} (hov : s.params.onOverflow = .refuse)
    (hx : exec i s = .next t) (ho : t.outcome = some o) :
    t.stat.totalCycles.toNat = s.stat.totalCycles.toNat + o.cost := by
  obtain ⟨-, st, n, rfl, hc⟩ := exec_next hx
  obtain ⟨hparams, -, hstat⟩ := requestEffect_sameCounters i s
  obtain ⟨⟨-, -, fitCycles⟩, rfl, -⟩ := hc (by rw [hparams]; exact hov)
  rw [State.completed_outcome, Option.some_inj] at ho
  subst ho
  rw [hstat] at fitCycles
  rw [State.completed_stat, hstat, Stat.totalCycles_after]
  exact addCount_toNat fitCycles

/-! ### The table (43_cycle_accountant.md R208) -/

/-- The cost of a miss that installs, in the literals of the table. -/
theorem missCost_of_table {s : State} (hcost : s.params.cost = Cost.table) (i : Nat) :
    s.missCost i = if s.victimDirty i then 50 * s.cfg.bytes + 1 else 25 * s.cfg.bytes + 1 := by
  unfold State.missCost
  rw [hcost]
  cases s.victimDirty i
  · simp [Cost.table]
  · simp only [Cost.table, if_true]
    omega

/-- Under the invariant the write-back guard need not look at the write policy: under write-through no block is dirty. -/
theorem victimDirty_iff {s : State} (h : Inv s) {i : Nat} (hi : i < s.cfg.sets) :
    s.victimDirty i = true ↔ (s.victim i).valid = true ∧ (s.victim i).dirty = true := by
  constructor
  · intro hv
    simp only [State.victimDirty, Bool.and_eq_true] at hv
    exact hv.1
  · rintro ⟨hvalid, hdirty⟩
    by_contra hclean
    rw [victim_clean_of_not_victimDirty h hi hvalid hclean] at hdirty
    cases hdirty

/-- A write-back is that of a miss that installs, of its dirty victim. -/
theorem installs_of_wroteBack {i : Instr} {s t : State} {o : OutcomeRecord} (h : Inv s) (hx : exec i s = .next t)
    (ho : t.outcome = some o) (hwb : o.wroteBack = true) :
    lookup (s.row (decoded i s).index) (decoded i s).tag = none ∧ (i.kind = .store → s.cfg.writeAllocate = true) ∧
    o = installRecord i s ∧ s.victimDirty (decoded i s).index = true := by
  obtain ⟨-, hcase, -⟩ := next_cases h hx
  rcases hcase with ⟨w, -, -, hout, -⟩ | ⟨hl, hwa, hout, -⟩ | ⟨-, -, -, hout, -⟩ <;>
    (rw [hout, Option.some_inj] at ho; subst ho)
  · cases hwb
  · exact ⟨hl, hwa, rfl, hwb⟩
  · cases hwb

/-! ### Clearing a dirty bit moves no block: LOOKUP and the choice of the slot do not read it -/

/-- The slot with its dirty bit cleared. -/
def Slot.cleaned (sl : Slot) : Slot := { sl with dirty := false }

theorem map_cleaned_set (row : List Slot) (w : Nat) :
    (row.set w (slotAt row w).cleaned).map Slot.cleaned = row.map Slot.cleaned := by
  by_cases hw : w < row.length
  · have hself : (slotAt row w).cleaned.cleaned = (row.map Slot.cleaned)[w]'(by simpa using hw) := by
      rw [List.getElem_map, slotAt_eq_getElem hw]
      rfl
    rw [List.map_set, hself, List.set_getElem_self]
  · rw [List.set_eq_of_length_le (by omega)]

theorem lookup_map_cleaned (row : List Slot) (t : Tag) : lookup (row.map Slot.cleaned) t = lookup row t :=
  List.findIdx?_map

theorem occupied_map_cleaned (row : List Slot) : occupied (row.map Slot.cleaned) = occupied row :=
  List.countP_map

/-- A scan whose comparison does not see what `f` changes stops at the same slot. -/
theorem scanBest_map {better : Slot → Slot → Bool} {f : Slot → Slot} (hf : ∀ x b, better (f x) (f b) = better x b)
    (row : List Slot) (i best : Nat) (b : Slot) :
    scanBest better (row.map f) i best (f b) = scanBest better row i best b := by
  induction row generalizing i best b with
  | nil => rfl
  | cons x row ih => simp only [List.map_cons, scanBest, hf, ih]

theorem firstBest_map {better : Slot → Slot → Bool} {f : Slot → Slot} (hf : ∀ x b, better (f x) (f b) = better x b)
    (row : List Slot) : firstBest better (row.map f) = firstBest better row := by
  cases row with
  | nil => rfl
  | cons x row => exact scanBest_map hf row 1 0 x

theorem victimLru_map_cleaned (row : List Slot) : victimLru (row.map Slot.cleaned) = victimLru row :=
  firstBest_map (f := Slot.cleaned) (fun _ _ => rfl) row

theorem victimFifo_map_cleaned (row : List Slot) : victimFifo (row.map Slot.cleaned) = victimFifo row :=
  firstBest_map (f := Slot.cleaned) (fun _ _ => rfl) row

theorem installSlot_of_map_cleaned {s s' : State} {i : Nat} (hcfg : s'.cfg = s.cfg)
    (hrow : (s'.row i).map Slot.cleaned = (s.row i).map Slot.cleaned) : installSlot s' i = installSlot s i := by
  unfold installSlot
  rw [hcfg, ← occupied_map_cleaned (s'.row i), ← victimLru_map_cleaned (s'.row i), ← victimFifo_map_cleaned (s'.row i),
    hrow, occupied_map_cleaned, victimLru_map_cleaned, victimFifo_map_cleaned]

/-! ### A miss that overwrites no dirty block, from any state whose slot array is in canonical form

The state with the dirty bit cleared need not keep the invariant: its clean block may differ from memory. -/

theorem replaceSlot_wroteBack_of_clean {s : State} {i w : Nat} (hclean : (slotAt (s.row i) w).dirty = false) (t : Tag)
    (k : Kind) : (replaceSlot s i w t k).wroteBack = false := by
  simp [replaceSlot, writeBackNeeded, hclean]

/-- No install writes back a victim that is not dirty. -/
theorem place_wroteBack_of_clean {s : State} {i : Nat} (hclean : (s.victim i).dirty = false) (t : Tag) (k : Kind) :
    (place s i t k).wroteBack = false := by
  unfold State.victim installSlot at hclean
  unfold place
  split_ifs at hclean ⊢
  · exact replaceSlot_wroteBack_of_clean hclean t k
  · rfl
  · exact replaceSlot_wroteBack_of_clean hclean t k
  · exact replaceSlot_wroteBack_of_clean hclean t k

theorem place_cost_of_clean {s : State} (h : Sparse.wf (freeRow s.cfg) s.rows = true) {i : Nat}
    (hclean : (s.victim i).dirty = false) (t : Tag) (k : Kind) : (place s i t k).cost = 0 := by
  rw [(place_installEffect h i t k).cost, place_wroteBack_of_clean hclean]
  rfl

/-- A miss that installs takes the slot of the install, and is charged ALLOCATE's charge on top of the install's. -/
theorem requestEffect_of_install {i : Instr} {s : State}
    (hl : lookup (s.row (decoded i s).index) (decoded i s).tag = none)
    (hwa : i.kind = .store → s.cfg.writeAllocate = true) :
    (requestEffect i s).1 = false ∧
    (requestEffect i s).2.slot = (place s (decoded i s).index (decoded i s).tag i.kind).slot ∧
    (requestEffect i s).2.cost =
      (place s (decoded i s).index (decoded i s).tag i.kind).cost + installCost s.params.cost s.cfg := by
  cases i with
  | load a =>
    simp only [requestEffect, hl]
    exact ⟨trivial, rfl, rfl⟩
  | store a =>
    simp only [requestEffect, hl, storeMiss, if_pos (hwa rfl), storeMissAllocate]
    refine ⟨trivial, ?_⟩
    split <;> exact ⟨rfl, rfl⟩

/-- A request completes where its counters have room, with the record of its effect. -/
theorem exec_of_fit {i : Instr} {s : State} (hr : Ready i.kind i.address s)
    (hfit : CountersFit i.kind (requestEffect i s).1 (requestEffect i s).2.cost s) :
    ∃ t, exec i s = .next t ∧
      t.outcome = some ((requestEffect i s).2.record (decoded i s) (requestEffect i s).1) := by
  obtain ⟨-, hop, hstat⟩ := requestEffect_sameCounters i s
  have hfit' : CountersFit i.kind (requestEffect i s).1 (requestEffect i s).2.cost (requestEffect i s).2.st := by
    rw [CountersFit, hop, hstat]
    exact hfit
  rw [exec_ready hr, complete_of_fit hfit']
  exact ⟨_, rfl, rfl⟩

/-- A miss that installs over a slot that is not dirty costs the fetch and the install alone (R202, R205). -/
theorem exec_install_of_clean {i : Instr} {s : State} (h : Sparse.wf (freeRow s.cfg) s.rows = true)
    (hr : Ready i.kind i.address s) (hl : lookup (s.row (decoded i s).index) (decoded i s).tag = none)
    (hwa : i.kind = .store → s.cfg.writeAllocate = true) (hclean : (s.victim (decoded i s).index).dirty = false)
    (hfit : CountersFit i.kind false (installCost s.params.cost s.cfg) s) :
    ∃ t o, exec i s = .next t ∧ t.outcome = some o ∧ o.cost = installCost s.params.cost s.cfg ∧
      o.slot = some (installSlot s (decoded i s).index) ∧ o.hit = false := by
  obtain ⟨hhit, hslot, hcost⟩ := requestEffect_of_install hl hwa
  rw [place_cost_of_clean h hclean, Nat.zero_add] at hcost
  rw [(place_installEffect h ..).slot] at hslot
  obtain ⟨t, hx, ho⟩ := exec_of_fit hr (by rw [hhit, hcost]; exact hfit)
  exact ⟨t, _, hx, ho, hcost, hslot, hhit⟩

/-! ### The same state with the victim clean (43_cycle_accountant.md R209) -/

/-- The state with only the dirty bit cleared of the slot an install in set `i` overwrites. -/
def State.victimCleaned (s : State) (i : Nat) : State := s.updateSlot i (installSlot s i) Slot.cleaned

@[simp] theorem State.victimCleaned_stat (s : State) (i : Nat) : (s.victimCleaned i).stat = s.stat := rfl

section
variable {s : State} (h : Sparse.wf (freeRow s.cfg) s.rows = true) (i : Nat)
include h

theorem State.row_victimCleaned : (s.victimCleaned i).row i = (s.row i).set (installSlot s i) (s.victim i).cleaned := by
  rw [State.victimCleaned, State.row_updateSlot h, if_pos rfl]
  rfl

/-- The two rows differ in dirty bits at most. -/
theorem State.map_cleaned_row_victimCleaned :
    ((s.victimCleaned i).row i).map Slot.cleaned = (s.row i).map Slot.cleaned := by
  rw [State.row_victimCleaned h]
  exact map_cleaned_set ..

theorem lookup_victimCleaned (t : Tag) : lookup ((s.victimCleaned i).row i) t = lookup (s.row i) t := by
  rw [← lookup_map_cleaned, State.map_cleaned_row_victimCleaned h, lookup_map_cleaned]

/-- The same slot is the one an install takes. -/
theorem installSlot_victimCleaned : installSlot (s.victimCleaned i) i = installSlot s i :=
  installSlot_of_map_cleaned rfl (State.map_cleaned_row_victimCleaned h i)

theorem victim_victimCleaned_dirty (hv : (s.victim i).valid = true) : ((s.victimCleaned i).victim i).dirty = false := by
  rw [State.victim, installSlot_victimCleaned h, State.slot_def, State.row_victimCleaned h, slotAt_set,
    if_pos ⟨rfl, lt_of_valid hv⟩]
  rfl

end

/-- The request that writes a dirty victim back, on the victim made clean: it takes the same slot and costs the fetch and the
install alone. -/
theorem exec_victimCleaned {i : Instr} {s t : State} {o : OutcomeRecord} (h : Inv s)
    (hov : s.params.onOverflow = .refuse) (hx : exec i s = .next t) (ho : t.outcome = some o) (hwb : o.wroteBack = true) :
    ∃ t' o', exec i (s.victimCleaned (decoded i s).index) = .next t' ∧ t'.outcome = some o' ∧
      o'.cost = installCost s.params.cost s.cfg ∧ o'.slot = some (installSlot s (decoded i s).index) ∧ o'.hit = false := by
  obtain ⟨hl, hwa, rfl, hdirty⟩ := installs_of_wroteBack h hx ho hwb
  obtain ⟨hready, -, -, -, -, -, -, -, -, -, -, o', -, ho', -, hfit⟩ := next_cases h hx
  obtain rfl : installRecord i s = o' := Option.some.inj (ho.symm.trans ho')
  obtain ⟨⟨fitOp, fitCounter, fitCycles⟩, -⟩ := hfit hov
  have hle : installCost s.params.cost s.cfg ≤ (installRecord i s).cost := Nat.le_add_left ..
  obtain ⟨t', o', hx', hout, hcost, hslot, hhit⟩ :=
    exec_install_of_clean (i := i) (s := s.victimCleaned (decoded i s).index)
      (State.rowsCanonical_updateSlot h.rowsCanonical ..) hready ((lookup_victimCleaned h.rowsCanonical ..).trans hl) hwa
      (victim_victimCleaned_dirty h.rowsCanonical _ (victimDirty_valid hdirty))
      ⟨fitOp, fitCounter, lt_of_le_of_lt (Nat.add_le_add_left hle _) fitCycles⟩
  exact ⟨t', o', hx', hout, hcost, hslot.trans (congrArg some (installSlot_victimCleaned h.rowsCanonical _)), hhit⟩

end Sys2Proof.Machine

/-! ### The statements -/

namespace Sys2Proof.Proofs

open Sys2Proof.Machine

/-- Settles O30: the record is that of a hit, of an install or of a direct write, and only the install's can write back. -/
theorem costTable : Obligations.CostTable := by
  unfold Obligations.CostTable
  intro i s t o h hcost hov hx ho
  refine ⟨exec_next_cycles hov hx ho, ?_⟩
  obtain ⟨hready, hcase, -⟩ := next_cases h hx
  rcases hcase with ⟨w, -, -, hout, -⟩ | ⟨-, hwa, hout, -⟩ | ⟨-, hk, hwa, hout, -⟩ <;>
    (rw [hout, Option.some_inj] at ho; subst ho)
  · refine ⟨by simp [hitRecord], by simp [hitRecord], ?_⟩
    cases i <;> simp [hitRecord, StoresThrough, hcost, Cost.table, Instr.kind]
  · have hback := victimDirty_iff (i := (decoded i s).index) h (decodeAddress_index_lt (h.dims hready.1) _)
    refine ⟨by simpa [installRecord, State.victim] using hback, fun hwb => ?_, ?_⟩
    · by_contra hwt
      rw [installRecord, victimDirty_wt (by simpa using hwt)] at hwb
      cases hwb
    · cases i with
      | load a => exact missCost_of_table hcost _
      | store a => simpa [installRecord, hwa rfl] using missCost_of_table hcost _
  · refine ⟨by simp [directRecord], by simp [directRecord], ?_⟩
    cases i with
    | load a => cases hk
    | store a => simp [directRecord, hwa, hcost, Cost.table]

/-- Settles O40: neither LOOKUP nor the choice of the slot reads the dirty bit, so with it cleared the same install runs and
the charge of the write-back alone is not made. -/
theorem dirtyEvictionDifference : Obligations.DirtyEvictionDifference := by
  unfold Obligations.DirtyEvictionDifference
  intro i s t o w h hcost hov hx ho hwb hw
  obtain ⟨t', o', hx', ho', hcost', hslot', hhit'⟩ := exec_victimCleaned h hov hx ho hwb
  have hcycles := exec_next_cycles hov hx ho
  have hcycles' := exec_next_cycles (s := s.victimCleaned _) hov hx' ho'
  obtain ⟨-, -, rfl, hdirty⟩ := installs_of_wroteBack h hx ho hwb
  obtain rfl : installSlot s (decoded i s).index = w := Option.some.inj hw
  have hdiff : (installRecord i s).cost = o'.cost + 25 * s.cfg.bytes := by
    calc (installRecord i s).cost
        = 50 * s.cfg.bytes + 1 := (missCost_of_table hcost _).trans (if_pos hdirty)
      _ = (25 * s.cfg.bytes + 1) + 25 * s.cfg.bytes := by omega
      _ = o'.cost + 25 * s.cfg.bytes := by rw [hcost', hcost]; rfl
  refine ⟨t', o', hx', ho', hdiff, ?_, hslot', hhit'⟩
  rw [State.victimCleaned_stat] at hcycles'
  omega

end Sys2Proof.Proofs
end

section
/-! Proofs for spec/44_operations.md: the whole next state of LOAD and STORE, path by path (R225 to R232), and the frame of
both (R223). A request that completes leaves `requestRow` in its set, `requestMem` in memory and the record of its path
(`exec_completes`); what remains of each statement is that row, that memory and that record written out. -/

namespace Sys2Proof.Machine

/-! ### The outcome record of a request, path by path -/

/-- The outcome record of a request. -/
def requestRecord (i : Instr) (s : State) : OutcomeRecord :=
  (requestEffect i s).2.record (decoded i s) (requestEffect i s).1

section
variable {i : Instr} {s : State}

/-- The path taken fixes the record, whatever the counters then do. -/
theorem requestRecord_cases (h : Inv s) (hr : Ready i.kind i.address s) :
    (∃ w, lookup (s.row (decoded i s).index) (decoded i s).tag = some w ∧ requestRecord i s = hitRecord i s w) ∨
    (lookup (s.row (decoded i s).index) (decoded i s).tag = none ∧
      (requestRecord i s = installRecord i s ∨ i.kind = .store ∧ s.cfg.writeAllocate = false)) := by
  obtain ⟨-, -, -, hrow⟩ := requestEffect_spec h hr
  have hcase := outcome_cases h hr
    (t := (requestEffect i s).2.st.completed s.stat s.opCounter ⟨true, none⟩ (requestRecord i s))
    (by rw [State.row_completed, hrow, if_pos rfl]) rfl
  rcases hcase with ⟨w, -, hl, hout, -⟩ | ⟨hl, -, hout, -⟩ | ⟨hl, hk, hwa, -⟩
  · exact .inl ⟨w, hl, Option.some.inj hout⟩
  · exact .inr ⟨hl, .inl (Option.some.inj hout)⟩
  · exact .inr ⟨hl, .inr ⟨hk, hwa⟩⟩

theorem requestRecord_of_hit (h : Inv s) (hr : Ready i.kind i.address s) {w : Nat}
    (hl : lookup (s.row (decoded i s).index) (decoded i s).tag = some w) : requestRecord i s = hitRecord i s w := by
  rcases requestRecord_cases h hr with ⟨v, hv, hrec⟩ | ⟨hnone, -⟩
  · obtain rfl : v = w := Option.some.inj (hv.symm.trans hl)
    exact hrec
  · rw [hnone] at hl
    cases hl

theorem requestRecord_of_install (h : Inv s) (hr : Ready i.kind i.address s)
    (hl : lookup (s.row (decoded i s).index) (decoded i s).tag = none)
    (hwa : i.kind = .store → s.cfg.writeAllocate = true) : requestRecord i s = installRecord i s := by
  rcases requestRecord_cases h hr with ⟨v, hv, -⟩ | ⟨-, hrec | ⟨hk, hno⟩⟩
  · rw [hl] at hv
    cases hv
  · exact hrec
  · rw [hwa hk] at hno
    cases hno

theorem not_storesThrough_load (a : Address) (s : State) : ¬StoresThrough (.load a) s := fun hst => by cases hst.1

/-- A hit that sends nothing to memory costs the access to the cache and records no event. -/
theorem hitRecord_of_cached (hst : ¬StoresThrough i s) (w : Nat) :
    hitRecord i s w =
      { set := (decoded i s).index, tag := (decoded i s).tag, hit := true, slot := some w, victimTag := none
        wroteBack := false, cost := s.params.cost.access, events := [] } := by
  rw [hitRecord, if_neg hst, if_neg hst]

theorem hitRecord_of_storesThrough (hst : StoresThrough i s) (w : Nat) :
    hitRecord i s w =
      { set := (decoded i s).index, tag := (decoded i s).tag, hit := true, slot := some w, victimTag := none
        wroteBack := false, cost := s.params.cost.memWrite + s.params.cost.access, events := [.write i.address] } := by
  rw [hitRecord, if_pos hst, if_pos hst]

/-! ### A request that completes -/

/-- The end of an operation that has changed rows and memory only. -/
theorem OnlyRowsAndMem.completed {t : State} (h : OnlyRowsAndMem s t) (st : Stat) (n : Count) (r : Response)
    (o : OutcomeRecord) :
    t.completed st n r o =
      { s with rows := t.rows, mem := t.mem, stat := st, opCounter := n, resp := some r, outcome := some o } := by
  simp only [State.completed, h.params, h.cfg, h.cfgError, h.req, h.pending]

/-- A request whose counters have room completes, and this is the whole next state (44_operations.md R220). -/
theorem exec_completes {o : OutcomeRecord} (h : Inv s) (hr : Ready i.kind i.address s) (ho : requestRecord i s = o)
    (hfit : CountersFit i.kind o.hit o.cost s) :
    ∃ t, exec i s = .next t ∧
      t = { s with
        rows := t.rows
        mem := requestMem i s
        opCounter := s.opCounter + 1#64
        stat := s.stat.after i.kind o.hit o.cost
        resp := some { hit := o.hit, rdata := requestData i s }
        outcome := some o } ∧
      t.row (decoded i s).index = requestRow i s ∧ ∀ j, j ≠ (decoded i s).index → t.row j = s.row j := by
  subst ho
  obtain ⟨honly, hmem, -, hrow⟩ := requestEffect_spec h hr
  have hfit' : CountersFit i.kind (requestEffect i s).1 (requestEffect i s).2.cost (requestEffect i s).2.st := by
    rw [CountersFit, honly.opCounter, honly.stat]
    exact hfit
  refine ⟨_, (exec_ready hr).trans (complete_of_fit hfit'), ?_, ?_, fun j hj => ?_⟩
  · rw [honly.completed, hmem, honly.stat, honly.opCounter]
    rfl
  · rw [State.row_completed, hrow, if_pos rfl]
  · rw [State.row_completed, hrow, if_neg hj]

/-! ### The row of a hit -/

theorem requestRow_of_load_hit {a : Address} {w : Nat}
    (hl : lookup (s.row (decoded (.load a) s).index) (decoded (.load a) s).tag = some w) :
    requestRow (.load a) s = touchedRow (.load a) s w := by
  simp only [requestRow, hl, touchedRow]

/-- The slot a STORE hits: rank 0 on the LRU path, dirty under write-back, its datum in the data row (R228). -/
def storedSlot (a : Address) (s : State) (w : Nat) : Slot :=
  { slotAt (s.row (decoded (.store a) s).index) w with
    accessSeq := if lruActive s.cfg then 0#32 else (slotAt (s.row (decoded (.store a) s).index) w).accessSeq
    dirty := (slotAt (s.row (decoded (.store a) s).index) w).dirty || !s.cfg.writeThrough
    data := if s.params.dataArray then
        putBytes (slotAt (s.row (decoded (.store a) s).index) w).data (decoded (.store a) s).offset s.req.wdata
      else (slotAt (s.row (decoded (.store a) s).index) w).data }

theorem requestRow_of_store_hit {a : Address} {w : Nat}
    (hl : lookup (s.row (decoded (.store a) s).index) (decoded (.store a) s).tag = some w) :
    requestRow (.store a) s = (touchedRow (.store a) s w).set w (storedSlot a s w) := by
  simp only [requestRow, hl, touchedRow, storedSlot]

/-- In the set of a STORE hit, the slot hit and the others. -/
theorem slot_of_store_hit {t : State} {a : Address} {w : Nat}
    (hl : lookup (s.row (decoded (.store a) s).index) (decoded (.store a) s).tag = some w)
    (hrow : t.row (decoded (.store a) s).index = requestRow (.store a) s) :
    t.slot (decoded (.store a) s).index w = storedSlot a s w ∧
      ∀ j, j ≠ w → t.slot (decoded (.store a) s).index j = slotAt (touchedRow (.store a) s w) j := by
  obtain ⟨hw, -⟩ := lookup_eq_some.1 hl
  rw [requestRow_of_store_hit hl] at hrow
  refine ⟨?_, fun j hj => ?_⟩
  · rw [State.slot_def, hrow, slotAt_set, if_pos ⟨rfl, by rw [touchedRow_length]; exact hw⟩]
  · rw [State.slot_def, hrow, slotAt_set, if_neg fun hc => hj hc.1]

/-! ### A miss that installs -/

/-- The slot a miss installs (R226): the block as memory holds it after the eviction, with the STORE's data over it. -/
def installedBlock (i : Instr) (s : State) : Slot :=
  { valid := true, dirty := dirties i s, tag := (decoded i s).tag, loadSeq := s.opCounter.setWidth 32, accessSeq := 0#32
    data := if s.params.dataArray then
        writtenData i s
          (Memory.readBytes (s.memAfterEviction (decoded i s).index) (blockBase s.cfg i.address) s.cfg.bytes)
      else [] }

theorem requestRow_eq_installedRow (hd : Dims s.cfg)
    (hl : lookup (s.row (decoded i s).index) (decoded i s).tag = none)
    (hwa : i.kind = .store → s.cfg.writeAllocate = true) :
    requestRow i s =
      installedRow s.cfg (s.row (decoded i s).index) (installSlot s (decoded i s).index) (installedBlock i s) := by
  have hbase : recompose s.cfg (decoded i s).tag (decoded i s).index = blockBase s.cfg i.address :=
    recompose_decode hd i.address
  cases i with
  | load a => simp only [requestRow, hl, newSlot, hbase]; rfl
  | store a => simp only [requestRow, hl, hwa rfl, newSlot, hbase]; rfl

/-- A row with a block installed in it: that block in its slot, and the others aged on the LRU path (42_eviction_policy.md
R172). -/
theorem othersAged_of_installedRow {t : State} (h : Inv s) {k w : Nat} {x : Slot} (hw : w < s.cfg.ways)
    (hrow : t.row k = installedRow s.cfg (s.row k) w x) (hothers : ∀ j, j ≠ k → t.row j = s.row j) :
    t.slot k w = x ∧ OthersAged s t k w := by
  have hlen := h.row_length k
  refine ⟨?_, fun j hj hjw => ?_, hothers⟩
  · rw [State.slot_def, hrow, slotAt_installedRow (by omega), if_pos rfl]
  · rw [State.slot_def, hrow, slotAt_installedRow (by omega), if_neg hjw]
    rfl

/-- A miss that installs, whole: LOAD, and STORE with write-allocate (44_operations.md R226). -/
theorem exec_install (h : Inv s) (hr : Ready i.kind i.address s)
    (hl : lookup (s.row (decoded i s).index) (decoded i s).tag = none)
    (hwa : i.kind = .store → s.cfg.writeAllocate = true)
    (hfit : CountersFit i.kind false (s.missCost (decoded i s).index) s) :
    ∃ t, exec i s = .next t ∧
      t = { s with
        rows := t.rows
        mem := requestMem i s
        opCounter := s.opCounter + 1#64
        stat := s.stat.after i.kind false (s.missCost (decoded i s).index)
        resp := some { hit := false, rdata := requestData i s }
        outcome := some (installRecord i s) } ∧
      installSlot s (decoded i s).index < s.cfg.ways ∧
      t.slot (decoded i s).index (installSlot s (decoded i s).index) = installedBlock i s ∧
      OthersAged s t (decoded i s).index (installSlot s (decoded i s).index) := by
  have hd := h.dims hr.1
  have hw := installSlot_lt h hd (decoded i s).index
  obtain ⟨t, hx, ht, hrow, hothers⟩ := exec_completes h hr (requestRecord_of_install h hr hl hwa) hfit
  rw [requestRow_eq_installedRow hd hl hwa] at hrow
  exact ⟨t, hx, ht, hw, othersAged_of_installedRow h hw hrow hothers⟩

/-! ### The data a LOAD answers with (20_memory.md R79) -/

theorem loadSlot_of_hit {a : Address} {w : Nat}
    (hl : lookup (s.row (decoded (.load a) s).index) (decoded (.load a) s).tag = some w) : loadSlot a s = w := by
  rw [loadSlot, hl, Option.getD_some]

theorem loadSlot_of_miss {a : Address} (h : Inv s) (hr : Ready .load a s)
    (hl : lookup (s.row (decoded (.load a) s).index) (decoded (.load a) s).tag = none) :
    loadSlot a s = installSlot s (decoded (.load a) s).index := by
  have hslot : (requestEffect (.load a) s).2.slot = some (installSlot s (decoded (.load a) s).index) :=
    congrArg OutcomeRecord.slot (requestRecord_of_install (i := .load a) h hr hl fun hk => by cases hk)
  rw [loadSlot, hl, hslot, Option.getD_none, Option.getD_some]

/-- Without the data array a LOAD answers with no data. -/
theorem requestData_load_none {a : Address} (h : Inv s) (hr : Ready .load a s) (hda : ¬s.params.dataArray = true) :
    requestData (.load a) s = none := by
  obtain ⟨honly, -⟩ := requestEffect_spec (i := .load a) h hr
  change (requestEffect (.load a) s).2.st.readData (decoded (.load a) s) (loadSlot a s) = none
  rw [State.readData, honly.params, if_neg hda]

theorem requestData_of_load_hit {a : Address} {w : Nat} (h : Inv s) (hr : Ready .load a s)
    (hl : lookup (s.row (decoded (.load a) s).index) (decoded (.load a) s).tag = some w) :
    requestData (.load a) s =
      if s.params.dataArray then
        some (((s.slot (decoded (.load a) s).index w).data.drop (decoded (.load a) s).offset).take s.req.size)
      else none := by
  split
  · rename_i hda
    obtain ⟨-, -, hdata⟩ := slotAt_requestRow_of_hit hda hl (lookup_eq_some.1 hl).1
    rw [requestData_load h hr hda, loadSlot_of_hit hl, hdata, if_pos rfl]
    rfl
  · rename_i hda
    exact requestData_load_none h hr hda

theorem requestData_of_load_miss {a : Address} (h : Inv s) (hr : Ready .load a s)
    (hl : lookup (s.row (decoded (.load a) s).index) (decoded (.load a) s).tag = none) :
    requestData (.load a) s =
      if s.params.dataArray then
        some (((Memory.readBytes (s.memAfterEviction (decoded (.load a) s).index) (blockBase s.cfg a) s.cfg.bytes).drop
          (decoded (.load a) s).offset).take s.req.size)
      else none := by
  have hd := h.dims hr.1
  split
  · rename_i hda
    have hslot := slotAt_requestRow_installSlot (i := .load a) h hr hda hl fun hk => by cases hk
    rw [requestData_load h hr hda, loadSlot_of_miss h hr hl, hslot, ← recompose_decode hd]
    rfl
  · rename_i hda
    exact requestData_load_none h hr hda

/-! ### A STORE that goes to memory only -/

/-- The pair rule: no-write-allocate stands with write-through only (60_exceptions.md R262, 44_operations.md R229). -/
theorem writeThrough_of_no_allocate (h : Inv s) (he : s.cfgError = none) (hwa : s.cfg.writeAllocate = false) :
    s.cfg.writeThrough = true := by
  obtain ⟨-, -, -, -, hpair, -⟩ := configError_eq_none.1 (h.checked.symm.trans he)
  simpa [hwa] using hpair

/-- A STORE's own write to memory, as a change of the memory alone. -/
theorem State.storeThrough_eq (s : State) (a : Address) :
    s.storeThrough a =
      { s with mem := if s.params.dataArray then Memory.writeBytes s.mem a s.req.wdata else s.mem } := by
  unfold State.storeThrough
  split <;> rfl

theorem exec_direct {a : Address} (hr : Ready .store a s)
    (hl : lookup (s.row (decodeAddress s.cfg a).index) (decodeAddress s.cfg a).tag = none)
    (hwa : s.cfg.writeAllocate = false) (hfit : CountersFit .store false s.params.cost.memWrite s) :
    exec (.store a) s = .next ((s.storeThrough a).completed (s.stat.after .store false s.params.cost.memWrite)
      (s.opCounter + 1#64) { hit := false, rdata := none } (directRecord (.store a) s)) := by
  have heffect : storeMiss s a (decodeAddress s.cfg a) = storeMissDirect s a := by simp [storeMiss, hwa]
  have hfit' : CountersFit .store false (storeMissDirect s a).cost (storeMissDirect s a).st := by
    rw [CountersFit, storeMissDirect, State.storeThrough_opCounter, State.storeThrough_stat]
    exact hfit
  rw [exec_store_miss hr hl, heffect, complete_of_fit hfit', storeMissDirect, State.storeThrough_opCounter,
    State.storeThrough_stat]
  rfl

end

end Sys2Proof.Machine

/-! ### The statements -/

namespace Sys2Proof.Proofs

open Sys2Proof.Machine

/-- Settles O21: a LOAD does not store through, so its hit costs the access alone and leaves memory and its row's data. -/
theorem loadHitResult : Obligations.LoadHitResult := by
  unfold Obligations.LoadHitResult
  intro a s w h hr hl hfit
  have hrecord := (requestRecord_of_hit (i := .load a) h hr hl).trans (hitRecord_of_cached (not_storesThrough_load a s) w)
  obtain ⟨t, hx, ht, hrow, hothers⟩ := exec_completes (i := .load a) h hr hrecord hfit
  rw [requestMem_of_hit (i := .load a) hl, if_neg fun hc => not_storesThrough_load a s hc.2,
    requestData_of_load_hit h hr hl] at ht
  exact ⟨t, hx, ht, hrow.trans (requestRow_of_load_hit hl), hothers⟩

/-- Settles O22: the miss that installs, with nothing stored through. -/
theorem loadMissResult : Obligations.LoadMissResult := by
  unfold Obligations.LoadMissResult
  rintro a s _ _ h hr rfl rfl hl hfit
  have hwa : (Instr.load a).kind = .store → s.cfg.writeAllocate = true := fun hk => by cases hk
  obtain ⟨t, hx, ht, hw, hslot, haged⟩ := exec_install (i := .load a) h hr hl hwa hfit
  rw [requestMem_of_install (i := .load a) hl hwa, if_neg fun hc => not_storesThrough_load a s hc.2,
    requestData_of_load_miss h hr hl, installRecord, if_neg (not_storesThrough_load a s), List.append_nil] at ht
  exact ⟨t, hx, ht, hw, hslot, haged⟩

/-- Settles O23: under write-back a STORE does not store through, and its hit makes the slot dirty. -/
theorem storeHitWriteBackResult : Obligations.StoreHitWriteBackResult := by
  unfold Obligations.StoreHitWriteBackResult
  rintro a s _ w h hr rfl hwt hl hfit
  have hst : ¬StoresThrough (.store a) s := fun hc => Bool.false_ne_true (hwt.symm.trans hc.2)
  have hrecord := (requestRecord_of_hit (i := .store a) h hr hl).trans (hitRecord_of_cached hst w)
  obtain ⟨t, hx, ht, hrow, hothers⟩ := exec_completes (i := .store a) h hr hrecord hfit
  obtain ⟨hslot, hrest⟩ := slot_of_store_hit hl hrow
  rw [requestMem_of_hit (i := .store a) hl, if_neg fun hc => hst hc.2] at ht
  rw [storedSlot, hwt, Bool.not_false, Bool.or_true] at hslot
  exact ⟨t, hx, ht, hslot, fun j _ => hrest j, hothers⟩

/-- Settles O24: under write-through a STORE stores through, and its hit leaves the dirty bit. -/
theorem storeHitWriteThroughResult : Obligations.StoreHitWriteThroughResult := by
  unfold Obligations.StoreHitWriteThroughResult
  rintro a s _ w h hr rfl hwt hl hfit
  have hst : StoresThrough (.store a) s := ⟨rfl, hwt⟩
  have hrecord := (requestRecord_of_hit (i := .store a) h hr hl).trans (hitRecord_of_storesThrough hst w)
  obtain ⟨t, hx, ht, hrow, hothers⟩ := exec_completes (i := .store a) h hr hrecord hfit
  obtain ⟨hslot, hrest⟩ := slot_of_store_hit hl hrow
  simp only [requestMem_of_hit (i := .store a) hl, and_iff_left hst] at ht
  rw [storedSlot, hwt, Bool.not_true, Bool.or_false] at hslot
  exact ⟨t, hx, ht, hslot, fun j _ => hrest j, hothers⟩

/-- Settles O25: the miss that installs, the datum over the block and under write-through also in memory. -/
theorem storeMissAllocateResult : Obligations.StoreMissAllocateResult := by
  unfold Obligations.StoreMissAllocateResult
  rintro a s _ _ h hr rfl rfl hwa hl hfit
  have hst : StoresThrough (.store a) s ↔ s.cfg.writeThrough = true := and_iff_right rfl
  obtain ⟨t, hx, ht, hw, hslot, haged⟩ := exec_install (i := .store a) h hr hl (fun _ => hwa) hfit
  simp only [requestMem_of_install (i := .store a) hl fun _ => hwa, installRecord, hst] at ht
  refine ⟨t, hx, ?_, hw, hslot, haged⟩
  simp only [Bool.and_eq_true]
  exact ht

/-- Settles O26: the pair rule gives write-through, and the direct path changes nothing but memory before the counters. -/
theorem storeMissDirectResult : Obligations.StoreMissDirectResult := by
  unfold Obligations.StoreMissDirectResult
  rintro a s _ h hr rfl hwa hl hfit
  refine ⟨writeThrough_of_no_allocate h hr.1 hwa, ?_⟩
  rw [exec_direct hr hl hwa hfit, State.storeThrough_eq]
  rfl

/-- Settles O28: a request works on the row of its set, and nothing of the setting it runs in changes. -/
theorem requestsTouchOneSet : Obligations.RequestsTouchOneSet := by
  unfold Obligations.RequestsTouchOneSet
  intro i s t h hx
  obtain ⟨hcfg, herr, hparams, hreq, hpending⟩ := exec_sameSetting hx
  obtain ⟨-, -, hothers, -⟩ := next_cases h hx
  exact ⟨hothers, hcfg, herr, hparams, hreq, hpending⟩

end Sys2Proof.Proofs
end

section
/-! Proofs for spec/60_exceptions.md: ConfigurationError (R262, R263, R267, R269, R274), TraceFormatError (R265, R270), and
that LOAD and STORE raise nothing (R261). -/

namespace Sys2Proof.Machine

/-! ### The check of CFG, cause by cause (60_exceptions.md R262, R267) -/

theorem policyIllegal_iff {c : Cfg} :
    policyIllegal c = true ↔ c.evictionPolicy = .reserved ∨
      1 < c.numBlocksPerSet ∧ ¬(c.evictionPolicy = .lru ∨ c.evictionPolicy = .fifo) := by
  simp only [policyIllegal, Bool.or_eq_true, decide_eq_true_eq, not_or, ne_eq]

theorem configError_of_sets {c : Cfg} (h : ¬∃ e : Nat, c.numSets = 2 ^ e) : configError c = some .ce1 := by
  rw [← isPowerOfTwo_iff] at h
  simp [configError, configErrors, h]

theorem configError_of_ways {c : Cfg} (hsets : ∃ e : Nat, c.numSets = 2 ^ e)
    (h : ¬∃ e : Nat, c.numBlocksPerSet = 2 ^ e) : configError c = some .ce2 := by
  rw [← isPowerOfTwo_iff] at hsets h
  simp [configError, configErrors, hsets, h]

theorem configError_of_bytes {c : Cfg} (hsets : ∃ e : Nat, c.numSets = 2 ^ e)
    (hways : ∃ e : Nat, c.numBlocksPerSet = 2 ^ e) (h : ¬∃ e : Nat, c.blockSize = 2 ^ e) :
    configError c = some .ce3 := by
  rw [← isPowerOfTwo_iff] at hsets hways h
  simp [configError, configErrors, hsets, hways, h]

/-- What the check reports once the three dimensions are powers of two. -/
theorem configError_of_dimensions {c : Cfg} (hsets : ∃ e : Nat, c.numSets = 2 ^ e)
    (hways : ∃ e : Nat, c.numBlocksPerSet = 2 ^ e) (hbytes : ∃ e : Nat, c.blockSize = 2 ^ e) :
    configError c =
      if c.blockSize = 1 ∨ c.blockSize = 2 then some .ce4
      else if c.writeAllocate = false ∧ c.writeThrough = false then some .ce5
      else if policyIllegal c then some .ce6
      else none := by
  rw [← isPowerOfTwo_iff] at hsets hways hbytes
  simp only [configError, configErrors, hsets, hways, hbytes, if_true, List.nil_append]
  split_ifs <;> rfl

/-! ### The causes on a dimension given by its exponent, and on the packed policy -/

theorem two_pow_eq_one_or_two_iff {e : Nat} : ((2 : Int) ^ e = 1 ∨ (2 : Int) ^ e = 2) ↔ e < 2 := by
  have hinj : ∀ k : Nat, (2 : Int) ^ e = 2 ^ k ↔ e = k := fun k => pow_right_inj₀ (by norm_num) (by norm_num)
  have h0 := hinj 0
  have h1 := hinj 1
  rw [pow_zero] at h0
  rw [pow_one] at h1
  rw [h0, h1]
  omega

theorem one_lt_two_pow_iff {e : Nat} : (1 : Int) < 2 ^ e ↔ 0 < e := by
  rw [← pow_zero (2 : Int), pow_lt_pow_iff_right₀ (by norm_num)]

theorem unpackPolicy_eq_reserved_iff : ∀ p : BitVec 2, unpackPolicy p.toNat = .reserved ↔ p.toNat = 3 := by decide

theorem unpackPolicy_lru_or_fifo_iff :
    ∀ p : BitVec 2, (unpackPolicy p.toNat = .lru ∨ unpackPolicy p.toNat = .fifo) ↔ p.toNat = 1 ∨ p.toNat = 2 := by
  decide

/-- The packed policy is illegal where it is the reserved code, or None with more than one way (30_encoding.md R101). -/
theorem policyIllegal_unpackCfg_iff (w : BitVec 19) :
    policyIllegal (unpackCfg w) = true ↔
      (w.extractLsb' 17 2).toNat = 3 ∨ (w.extractLsb' 17 2).toNat = 0 ∧ 0 < (w.extractLsb' 10 5).toNat := by
  have hlt : (w.extractLsb' 17 2).toNat < 4 := BitVec.isLt _
  rw [policyIllegal_iff]
  simp only [unpackCfg, unpackPolicy_eq_reserved_iff, unpackPolicy_lru_or_fifo_iff, one_lt_two_pow_iff]
  omega

/-- Configurations that are no errors (60_exceptions.md R263). -/
theorem configError_eq_none_of_legal {c : Cfg} (hsets : ∃ e : Nat, c.numSets = 2 ^ e)
    (hways : ∃ e : Nat, c.numBlocksPerSet = 2 ^ e) (hbytes : ∃ e : Nat, 2 ≤ e ∧ c.blockSize = 2 ^ e)
    (hpair : ¬(c.writeAllocate = false ∧ c.writeThrough = false)) (hpolicy : ¬policyIllegal c = true) :
    configError c = none := by
  obtain ⟨e, he, hsize⟩ := hbytes
  have hsmall : ¬(c.blockSize = 1 ∨ c.blockSize = 2) := by
    rw [hsize, two_pow_eq_one_or_two_iff]
    omega
  exact configError_eq_none.2 ⟨isPowerOfTwo_iff.2 hsets, isPowerOfTwo_iff.2 hways, isPowerOfTwo_iff.2 ⟨e, hsize⟩, hsmall,
    hpair, Bool.eq_false_iff.2 hpolicy⟩

/-! ### While an error is asserted (60_exceptions.md R269, R274) -/

theorem applyReset_of_configError {c : Cfg} {e : ConfigError} (h : configError c = some e) (s : State) :
    applyReset c s = .next (s.afterReset c (some e)) := by
  simp only [applyReset, h]

theorem snapshot_of_cfgError {s : State} {e : ConfigError} (h : s.cfgError = some e) : s.snapshot = none := by
  rw [State.snapshot, h]
  rfl

theorem exec_of_cfgError {s : State} {e : ConfigError} (h : s.cfgError = some e) (i : Instr) :
    exec i s = .refused .requestWhileCfgError := by
  have hrefusal : ∀ k a, requestRefusal k a s = some .requestWhileCfgError := fun k a => by simp [requestRefusal, h]
  cases i with
  | load a => simp only [exec, execLoad, hrefusal]
  | store a => simp only [exec, execStore, hrefusal]

theorem step_of_trace {s : State} {lines : List (List Char)} {rest : List EnvEvent}
    (h : s.pending = .trace lines :: rest) : step s = loadTrace lines (s.popped rest) := by
  simp only [step, h]

theorem loadTrace_of_cfgError {s : State} {e : ConfigError} (h : s.cfgError = some e) (lines : List (List Char)) :
    loadTrace lines s = .refused .requestWhileCfgError := by
  rw [loadTrace, h]
  rfl

/-! ### A trace handed over (60_exceptions.md R270) -/

theorem loadTrace_of_ok {s : State} {lines : List (List Char)} {is : List Instr} (he : s.cfgError = none)
    (h : parseTrace lines = .ok is) :
    loadTrace lines s = .next { s with pending := is.map textRequest ++ s.pending } := by
  rw [loadTrace, he, h]
  rfl

theorem loadTrace_of_error {s : State} {lines : List (List Char)} {e : TraceError} (he : s.cfgError = none)
    (h : parseTrace lines = .error e) :
    loadTrace lines s =
      if s.opCounter = 0#64 then .fault (.traceFormat e) else .refused .traceErrorAfterFirstOperation := by
  rw [loadTrace, he, h]
  rfl

/-- A trace that reads as requests has no other line. -/
theorem parseLine_of_mem_parseTrace {lines : List (List Char)} {is : List Instr} (h : parseTrace lines = .ok is) :
    ∀ line ∈ lines, ∃ i, parseLine line = .ok i := by
  have hread := (parseTrace_eq_ok.1 h).imp fun line i hi => And.intro (Exists.intro i hi) hi
  exact ((List.forall₂_and_left (p := fun line => ∃ i, parseLine line = .ok i) _ _).1 hread).1

/-- A trace with a malformed line gives no next state. -/
theorem loadTrace_ne_next {lines : List (List Char)} {line : List Char} {e : TraceError} (hmem : line ∈ lines)
    (h : parseLine line = .error e) (s t : State) : loadTrace lines s ≠ .next t := by
  intro hnext
  obtain ⟨-, is, hread, -⟩ := loadTrace_next hnext
  obtain ⟨i, hi⟩ := parseLine_of_mem_parseTrace hread line hmem
  rw [h] at hi
  cases hi

/-! ### LOAD and STORE raise nothing (60_exceptions.md R261) -/

theorem exec_ne_fault (i : Instr) (s : State) (f : Fault) : exec i s ≠ .fault f := by
  intro hf
  rcases exec_cases i s with ⟨r, hr⟩ | ⟨-, st, n, hn, -⟩
  · rw [hr] at hf
    cases hf
  · rw [hn] at hf
    cases hf

section
variable {i : Instr} {s : State}

/-- The outcome is a hit where LOOKUP finds the tag. -/
theorem requestEffect_hit (i : Instr) (s : State) :
    (requestEffect i s).1 = (lookup (s.row (decoded i s).index) (decoded i s).tag).isSome := by
  unfold requestEffect
  split <;> simp only [*, Option.isSome_some, Option.isSome_none]

theorem requestRecord_hit_iff :
    (requestRecord i s).hit = true ↔
      ∃ sl ∈ s.row (decoded i s).index, sl.valid = true ∧ sl.tag = (decoded i s).tag := by
  change (requestEffect i s).1 = true ↔ _
  rw [requestEffect_hit, Option.isSome_iff_ne_none, Ne, lookup_eq_none]
  simp only [not_forall, not_not, exists_prop]

theorem requestRecord_of_direct (hl : lookup (s.row (decoded i s).index) (decoded i s).tag = none)
    (hk : i.kind = .store) (hwa : s.cfg.writeAllocate = false) : requestRecord i s = directRecord i s := by
  cases i with
  | load a => cases hk
  | store a =>
    simp only [requestRecord, requestEffect, hl, storeMiss, hwa]
    rfl

theorem State.missCost_le (s : State) (j : Nat) :
    s.missCost j ≤ 2 * (s.params.cost.perByte * s.cfg.bytes) + s.params.cost.access := by
  unfold State.missCost
  split <;> omega

/-- No request costs more than two block transfers, a write to memory and an access (43_cycle_accountant.md R208). -/
theorem requestRecord_cost_le (h : Inv s) (hr : Ready i.kind i.address s) :
    (requestRecord i s).cost ≤
      2 * (s.params.cost.perByte * s.cfg.bytes) + s.params.cost.memWrite + s.params.cost.access := by
  rcases requestRecord_cases h hr with ⟨w, -, hrec⟩ | ⟨hl, hrec | ⟨hk, hwa⟩⟩
  · rw [hrec]
    change (if StoresThrough i s then s.params.cost.memWrite + s.params.cost.access else s.params.cost.access) ≤ _
    split <;> omega
  · rw [hrec]
    have hmiss : (installRecord i s).cost ≤ _ := s.missCost_le (decoded i s).index
    omega
  · rw [requestRecord_of_direct hl hk hwa]
    change s.params.cost.memWrite ≤ _
    omega

end

theorem CountersFit.mono {k : Kind} {hit : Bool} {cost bound : Nat} {s : State} (h : CountersFit k hit bound s)
    (hle : cost ≤ bound) : CountersFit k hit cost s := by
  obtain ⟨fitOp, fitCounter, fitCycles⟩ := h
  exact ⟨fitOp, fitCounter, by omega⟩

/-! ### The hex digits (30_encoding.md R99) -/

/-- The characters that are hex digits. -/
def hexAlphabet : List Char := "0123456789abcdefABCDEF".toList

theorem map_hexDigit_hexAlphabet : hexAlphabet.map hexDigit = (List.range 16 ++ List.range' 10 6).map some := by decide

/-- The three ranges of character codes that `hexDigit` looks for. -/
theorem ofNat_mem_hexAlphabet :
    (∀ k < 10, Char.ofNat (48 + k) ∈ hexAlphabet) ∧ (∀ k < 6, Char.ofNat (97 + k) ∈ hexAlphabet) ∧
    ∀ k < 6, Char.ofNat (65 + k) ∈ hexAlphabet := by decide

theorem mem_hexAlphabet_of_hexDigit {c : Char} {d : Nat} (h : hexDigit c = some d) : c ∈ hexAlphabet := by
  obtain ⟨hdigit, hlower, hupper⟩ := ofNat_mem_hexAlphabet
  have hcode : ∀ base, base ≤ c.toNat → Char.ofNat (base + (c.toNat - base)) = c := fun base hle => by
    rw [Nat.add_sub_cancel' hle, Char.ofNat_toNat]
  rw [hexDigit] at h
  split_ifs at h with h48 h97 h65
  · exact hcode 48 h48.1 ▸ hdigit _ (by omega)
  · exact hcode 97 h97.1 ▸ hlower _ (by omega)
  · exact hcode 65 h65.1 ▸ hupper _ (by omega)

theorem hexDigit_eq_none_iff (c : Char) : hexDigit c = none ↔ c ∉ hexAlphabet := by
  constructor
  · intro hnone hmem
    have hvalue := List.mem_map_of_mem (f := hexDigit) hmem
    rw [map_hexDigit_hexAlphabet, hnone] at hvalue
    simp at hvalue
  · intro hnot
    cases hd : hexDigit c with
    | none => rfl
    | some d => exact absurd (mem_hexAlphabet_of_hexDigit hd) hnot

/-! ### The address field (30_encoding.md R99, 60_exceptions.md R265) -/

theorem parseHex_of_other_start {hex : List Char} (hx : hex.take 2 ≠ ['0', 'x']) (hX : hex.take 2 ≠ ['0', 'X']) :
    parseHex hex = .error .te2 := by
  unfold parseHex
  split
  · simp at hx
  · simp at hX
  · rfl

theorem parseHex_of_upper_start {hex : List Char} (h : hex.take 2 = ['0', 'X']) : parseHex hex = .unspecified := by
  obtain ⟨ds, rfl⟩ : ∃ ds, hex = '0' :: 'X' :: ds := ⟨hex.drop 2, by simpa [h] using (List.take_append_drop 2 hex).symm⟩
  rfl

theorem parseHex_of_no_value {ds : List Char} (h : ds = [] ∨ ∃ c ∈ ds, hexDigit c = none) :
    parseHex ('0' :: 'x' :: ds) = .error .te2 := by
  rcases h with rfl | hbad
  · rfl
  · obtain ⟨c, cs, rfl⟩ := List.exists_cons_of_ne_nil (List.ne_nil_of_mem hbad.choose_spec.1)
    simp only [parseHex, hexValue_none hbad]

/-- An address field of hex digits, by their value and their number. -/
theorem parseHex_of_digits {ds : List Char} {digits : List Nat} (hne : ds ≠ [])
    (h : ds.map hexDigit = digits.map some) :
    parseHex ('0' :: 'x' :: ds) =
      if 2 ^ 32 ≤ Nat.ofDigits 16 digits.reverse then .error .te2
      else if 8 < ds.length then .unspecified
      else .ok (BitVec.ofNat 32 (Nat.ofDigits 16 digits.reverse)) := by
  obtain ⟨c, cs, rfl⟩ := List.exists_cons_of_ne_nil hne
  have hvalue := hexValue_eq h 0
  rw [Nat.zero_mul, Nat.zero_add] at hvalue
  simp only [parseHex, hvalue]

/-! ### A line of fields by its op token (60_exceptions.md R265) -/

theorem parseLine_of_unknown_op {op : List Char} {rest : List (Nat × List Char)} (hop : IsField op)
    (h : ∀ g ∈ rest, IsField g.2) (hk : opKind op = none) : parseLine (fieldsLine op rest) = .error .te1 := by
  cases rest with
  | nil => simp [parseLine_field hop, hk]
  | cons g more =>
    rw [parseLine_fields hop h, hk]

theorem parseLine_of_op_alone (k : Kind) : parseLine (fieldsLine (opToken k) []) = .error .te3 := by
  simp [parseLine_field (isField_opToken k), opKind_opToken]

section
variable {k : Kind} {n : Nat} {hex : List Char} {more : List (Nat × List Char)}
variable (h : ∀ g ∈ (n, hex) :: more, IsField g.2)
include h

theorem parseLine_of_address_error {e : TraceError} (hp : parseHex hex = .error e) :
    parseLine (fieldsLine (opToken k) ((n, hex) :: more)) = .error e := by
  rw [parseLine_fields (isField_opToken k) h, opKind_opToken, hp]

theorem parseLine_of_address_unspecified (hp : parseHex hex = .unspecified) :
    parseLine (fieldsLine (opToken k) ((n, hex) :: more)) = .unspecified := by
  rw [parseLine_fields (isField_opToken k) h, opKind_opToken, hp]

theorem parseLine_of_address {a : Address} (hp : parseHex hex = .ok a) :
    parseLine (fieldsLine (opToken k) ((n, hex) :: more)) =
      if 1 < more.length then .unspecified else .ok (instrOf k a) := by
  rw [parseLine_fields (isField_opToken k) h, opKind_opToken, hp]
  simp only [← not_lt, ite_not]

end

/-- A line of a known op token and an address field of hex digits (30_encoding.md R97, R99). -/
theorem parseLine_of_digits {k : Kind} {n : Nat} {ds : List Char} {digits : List Nat} {more : List (Nat × List Char)}
    (h : ∀ g ∈ (n, '0' :: 'x' :: ds) :: more, IsField g.2) (hne : ds ≠ []) (hds : ds.map hexDigit = digits.map some) :
    parseLine (fieldsLine (opToken k) ((n, '0' :: 'x' :: ds) :: more)) =
      if 2 ^ 32 ≤ Nat.ofDigits 16 digits.reverse then .error .te2
      else if 8 < ds.length ∨ 1 < more.length then .unspecified
      else .ok (instrOf k (BitVec.ofNat 32 (Nat.ofDigits 16 digits.reverse))) := by
  have hp := parseHex_of_digits hne hds
  by_cases hlarge : 2 ^ 32 ≤ Nat.ofDigits 16 digits.reverse
  · rw [if_pos hlarge] at hp ⊢
    exact parseLine_of_address_error h hp
  rw [if_neg hlarge] at hp ⊢
  by_cases hlong : 8 < ds.length
  · rw [if_pos hlong] at hp
    rw [if_pos (.inl hlong)]
    exact parseLine_of_address_unspecified h hp
  · rw [if_neg hlong] at hp
    rw [parseLine_of_address h hp]
    simp only [hlong, false_or]

end Sys2Proof.Machine

/-! ### The statements -/

namespace Sys2Proof.Proofs

open Sys2Proof.Machine

/-- Settles O12: the check lists the causes lowest code first, and the dimensions of a packed CFG are powers of two. -/
theorem configurationErrorCodes : Obligations.ConfigurationErrorCodes := by
  unfold Obligations.ConfigurationErrorCodes
  refine ⟨fun c => ⟨configError_of_sets, fun hsets => ⟨configError_of_ways hsets, fun hways =>
    ⟨configError_of_bytes hsets hways, fun hbytes => ?_⟩⟩⟩, fun w => ?_⟩
  · rw [configError_of_dimensions hsets hways hbytes]
    simp only [policyIllegal_iff]
  · have hsmall : (unpackCfg w).blockSize = 1 ∨ (unpackCfg w).blockSize = 2 ↔ (w.extractLsb' 0 5).toNat < 2 :=
      two_pow_eq_one_or_two_iff
    rw [configError_of_dimensions ⟨_, rfl⟩ ⟨_, rfl⟩ ⟨_, rfl⟩]
    simp only [hsmall, policyIllegal_unpackCfg_iff]
    rfl

/-- Settles O13: each cause of ConfigurationError is excluded in turn, and the pair left out is CE5's. -/
theorem legalConfigurationsAccepted : Obligations.LegalConfigurationsAccepted := by
  unfold Obligations.LegalConfigurationsAccepted
  constructor
  · intro c hsets hbytes hways hpairs
    have hpair : ¬(c.writeAllocate = false ∧ c.writeThrough = false) := by
      rintro ⟨ha, ht⟩
      simp [ha, ht] at hpairs
    rcases hways with ⟨hone, hreserved⟩ | ⟨hways, hpolicy⟩
    · refine configError_eq_none_of_legal hsets ⟨0, hone⟩ hbytes hpair ?_
      rw [policyIllegal_iff]
      rintro (hp | ⟨hmany, -⟩)
      · exact hreserved hp
      · omega
    · refine configError_eq_none_of_legal hsets hways hbytes hpair ?_
      rw [policyIllegal_iff]
      rintro (hp | ⟨-, hnot⟩)
      · simp [hp] at hpolicy
      · exact hnot hpolicy
  · intro c hc
    obtain ⟨-, -, -, -, hpair, -⟩ := configError_eq_none.1 hc
    cases ha : c.writeAllocate <;> cases ht : c.writeThrough <;> simp [ha, ht] at hpair ⊢

/-- Settles O16: the reset of an illegal CFG is a next state with the error asserted, and an asserted error is the first
thing a request and a trace are refused for. -/
theorem illegalConfigurationIsReported : Obligations.IllegalConfigurationIsReported := by
  unfold Obligations.IllegalConfigurationIsReported
  constructor
  · intro c e s rest hc hp
    exact ⟨_, (step_of_reset hp).trans (applyReset_of_configError hc _), rfl, rfl, slot_afterReset_valid _ _ _, rfl, rfl,
      snapshot_of_cfgError rfl, rfl, rfl⟩
  · intro e s he
    refine ⟨exec_of_cfgError he, fun lines rest hp => ?_⟩
    rw [step_of_trace hp, loadTrace_of_cfgError (s := s.popped rest) he]

/-- Settles O19: a trace gives a next state only when every line reads as a request, and its first line that does not decides
what the step does. -/
theorem badLineStopsTheWholeTrace : Obligations.BadLineStopsTheWholeTrace := by
  unfold Obligations.BadLineStopsTheWholeTrace
  intro s lines rest he hp
  have he' : (s.popped rest).cfgError = none := he
  rw [step_of_trace hp]
  refine ⟨fun line e hmem hbad t => loadTrace_ne_next hmem hbad _ t, ?_, fun is hread => ?_⟩
  · rintro before line after e rfl hbefore hbad
    exact loadTrace_of_error he' (parseTrace_of_error hbefore hbad)
  · exact loadTrace_of_ok he' (parseTrace_eq_ok.2 hread)

/-- Settles O27: no request faults, and the bound covers the cost of every path, so a request that is ready completes. -/
theorem requestsComplete : Obligations.RequestsComplete := by
  unfold Obligations.RequestsComplete
  refine ⟨exec_ne_fault, fun i s h hr hfit => ?_⟩
  obtain ⟨t, hx, ht, -⟩ := exec_completes h hr rfl ((hfit i.kind _).mono (requestRecord_cost_le h hr))
  exact ⟨t, _, hx, by rw [ht], requestRecord_hit_iff⟩

/-- Settles O58: a line of fields is decided by its op token, then by its address field, then by how many fields follow. -/
theorem textLineOutcomes : Obligations.TextLineOutcomes := by
  unfold Obligations.TextLineOutcomes
  refine ⟨hexDigit_eq_none_iff, by decide, by decide, fun line => parseLine_refused, fun op rest hop hrest =>
    ⟨fun hl hs => parseLine_of_unknown_op hop hrest (by rw [opKind, if_neg hl, if_neg hs]), ?_⟩⟩
  intro k hk
  obtain rfl : op = opToken k := by rw [hk]; cases k <;> rfl
  refine ⟨?_, ?_⟩
  · rintro rfl
    exact parseLine_of_op_alone k
  rintro n hex more rfl
  refine ⟨fun hx hX => parseLine_of_address_error hrest (parseHex_of_other_start hx hX),
    fun hX => parseLine_of_address_unspecified hrest (parseHex_of_upper_start hX), ?_⟩
  rintro ds rfl
  refine ⟨fun hbad => parseLine_of_address_error hrest (parseHex_of_no_value hbad), ?_⟩
  rintro digits v hne hds rfl
  rw [parseLine_of_digits hrest hne hds]
  cases k <;> rfl

end Sys2Proof.Proofs
end

section
/-! Proofs for spec/70_reset_and_hazards.md: what a reset leaves (R291, R293, R295), and that CFG is constant between resets
(R298). -/

namespace Sys2Proof.Machine

/-! ### Reset (70_reset_and_hazards.md R291, R293) -/

theorem applyReset_of_legalCfg {c : Cfg} (h : legalCfg c = true) (s : State) :
    applyReset c s = .next (s.afterReset c none) := by
  obtain ⟨he, hb⟩ := legalCfg_iff.1 h
  simp only [applyReset, he, hb, if_true]

/-- The reset constant is what a reset presenting its CFG leaves of itself. -/
theorem reset_eq_afterReset :
    State.reset = State.reset.afterReset Config.resetCfg (configError Config.resetCfg) := by
  decide

/-! ### CFG between resets (70_reset_and_hazards.md R298) -/

theorem step_of_changeCfg {c : Cfg} {s : State} {rest : List EnvEvent} (h : s.pending = .changeCfg c :: rest) :
    step s = changeCfg c (s.popped rest) := by
  simp only [step, h]

theorem changeCfg_of_ne {c : Cfg} {s : State} (h : c ≠ s.cfg) : changeCfg c s = .refused .cfgChangedWithoutReset :=
  if_neg h

/-- Only a reset changes CFG. -/
theorem reset_presented_of_cfg_ne {s t : State} (h : step s = .next t) (hne : t.cfg ≠ s.cfg) :
    ∃ c rest, s.pending = .reset c :: rest ∨ ∃ w, s.pending = .resetPacked w :: rest ∧ c = unpackCfg w := by
  rcases step_cases h with ⟨-, rfl⟩ | ⟨c, rest, hp, -, -⟩ | ⟨w, sb, rest, -, hx⟩ | ⟨rest, -, rfl⟩ |
    ⟨lines, rest, is, -, -, -, rfl⟩
  · exact absurd rfl hne
  · exact ⟨c, rest, hp⟩
  · exact absurd (exec_sameSetting hx).cfg hne
  · exact absurd (State.popped_cfg s rest) hne
  · exact absurd (State.popped_cfg s _) hne

end Sys2Proof.Machine

/-! ### The statements -/

namespace Sys2Proof.Proofs

open Sys2Proof.Machine

/-- Settles O18: a CFG other than the one held is refused when driven, and where CFG differs after a step the step served a
reset. -/
theorem configurationChangeRefused : Obligations.ConfigurationChangeRefused := by
  unfold Obligations.ConfigurationChangeRefused
  constructor
  · intro c s rest hp hne
    rw [step_of_changeCfg hp, changeCfg_of_ne (s := s.popped rest) hne]
  · intro s t h habstract hpacked
    by_contra hne
    obtain ⟨c, rest, hp | ⟨w, hp, -⟩⟩ := reset_presented_of_cfg_ne h hne
    · exact habstract c rest hp
    · exact hpacked w rest hp

/-- Settles O15: the check lets a legal CFG pass, and where no row is listed every byte seen is memory's. -/
theorem resetEmptiesTheCache : Obligations.ResetEmptiesTheCache := by
  unfold Obligations.ResetEmptiesTheCache
  intro c s rest hc hp
  exact ⟨_, (step_of_reset hp).trans (applyReset_of_legalCfg hc _), slot_afterReset_valid _ _ _, rfl, rfl, rfl, rfl, rfl,
    rfl, byteAt_of_no_rows (State.afterReset_rows _ _ _), rfl, rfl⟩

/-- Settles O50: the reset constant is the state after the reset of a CFG in bounds, with a memory in canonical form. -/
theorem invariantAtReset : Obligations.InvariantAtReset := by
  unfold Obligations.InvariantAtReset
  rw [reset_eq_afterReset]
  exact inv_afterReset reset_memory_wf fun _ => by decide

end Sys2Proof.Proofs
end
